-- ==== Sys2Proof/Word.lean ====
section
/-! DEFINITION. The word types of the block (spec/00_scope.md R7, R8): bytes, 16-bit fields, 32-bit words,
64-bit command words. -/

namespace Sys2Proof

/-- One byte: a sample, a bitstream byte, a probability (R7). -/
abbrev Byte := BitVec 8

/-- A 16-bit field: a coefficient (two's complement), a control register number, `STRIDE` (R7). -/
abbrev Half := BitVec 16

/-- A 32-bit word: an address, `RES`, a reader's `value`, response data (R7). -/
abbrev Word := BitVec 32

/-- A 64-bit command word `W` (spec/30_encoding.md R70). -/
abbrev Command := BitVec 64

end Sys2Proof
end

