-- ==== Sys2Proof/Syntax.lean ====
section
/-! DEFINITION. The commands of the set VP8DP-C1: one constructor per row of spec/opcode_table.json
(spec/30_encoding.md R72, R73), with the operand fields as they stand in the command word. -/

namespace Sys2Proof

/-- The `dir` flag of an edge command (R74, spec/43_loop_filter.md R193). -/
inductive Dir where
  /-- `dir = 0`, written `V`: a horizontal edge, the taps run vertically. -/
  | vertical
  /-- `dir = 1`, written `H`: a vertical edge, the taps run horizontally. -/
  | horizontal
deriving DecidableEq, Repr

/-- The `n8` flag of a normal-filter edge command (R74): how many positions the edge has. -/
inductive EdgeLength where
  /-- `n8 = 0`: 16 positions, a luma edge. -/
  | sixteen
  /-- `n8 = 1`: 8 positions, a chroma edge. -/
  | eight
deriving DecidableEq, Repr

/-- A command of the block. `rid` names a reader context, `A` is an SM block or edge address. -/
inductive Instr where
  -- FE unit, system (spec/44_system_and_memory.md R220 to R223)
  | nop
  | sysReset
  | sysRdc (n : Half)
  | sysWrc (n : Half) (v : Word)
  -- FE unit, memory (R224 to R227)
  | memLdb (addr : Word)
  | memStb (v : Byte) (addr : Word)
  | memLdc (idx : Word)
  | memStc (v : Half) (idx : Word)
  -- BR unit (spec/40_boolreader.md R101, R102, R108 to R111)
  | brSetend (rid : BitVec 4) (bound : Word)
  | brStart (rid : BitVec 4) (start : Word)
  | brGetbit (rid : BitVec 4) (prob : Byte)
  | brBool (rid : BitVec 4)
  | brValue (rid : BitVec 4) (n : BitVec 5)
  | brSigned (rid : BitVec 4) (n : BitVec 5)
  -- XF unit (spec/42_inverse_transforms.md R172, R176)
  | xfIwht (src : Half) (dst : Word)
  | xfIdctadd (src : Half) (A : Word)
  -- IP unit, 4×4 (spec/41_intra_prediction.md R135 to R144)
  | ip4Dc (A : Word)
  | ip4Tm (A : Word)
  | ip4Ve (A : Word)
  | ip4He (A : Word)
  | ip4Ld (A : Word)
  | ip4Rd (A : Word)
  | ip4Vr (A : Word)
  | ip4Vl (A : Word)
  | ip4Hd (A : Word)
  | ip4Hu (A : Word)
  -- IP unit, 16×16 (R146 to R149)
  | ip16Dc (notop noleft : Bool) (A : Word)
  | ip16V (A : Word)
  | ip16H (A : Word)
  | ip16Tm (A : Word)
  -- IP unit, 8×8 (R150 to R153)
  | ip8Dc (notop noleft : Bool) (A : Word)
  | ip8V (A : Word)
  | ip8H (A : Word)
  | ip8Tm (A : Word)
  -- LF unit (spec/43_loop_filter.md R191, R201 to R204)
  | lfSetup (level : BitVec 6) (sharpness : BitVec 3)
  | lfSmb (dir : Dir) (A : Word)
  | lfSin (dir : Dir) (A : Word)
  | lfNmb (dir : Dir) (n : EdgeLength) (A : Word)
  | lfNin (dir : Dir) (n : EdgeLength) (A : Word)
deriving DecidableEq, Repr

end Sys2Proof
end

