-- ==== Sys2Proof/WellFormed.lean ====
section
/-! DEFINITION. The operand ranges of spec/30_encoding.md R72 that the field widths of `Instr` do not already
enforce: `rid` 0..8 and `n` 1..24. A word whose fields break one raises ReservedField (R75). -/

namespace Sys2Proof

/-- `rid` names one of the nine reader contexts (R72: "rid 0..8"). -/
def ridOk (rid : BitVec 4) : Bool := rid.toNat ≤ 8

/-- `n` is a bit count that `BR.VALUE` and `BR.SIGNED` take (R72: "n, 1..24"). -/
def countOk (n : BitVec 5) : Bool := 1 ≤ n.toNat && n.toNat ≤ 24

/-- Every operand of the command lies in the range R72 gives it. -/
def Instr.wellFormed : Instr → Bool
  | .nop | .sysReset => true
  | .sysRdc _ | .sysWrc _ _ => true
  | .memLdb _ | .memStb _ _ | .memLdc _ | .memStc _ _ => true
  | .brSetend rid _ => ridOk rid
  | .brStart rid _ => ridOk rid
  | .brGetbit rid _ => ridOk rid
  | .brBool rid => ridOk rid
  | .brValue rid n => ridOk rid && countOk n
  | .brSigned rid n => ridOk rid && countOk n
  | .xfIwht _ _ | .xfIdctadd _ _ => true
  | .ip4Dc _ | .ip4Tm _ | .ip4Ve _ | .ip4He _ | .ip4Ld _ => true
  | .ip4Rd _ | .ip4Vr _ | .ip4Vl _ | .ip4Hd _ | .ip4Hu _ => true
  | .ip16Dc _ _ _ | .ip16V _ | .ip16H _ | .ip16Tm _ => true
  | .ip8Dc _ _ _ | .ip8V _ | .ip8H _ | .ip8Tm _ => true
  | .lfSetup _ _ | .lfSmb _ _ | .lfSin _ _ | .lfNmb _ _ _ | .lfNin _ _ _ => true

end Sys2Proof
end

