-- ==== Sys2Proof/Decode.lean ====
section
/-! DEFINITION. The decoder of 64-bit command words (spec/30_encoding.md R70 to R75), total, rejecting by name,
and after it the encoder, written from the same table. -/

namespace Sys2Proof

/-- Why a command word stands for no command (R75, spec/60_exceptions.md R241). -/
inductive DecodeError where
  /-- `op` is not one of the 24 values of R72: cause 1. -/
  | illegalOpcode
  /-- A must-be-zero bit is nonzero or a field is outside its range: cause 2. -/
  | reservedField
deriving DecidableEq, Repr

/-! ### Fields of a command word (R70) -/

def fieldOp (w : Command) : BitVec 8 := w.extractLsb' 56 8
def fieldA (w : Command) : BitVec 4 := w.extractLsb' 52 4
def fieldB (w : Command) : BitVec 4 := w.extractLsb' 48 4
def fieldC (w : Command) : BitVec 16 := w.extractLsb' 32 16
def fieldImm (w : Command) : BitVec 32 := w.extractLsb' 0 32

/-- A command word from its five fields (R70). -/
def packFields (op : BitVec 8) (a b : BitVec 4) (c : BitVec 16) (imm : BitVec 32) : Command :=
  op ++ a ++ b ++ c ++ imm

/-- `dir`: 0 is `V`, 1 is `H` (R74). -/
def Dir.ofBit : Bool → Dir
  | false => .vertical
  | true => .horizontal

def Dir.toBit : Dir → Bool
  | .vertical => false
  | .horizontal => true

/-- `n8`: 0 is sixteen positions, 1 is eight (R74). -/
def EdgeLength.ofBit : Bool → EdgeLength
  | false => .sixteen
  | true => .eight

def EdgeLength.toBit : EdgeLength → Bool
  | .sixteen => false
  | .eight => true

/-- A `b` field holding two flags: `b[0] = lo`, `b[1] = hi`, `b[3:2] = 0` (R72). -/
def flagBits (lo hi : Bool) : BitVec 4 := BitVec.ofBool false ++ BitVec.ofBool false ++ BitVec.ofBool hi ++ BitVec.ofBool lo

/-- The command `i` where the must-be-zero bits are zero and the fields in range, else ReservedField (R75(b)). -/
def unlessReserved (ok : Bool) (i : Instr) : Except DecodeError Instr :=
  if ok then .ok i else .error .reservedField

/-- The ten 4×4 modes by the number in `a` (R73). -/
def decodeIp4 (mode : BitVec 4) (A : Word) (zero : Bool) : Except DecodeError Instr :=
  match mode.toNat with
  | 0 => unlessReserved zero (.ip4Dc A)
  | 1 => unlessReserved zero (.ip4Tm A)
  | 2 => unlessReserved zero (.ip4Ve A)
  | 3 => unlessReserved zero (.ip4He A)
  | 4 => unlessReserved zero (.ip4Ld A)
  | 5 => unlessReserved zero (.ip4Rd A)
  | 6 => unlessReserved zero (.ip4Vr A)
  | 7 => unlessReserved zero (.ip4Vl A)
  | 8 => unlessReserved zero (.ip4Hd A)
  | 9 => unlessReserved zero (.ip4Hu A)
  | _ => .error .reservedField

/-- The four 16×16 modes (R73), the flags `notop`, `noleft` on DC only (R145). -/
def decodeIp16 (mode b : BitVec 4) (A : Word) (zero : Bool) : Except DecodeError Instr :=
  match mode.toNat with
  | 0 => unlessReserved (zero && b.toNat < 4) (.ip16Dc (b.getLsbD 0) (b.getLsbD 1) A)
  | 1 => unlessReserved (zero && b == 0) (.ip16V A)
  | 2 => unlessReserved (zero && b == 0) (.ip16H A)
  | 3 => unlessReserved (zero && b == 0) (.ip16Tm A)
  | _ => .error .reservedField

/-- The four 8×8 modes (R73), fields as IP16. -/
def decodeIp8 (mode b : BitVec 4) (A : Word) (zero : Bool) : Except DecodeError Instr :=
  match mode.toNat with
  | 0 => unlessReserved (zero && b.toNat < 4) (.ip8Dc (b.getLsbD 0) (b.getLsbD 1) A)
  | 1 => unlessReserved (zero && b == 0) (.ip8V A)
  | 2 => unlessReserved (zero && b == 0) (.ip8H A)
  | 3 => unlessReserved (zero && b == 0) (.ip8Tm A)
  | _ => .error .reservedField

/-- The command a word stands for, by the opcode map of R72; every other `op` is IllegalOpcode, a nonzero
must-be-zero bit or an out-of-range field ReservedField (R75), in that order (spec/60_exceptions.md R242). -/
def decode (w : Command) : Except DecodeError Instr :=
  let a := fieldA w
  let b := fieldB w
  let c := fieldC w
  let imm := fieldImm w
  match (fieldOp w).toNat with
  | 0x00 => unlessReserved (a == 0 && b == 0 && c == 0 && imm == 0) .nop
  | 0x01 => unlessReserved (a == 0 && b == 0 && c == 0 && imm == 0) .sysReset
  | 0x02 => unlessReserved (a == 0 && b == 0 && imm == 0) (.sysRdc c)
  | 0x03 => unlessReserved (a == 0 && b == 0) (.sysWrc c imm)
  | 0x08 => unlessReserved (a == 0 && b == 0 && c == 0) (.memLdb imm)
  | 0x09 => unlessReserved (a == 0 && b == 0 && c.toNat < 256) (.memStb (c.extractLsb' 0 8) imm)
  | 0x0A => unlessReserved (a == 0 && b == 0 && c == 0) (.memLdc imm)
  | 0x0B => unlessReserved (a == 0 && b == 0) (.memStc c imm)
  | 0x10 => unlessReserved (ridOk a && b == 0 && c == 0) (.brSetend a imm)
  | 0x11 => unlessReserved (ridOk a && b == 0 && c == 0) (.brStart a imm)
  | 0x12 => unlessReserved (ridOk a && b == 0 && c.toNat < 256 && imm == 0) (.brGetbit a (c.extractLsb' 0 8))
  | 0x13 => unlessReserved (ridOk a && b == 0 && c == 0 && imm == 0) (.brBool a)
  | 0x14 => unlessReserved (ridOk a && b == 0 && c.toNat < 32 && countOk (c.extractLsb' 0 5) && imm == 0)
      (.brValue a (c.extractLsb' 0 5))
  | 0x15 => unlessReserved (ridOk a && b == 0 && c.toNat < 32 && countOk (c.extractLsb' 0 5) && imm == 0)
      (.brSigned a (c.extractLsb' 0 5))
  | 0x20 => unlessReserved (a == 0 && b == 0) (.xfIwht c imm)
  | 0x21 => unlessReserved (a == 0 && b == 0) (.xfIdctadd c imm)
  | 0x30 => decodeIp4 a imm (b == 0 && c == 0)
  | 0x31 => decodeIp16 a b imm (c == 0)
  | 0x32 => decodeIp8 a b imm (c == 0)
  | 0x40 => unlessReserved (a == 0 && b == 0 && c &&& 0xF8C0#16 == 0 && imm == 0)
      (.lfSetup (c.extractLsb' 0 6) (c.extractLsb' 8 3))
  | 0x41 => unlessReserved (a == 0 && b.toNat < 2 && c == 0) (.lfSmb (Dir.ofBit (b.getLsbD 0)) imm)
  | 0x42 => unlessReserved (a == 0 && b.toNat < 2 && c == 0) (.lfSin (Dir.ofBit (b.getLsbD 0)) imm)
  | 0x43 => unlessReserved (a == 0 && b.toNat < 4 && c == 0)
      (.lfNmb (Dir.ofBit (b.getLsbD 0)) (EdgeLength.ofBit (b.getLsbD 1)) imm)
  | 0x44 => unlessReserved (a == 0 && b.toNat < 4 && c == 0)
      (.lfNin (Dir.ofBit (b.getLsbD 0)) (EdgeLength.ofBit (b.getLsbD 1)) imm)
  | _ => .error .illegalOpcode

/-! ### The encoder -/

/-- The word of a command, by the opcode map of R72. It is also the word `W` that a fault of the command
records in `EINFO` (spec/60_exceptions.md R243; log entry 5). -/
def encode : Instr → Command
  | .nop => packFields 0x00 0 0 0 0
  | .sysReset => packFields 0x01 0 0 0 0
  | .sysRdc n => packFields 0x02 0 0 n 0
  | .sysWrc n v => packFields 0x03 0 0 n v
  | .memLdb addr => packFields 0x08 0 0 0 addr
  | .memStb v addr => packFields 0x09 0 0 (v.setWidth 16) addr
  | .memLdc idx => packFields 0x0A 0 0 0 idx
  | .memStc v idx => packFields 0x0B 0 0 v idx
  | .brSetend rid bound => packFields 0x10 rid 0 0 bound
  | .brStart rid start => packFields 0x11 rid 0 0 start
  | .brGetbit rid prob => packFields 0x12 rid 0 (prob.setWidth 16) 0
  | .brBool rid => packFields 0x13 rid 0 0 0
  | .brValue rid n => packFields 0x14 rid 0 (n.setWidth 16) 0
  | .brSigned rid n => packFields 0x15 rid 0 (n.setWidth 16) 0
  | .xfIwht src dst => packFields 0x20 0 0 src dst
  | .xfIdctadd src A => packFields 0x21 0 0 src A
  | .ip4Dc A => packFields 0x30 0 0 0 A
  | .ip4Tm A => packFields 0x30 1 0 0 A
  | .ip4Ve A => packFields 0x30 2 0 0 A
  | .ip4He A => packFields 0x30 3 0 0 A
  | .ip4Ld A => packFields 0x30 4 0 0 A
  | .ip4Rd A => packFields 0x30 5 0 0 A
  | .ip4Vr A => packFields 0x30 6 0 0 A
  | .ip4Vl A => packFields 0x30 7 0 0 A
  | .ip4Hd A => packFields 0x30 8 0 0 A
  | .ip4Hu A => packFields 0x30 9 0 0 A
  | .ip16Dc notop noleft A => packFields 0x31 0 (flagBits notop noleft) 0 A
  | .ip16V A => packFields 0x31 1 0 0 A
  | .ip16H A => packFields 0x31 2 0 0 A
  | .ip16Tm A => packFields 0x31 3 0 0 A
  | .ip8Dc notop noleft A => packFields 0x32 0 (flagBits notop noleft) 0 A
  | .ip8V A => packFields 0x32 1 0 0 A
  | .ip8H A => packFields 0x32 2 0 0 A
  | .ip8Tm A => packFields 0x32 3 0 0 A
  | .lfSetup level sharpness => packFields 0x40 0 0 (0#5 ++ sharpness ++ 0#2 ++ level) 0
  | .lfSmb dir A => packFields 0x41 0 (flagBits dir.toBit false) 0 A
  | .lfSin dir A => packFields 0x42 0 (flagBits dir.toBit false) 0 A
  | .lfNmb dir n A => packFields 0x43 0 (flagBits dir.toBit n.toBit) 0 A
  | .lfNin dir n A => packFields 0x44 0 (flagBits dir.toBit n.toBit) 0 A

/-- The command the decoder reads from the low `nbits` bits of `w`, numbered as spec/opcode_table.json numbers
them: a command is one 64-bit word presented as a number (R70). -/
def decodeTableWord (nbits w : Nat) : Option Instr :=
  match decode (BitVec.ofNat 64 (w % 2 ^ nbits)) with
  | .ok i => some i
  | .error _ => none

end Sys2Proof
end

