-- ==== Sys2Proof/Config.lean ====
section
/-! DEFINITION. What an implementation fixes (the three OPEN sizes of spec/00_scope.md R7) and the free
values: the memory contents that spec/70_reset_and_hazards.md R260 leaves unspecified. -/

namespace Sys2Proof

/-- The OPEN parameters of R7 (spec/92_eei_decisions.md, "OPEN parameters"). A state carries its own
parameters, so that a statement over all states is a statement over all parameter values
(DESIGN CHOICE, log entry 1). -/
structure Params where
  /-- `BS_SIZE`, bytes of bitstream memory. -/
  bsSize : Nat
  /-- `CM_WORDS`, 16-bit elements of coefficient memory. -/
  cmWords : Nat
  /-- `SM_SIZE`, bytes of sample memory. -/
  smSize : Nat
deriving DecidableEq, Repr

/-- The bounds R7 puts on the three parameters. -/
abbrev Params.ok (p : Params) : Prop :=
  (1 ≤ p.bsSize ∧ p.bsSize ≤ 2 ^ 32 - 1) ∧ (400 ≤ p.cmWords ∧ p.cmWords ≤ 65536) ∧
    (832 ≤ p.smSize ∧ p.smSize ≤ 2 ^ 32 - 1)

/-- The parameter values of spec/95_test_vectors.md ("Conventions"). DESIGN CHOICE, log entry 1. -/
def Params.vectors : Params := { bsSize := 65536, cmWords := 512, smSize := 65536 }

/-- FREE VALUE: the byte that BS holds at an address after the hardware reset number `epoch`, until
something writes it (R260: "unspecified after hardware reset"). Log entry 2. -/
opaque Config.powerOnBs (epoch addr : Nat) : Byte

/-- FREE VALUE: the element that CM holds at an index after the hardware reset number `epoch`, until
something writes it (R260). Log entry 2. -/
opaque Config.powerOnCm (epoch idx : Nat) : Half

/-- FREE VALUE: the sample that SM holds at an address after the hardware reset number `epoch`, until
something writes it (R260). Log entry 2. -/
opaque Config.powerOnSm (epoch addr : Nat) : Byte

end Sys2Proof
end

