-- ==== Sys2Proof/Machine/State.lean ====
section
/-! DEFINITION. The state of the block (spec/10_state.md R20 to R28, R35), the model's own host-side fields,
the outcomes that end a run, and the state after hardware reset. -/

namespace Sys2Proof.Machine

/-- One address space: the locations written since hardware reset, each with what it holds, addresses
strictly rising (`Mem.wf`). A location that is not listed has not been written (log entry 2). -/
abbrev Mem (width : Nat) := List (Nat × BitVec width)

/-- A reader context `BR[r]` (R21). The field `end` of the spec is `bound` here. -/
structure Reader where
  /-- Fetched and not yet consumed bits; modulo 2^32 (spec/40_boolreader.md R103). -/
  value : Word
  /-- Width of the coding interval, 128..255 between commands. -/
  range : Byte
  /-- How many fetched bits lie below the window, 0..7 between commands. -/
  bitsLeft : BitVec 4
  /-- BS address of the next byte to fetch. -/
  cursor : Word
  /-- `end`: BS address one past the last byte of the span. -/
  bound : Word
  /-- Set by `BR.START`, cleared by reset. -/
  valid : Bool
deriving DecidableEq, Repr

/-- A reader context after reset (R27, R35). -/
def Reader.reset : Reader :=
  { value := 0, range := 255, bitsLeft := 0, cursor := 0, bound := 0, valid := false }

/-- The register `LFP` (R26): its three fields; its other bits are zero (log entry 17). -/
structure Lfp where
  /-- `LFP[7:0]`; 0 means "do not filter". -/
  limit : BitVec 8
  /-- `LFP[13:8]`, inner_level. -/
  inner : BitVec 6
  /-- `LFP[17:16]`, hev_threshold. -/
  hev : BitVec 2
deriving DecidableEq, Repr

/-- The fault causes of spec/60_exceptions.md R241. -/
inductive Cause where
  /-- Code 1: `op` is not one of the 24 values of the opcode map. -/
  | illegalOpcode
  /-- Code 2: a must-be-zero bit is nonzero, or a field is outside its range. -/
  | reservedField
  /-- Code 3: `SYS.RDC`, `SYS.WRC` of a number or value the register map does not have. -/
  | controlRegister
  /-- Code 4: a decode command on a reader whose `valid` is 0. -/
  | readerInvalid
  /-- Code 5: an address of the command's footprint is outside its space. -/
  | addressRange
deriving DecidableEq, Repr

/-- The response of one command (spec/30_encoding.md R76). -/
inductive Response where
  /-- `status = OK`, with 32 bits of data. -/
  | ok (data : Word)
  /-- `status = ERR`, with the cause of this command's fault. -/
  | err (cause : Cause)
deriving DecidableEq, Repr

/-- What the host may present to the block between commands (log entries 3, 6, 7). -/
inductive HostInput where
  /-- A command word (spec/10_state.md R31: the host presents one command word at a time). -/
  | command (w : Command)
  /-- Bytes written to BS from `addr` on, out of band (spec/20_memory.md R51, spec/44_system_and_memory.md R228). -/
  | writeBs (addr : Nat) (bytes : List Byte)
  /-- The hardware reset input (spec/70_reset_and_hazards.md R260). -/
  | hardReset
deriving DecidableEq, Repr

/-- Why a run stops with a fault. No command of the block does: a fault of the spec is a next state
(`Machine.raise`). -/
inductive Fault where
  /-- Raised by `step` for a host write to BS that reaches an address at or above BS_SIZE, which does not exist
  (spec/20_memory.md R50). SAFE: the run ends where the spec says nothing (log entry 6). -/
  | hostWriteOutsideBs
deriving DecidableEq, Repr

/-- Why an instruction has no meaning. -/
inductive Refusal where
  /-- Raised by an arm of `exec` whose instruction has no meaning yet. SAFE. No arm raises it now. -/
  | notModelled (mnemonic : String)
deriving DecidableEq, Repr

/-- The state of the block (R20) and, at the end, the model's own fields. -/
structure State where
  /-- `BR[0]` .. `BR[8]` (R21). -/
  readers : Vector Reader 9
  /-- `RES` (R23). -/
  res : Word
  /-- `STATUS[0]`, the only defined bit of `STATUS` (R24). -/
  err : Bool
  /-- `CAUSE[7:0]` (R24). -/
  cause : Byte
  /-- `EINFO` (R24). -/
  einfo : Command
  /-- `STRIDE[15:0]` (R25). -/
  stride : Half
  /-- `LFP` (R26). -/
  lfp : Lfp
  /-- BS, bitstream memory (R28). -/
  bs : Mem 8
  /-- CM, coefficient memory, by element (R28). -/
  cm : Mem 16
  /-- SM, sample memory (R28). -/
  sm : Mem 8
  /-- MODEL: the OPEN parameters (spec/00_scope.md R7; log entry 1). -/
  params : Params
  /-- MODEL: how many hardware resets the host has driven (log entry 7). -/
  epoch : Nat
  /-- MODEL: what the host has presented and the block has not yet taken (log entry 3). -/
  inbox : List HostInput
  /-- MODEL: the response port, what the last command answered (R76; log entry 4). -/
  resp : Option Response
deriving DecidableEq, Repr

/-- The block right after hardware reset (R35, R260): every register at its reset value, no location of a
memory written. The parameters are the test vectors' (log entry 1). -/
def State.reset : State :=
  { readers := Vector.replicate 9 Reader.reset
    res := 0
    err := false
    cause := 0
    einfo := 0
    stride := 32
    lfp := { limit := 0, inner := 0, hev := 0 }
    bs := []
    cm := []
    sm := []
    params := Params.vectors
    epoch := 0
    inbox := []
    resp := none }

end Sys2Proof.Machine
end

