-- ==== Sys2Proof/Machine/Ops.lean ====
section
/-! DEFINITION. The named operations: integer arithmetic (spec/00_scope.md R9, R10), memories
(spec/20_memory.md), registers, the response (spec/30_encoding.md R76), taking a fault (spec/60_exceptions.md
R243), reset (spec/70_reset_and_hazards.md R260). -/

namespace Sys2Proof.Machine

/-! ### Integers (R9, R10) -/

/-- `a >> k`: the arithmetic right shift, `floor(a / 2^k)` (R9). -/
def asr (a : Int) (k : Nat) : Int := a / 2 ^ k

/-- `clip255` (R10). -/
def clip255 (v : Int) : Int := if v < 0 then 0 else if v > 255 then 255 else v

/-- `sclamp` (R10). -/
def sclamp (v lo hi : Int) : Int := if v < lo then lo else if v > hi then hi else v

/-- `abs` (R10). -/
def absInt (v : Int) : Int := if v < 0 then -v else v

/-- `AVG2` (R10). -/
def avg2 (a b : Int) : Int := asr (a + b + 1) 1

/-- `AVG3` (R10). -/
def avg3 (a b c : Int) : Int := asr (a + 2 * b + c + 2) 2

/-! ### Memories (R28, R50) -/

/-- The canonical form of a memory: addresses strictly rising. What an unlisted address holds in the list is
"nothing written", which no entry can be, so equal lists are equal sets of writes. -/
abbrev Mem.wf {width : Nat} (m : Mem width) : Prop := m.Pairwise fun x y => x.1 < y.1

/-- Every listed address lies below `size`. -/
abbrev Mem.inside {width : Nat} (m : Mem width) (size : Nat) : Prop := ∀ x ∈ m, x.1 < size

/-- What was last written at `a`, if anything was. -/
def Mem.get? {width : Nat} : Mem width → Nat → Option (BitVec width)
  | [], _ => none
  | (b, v) :: rest, a => if a = b then some v else Mem.get? rest a

/-- Write one location. -/
def Mem.set {width : Nat} : Mem width → Nat → BitVec width → Mem width
  | [], a, v => [(a, v)]
  | (b, u) :: rest, a, v =>
    if a < b then (a, v) :: (b, u) :: rest
    else if a = b then (a, v) :: rest
    else (b, u) :: Mem.set rest a v

/-- Write a list of locations, first to last: the last write of a location wins (R61). -/
def Mem.setAll {width : Nat} (m : Mem width) (writes : List (Nat × BitVec width)) : Mem width :=
  writes.foldl (fun m x => Mem.set m x.1 x.2) m

/-- `BS[a]`: the last byte written, or the unspecified power-on byte (R50, R260; log entry 2). -/
def State.bsByte (s : State) (a : Nat) : Byte := (Mem.get? s.bs a).getD (Config.powerOnBs s.epoch a)

/-- `CM[i]` as it is stored, 16 bits (R28, R260; log entry 2). -/
def State.cmElem (s : State) (i : Nat) : Half := (Mem.get? s.cm i).getD (Config.powerOnCm s.epoch i)

/-- `SM[a]` as it is stored, 8 bits (R50, R260; log entry 2). -/
def State.smByte (s : State) (a : Nat) : Byte := (Mem.get? s.sm a).getD (Config.powerOnSm s.epoch a)

/-- `SM[a]` as a number, at an address computed on mathematical integers (R57). -/
def State.sample (s : State) (a : Int) : Int := ((s.smByte a.toNat).toNat : Int)

/-- `CM[i]` as a signed number (R11). -/
def State.coeff (s : State) (i : Nat) : Int := (s.cmElem i).toInt

/-- Write one sample. -/
def State.setSm (s : State) (a : Nat) (v : Byte) : State := { s with sm := Mem.set s.sm a v }

/-- Write one coefficient element. -/
def State.setCm (s : State) (i : Nat) (v : Half) : State := { s with cm := Mem.set s.cm i v }

/-- Write samples at computed addresses, in order; a sample value is stored in 8 bits (R9, R61). -/
def State.writeSamples (s : State) (writes : List (Int × Int)) : State :=
  { s with sm := Mem.setAll s.sm (writes.map fun x => (x.1.toNat, BitVec.ofInt 8 x.2)) }

/-- Write coefficients at computed indices, in order; `s16` keeps the low 16 bits (R9, R11). -/
def State.writeCoeffs (s : State) (writes : List (Nat × Int)) : State :=
  { s with cm := Mem.setAll s.cm (writes.map fun x => (x.1, BitVec.ofInt 16 x.2)) }

/-- The host writes bytes to BS from `addr` on (spec/20_memory.md R51, spec/44_system_and_memory.md R228). -/
def State.loadBs (s : State) (addr : Nat) (bytes : List Byte) : State :=
  { s with bs := Mem.setAll s.bs (bytes.zipIdx.map fun x => (addr + x.2, x.1)) }

/-- All addresses of a footprint exist in a space of `size` locations; nothing wraps (R57). -/
def inSpace (size : Nat) (footprint : List Int) : Bool := footprint.all fun a => decide (0 ≤ a ∧ a < size)

/-! ### Registers (R21 to R26) -/

/-- Replace reader context `r`. -/
def State.setReader (s : State) (r : Fin 9) (b : Reader) : State := { s with readers := s.readers.set r b }

/-- Reader context `r`. -/
def State.reader (s : State) (r : Fin 9) : Reader := s.readers[r]

def State.setStride (s : State) (v : Half) : State := { s with stride := v }

def State.setLfp (s : State) (v : Lfp) : State := { s with lfp := v }

/-- The context a `rid` field names, if it names one (R72: "rid 0..8"). -/
def readerOf (rid : BitVec 4) : Option (Fin 9) :=
  if h : rid.toNat < 9 then some ⟨rid.toNat, h⟩ else none

/-- `LFP` as SYS.RDC reads it (R26, R27). -/
def Lfp.word (l : Lfp) : Word := 0#14 ++ l.hev ++ 0#2 ++ l.inner ++ l.limit

/-- `LFP` from a written word (R26). -/
def Lfp.ofWord (v : Word) : Lfp :=
  { limit := v.extractLsb' 0 8, inner := v.extractLsb' 8 6, hev := v.extractLsb' 16 2 }

/-! ### Responses (R76) -/

/-- The command ends normally with response data `d` and `RES` unchanged: `resp(none)` is `respond 0`. -/
def State.respond (s : State) (d : Word) : State := { s with resp := some (.ok d) }

/-- A command that returns data: `RES` and the response get the same word (R23). -/
def State.answer (s : State) (v : Word) : State := { s with res := v, resp := some (.ok v) }

/-! ### Taking a fault (R243) -/

/-- The cause codes of R241. -/
def Cause.code : Cause → Byte
  | .illegalOpcode => 1
  | .reservedField => 2
  | .controlRegister => 3
  | .readerInvalid => 4
  | .addressRange => 5

/-- The 32 bits of `data` that a response carries (R76). -/
def Response.data : Response → Word
  | .ok d => d
  | .err c => c.code.setWidth 32

/-- `raise F(W)` (R243): the first fault since reset is recorded, a later one is not (R244); the response is
`ERR` with this fault's own cause; nothing else changes. -/
def raise (c : Cause) (w : Command) (s : State) : State :=
  if s.err then { s with resp := some (.err c) }
  else { s with err := true, cause := c.code, einfo := w, resp := some (.err c) }

/-- `raise` as the end of a command. -/
def raised (c : Cause) (w : Command) (s : State) : Host.Outcome State Fault Refusal := .next (raise c w s)

/-- The cause of a word that does not decode (R75). -/
def decodeCause : DecodeError → Cause
  | .illegalOpcode => .illegalOpcode
  | .reservedField => .reservedField

/-! ### Reset (R35, R260) -/

/-- Every register takes its reset value; the memories keep their contents (R221). -/
def State.resetRegisters (s : State) : State :=
  { s with
    readers := Vector.replicate 9 Reader.reset
    res := 0
    err := false
    cause := 0
    einfo := 0
    stride := 32
    lfp := { limit := 0, inner := 0, hev := 0 } }

/-- The hardware reset input: registers as after `SYS.RESET`, the contents of the memories unspecified, a new
set of free values (R260; log entry 7). No command has answered since. -/
def State.hardReset (s : State) : State :=
  { s.resetRegisters with bs := [], cm := [], sm := [], epoch := s.epoch + 1, resp := none }

end Sys2Proof.Machine
end

