-- ==== Sys2Proof/Machine/BoolReader.lean ====
section
/-! DEFINITION. BR unit, the boolean decoder (spec/40_boolreader.md R100 to R111). A reader reads BS through
the function `bs` from address to byte. -/

namespace Sys2Proof.Machine

/-! ### The decode step (R103 to R107) -/

/-- `split = 1 + (((range − 1) × prob) >> 8)` (R104). -/
def split (range prob : Nat) : Nat := 1 + ((range - 1) * prob) / 2 ^ 8

/-- The window `win = value >> bits_left` (R103). -/
def Reader.window (r : Reader) : Nat := r.value.toNat / 2 ^ r.bitsLeft.toNat

/-- The byte a fetch delivers: the next byte of the span, or 0 past its end (R107). -/
def Reader.fetchByte (bs : Nat → Byte) (r : Reader) : Byte :=
  if r.cursor.toNat < r.bound.toNat then bs r.cursor.toNat else 0

/-- The cursor after a fetch: it stops at the end of the span (R107). -/
def Reader.fetchCursor (r : Reader) : Word :=
  if r.cursor.toNat < r.bound.toNat then r.cursor + 1 else r.cursor

/-- The fetch inside renormalization: `value <- u32((value << 8) | Fetch(r))`, `bits_left <- 8` (R106). -/
def Reader.refill (bs : Nat → Byte) (r : Reader) : Reader :=
  { r with
    value := (r.value <<< 8) ||| (r.fetchByte bs).setWidth 32
    bitsLeft := 8
    cursor := r.fetchCursor }

/-- One turn of the renormalization loop, for `range < 128` (R106). -/
def Reader.renormTurn (bs : Nat → Byte) (r : Reader) : Reader :=
  let r := if r.bitsLeft = 0 then r.refill bs else r
  { r with bitsLeft := r.bitsLeft - 1, range := r.range <<< 1 }

/-- At most `k` turns of the loop "while range < 128" (R106). -/
def Reader.renormTurns (bs : Nat → Byte) : Nat → Reader → Reader
  | 0, r => r
  | k + 1, r => if r.range.toNat < 128 then Reader.renormTurns bs k (r.renormTurn bs) else r

/-- `Renormalize(r)`: "The loop runs 0 to 7 times per decode" (R106); from a `range` of 1..255 seven turns
end it (log entry 9). -/
def Reader.renormalize (bs : Nat → Byte) (r : Reader) : Reader := r.renormTurns bs 7

/-- The decoded bit: 1 where the window is not below `split` (R105). -/
def Reader.bit (prob : Nat) (r : Reader) : Bool := decide (split r.range.toNat prob ≤ r.window)

/-- The reader after the branch, before renormalization (R105). -/
def Reader.branch (prob : Nat) (r : Reader) : Reader :=
  if r.bit prob then
    { r with
      range := BitVec.ofNat 8 (r.range.toNat - split r.range.toNat prob)
      value := r.value - (BitVec.ofNat 32 (split r.range.toNat prob) <<< r.bitsLeft.toNat) }
  else { r with range := BitVec.ofNat 8 (split r.range.toNat prob) }

/-- The reader after `GetBit(r, prob)` (R105). -/
def Reader.afterBit (bs : Nat → Byte) (prob : Nat) (r : Reader) : Reader := (r.branch prob).renormalize bs

/-- `n` successive `GetBit(r, 128)`, the first bit the most significant: `acc <- (acc << 1) | bit` (R110).
Answers the number and the reader after it. -/
def Reader.readBits (bs : Nat → Byte) : Nat → Nat → Reader → Nat × Reader
  | 0, acc, r => (acc, r)
  | n + 1, acc, r => Reader.readBits bs n (2 * acc + (r.bit 128).toNat) (r.afterBit bs 128)

/-- `read_signed`: the magnitude, then the sign bit; 1 negates (R111). -/
def Reader.readSigned (bs : Nat → Byte) (n : Nat) (r : Reader) : Int × Reader :=
  let m := r.readBits bs n 0
  (if m.2.bit 128 then -(m.1 : Int) else (m.1 : Int), m.2.afterBit bs 128)

/-- `BR.START`: `cursor`, `range = 255`, `bits_left = 0`, the first byte into `value`, `valid = 1` (R102). -/
def Reader.start (bs : Nat → Byte) (start : Word) (r : Reader) : Reader :=
  let r := { r with cursor := start }
  { r with value := (r.fetchByte bs).setWidth 32, range := 255, bitsLeft := 0, cursor := r.fetchCursor, valid := true }

/-! ### The commands -/

/-- Common to the two commands that open a reader: ReservedField for `rid` 9..15, AddressRange for a bound above
BS_SIZE, else the context is replaced (R101, R102). -/
def openReader (rid : BitVec 4) (addr : Word) (w : Command) (f : Reader → Reader) (s : State) :
    Host.Outcome State Fault Refusal :=
  match readerOf rid with
  | none => raised .reservedField w s
  | some r =>
    if addr.toNat ≤ s.params.bsSize then .next ((s.setReader r (f (s.reader r))).respond 0)
    else raised .addressRange w s

/-- Common to the four decode commands: ReservedField for `rid` 9..15 or an operand out of range, ReaderInvalid
for a context never started, else the context is replaced and the result answered (R108 to R111). -/
def decodeWith (rid : BitVec 4) (operandOk : Bool) (w : Command) (f : Reader → Word × Reader) (s : State) :
    Host.Outcome State Fault Refusal :=
  match readerOf rid with
  | none => raised .reservedField w s
  | some r =>
    if operandOk then
      if (s.reader r).valid then .next ((s.setReader r (f (s.reader r)).2).answer (f (s.reader r)).1)
      else raised .readerInvalid w s
    else raised .reservedField w s

/-- `BR.SETEND rid, end` (R101): `valid` and the other fields stay. -/
def execBrSetend (rid : BitVec 4) (bound : Word) (s : State) : Host.Outcome State Fault Refusal :=
  openReader rid bound (encode (.brSetend rid bound)) (fun r => { r with bound := bound }) s

/-- `BR.START rid, start` (R102). -/
def execBrStart (rid : BitVec 4) (start : Word) (s : State) : Host.Outcome State Fault Refusal :=
  openReader rid start (encode (.brStart rid start)) (Reader.start s.bsByte start) s

/-- `BR.GETBIT rid, prob` (R108). -/
def execBrGetbit (rid : BitVec 4) (prob : Byte) (s : State) : Host.Outcome State Fault Refusal :=
  decodeWith rid true (encode (.brGetbit rid prob))
    (fun r => ((BitVec.ofBool (r.bit prob.toNat)).setWidth 32, r.afterBit s.bsByte prob.toNat)) s

/-- `BR.BOOL rid`: `get_bit(128)` (R109). -/
def execBrBool (rid : BitVec 4) (s : State) : Host.Outcome State Fault Refusal :=
  decodeWith rid true (encode (.brBool rid))
    (fun r => ((BitVec.ofBool (r.bit 128)).setWidth 32, r.afterBit s.bsByte 128)) s

/-- `BR.VALUE rid, n` (R110). -/
def execBrValue (rid : BitVec 4) (n : BitVec 5) (s : State) : Host.Outcome State Fault Refusal :=
  decodeWith rid (countOk n) (encode (.brValue rid n))
    (fun r => (BitVec.ofNat 32 (r.readBits s.bsByte n.toNat 0).1, (r.readBits s.bsByte n.toNat 0).2)) s

/-- `BR.SIGNED rid, n`: two's complement in 32 bits (R111). -/
def execBrSigned (rid : BitVec 4) (n : BitVec 5) (s : State) : Host.Outcome State Fault Refusal :=
  decodeWith rid (countOk n) (encode (.brSigned rid n))
    (fun r => (BitVec.ofInt 32 (r.readSigned s.bsByte n.toNat).1, (r.readSigned s.bsByte n.toNat).2)) s

end Sys2Proof.Machine
end

