-- ==== Sys2Proof/Machine/HostMemory.lean ====
section
/-! DEFINITION. FE unit: host access to SM and CM, `MEM.LDB`, `MEM.STB`, `MEM.LDC`, `MEM.STC`
(spec/44_system_and_memory.md R224 to R227). -/

namespace Sys2Proof.Machine

/-- `MEM.LDB addr`: the sample, zero-extended (R224). -/
def execMemLdb (addr : Word) (s : State) : Host.Outcome State Fault Refusal :=
  if addr.toNat < s.params.smSize then .next (s.answer ((s.smByte addr.toNat).setWidth 32))
  else raised .addressRange (encode (.memLdb addr)) s

/-- `MEM.STB addr, v` (R225). -/
def execMemStb (v : Byte) (addr : Word) (s : State) : Host.Outcome State Fault Refusal :=
  if addr.toNat < s.params.smSize then .next ((s.setSm addr.toNat v).respond 0)
  else raised .addressRange (encode (.memStb v addr)) s

/-- `MEM.LDC idx`: the element, sign-extended to 32 bits (R226). -/
def execMemLdc (idx : Word) (s : State) : Host.Outcome State Fault Refusal :=
  if idx.toNat < s.params.cmWords then .next (s.answer ((s.cmElem idx.toNat).signExtend 32))
  else raised .addressRange (encode (.memLdc idx)) s

/-- `MEM.STC idx, v`: stores the 16 bits of `c`, read as two's complement (R227). -/
def execMemStc (v : Half) (idx : Word) (s : State) : Host.Outcome State Fault Refusal :=
  if idx.toNat < s.params.cmWords then .next ((s.setCm idx.toNat v).respond 0)
  else raised .addressRange (encode (.memStc v idx)) s

end Sys2Proof.Machine
end

