-- ==== Sys2Proof/Machine/Operands.lean ====
section
/-! DEFINITION. Operand forms: the effective addresses and footprints of the block, edge and transform commands
(spec/44_system_and_memory.md R232, spec/00_scope.md R12, spec/41_intra_prediction.md R131, R132,
spec/42_inverse_transforms.md R172, R176, spec/43_loop_filter.md R193, R194). All sums are on mathematical
integers; nothing wraps (spec/20_memory.md R57). -/

namespace Sys2Proof.Machine

/-- The row pitch `S = C[STRIDE]` (R12). -/
def State.pitch (s : State) : Int := (s.stride.toNat : Int)

/-- An address operand, used as the unsigned number it is (spec/30_encoding.md R71). -/
def addrOf (A : Word) : Int := (A.toNat : Int)

/-- The address of sample (`x`, `y`) of the block at `A`: `A + y×S + x` (R12). -/
def blockAddr (A S : Int) (x y : Nat) : Int := A + y * S + x

/-- The positions of an `n`×`n` block in raster order: row `y` outer, column `x` inner (R61). -/
def raster (n : Nat) : List (Nat × Nat) :=
  (List.range n).flatMap fun y => (List.range n).map fun x => (x, y)

/-! ### Intra prediction context (R131) and footprint (R132) -/

/-- `X`, the top-left corner sample. -/
def State.corner (s : State) (A : Int) : Int := s.sample (A - s.pitch - 1)

/-- `T[x]`, the top row; for 4×4 blocks `x = 4..7` is the top-right row. -/
def State.top (s : State) (A : Int) (x : Nat) : Int := s.sample (A - s.pitch + x)

/-- `L[y]`, the left column. -/
def State.left (s : State) (A : Int) (y : Nat) : Int := s.sample (A + y * s.pitch - 1)

/-- The footprint of an IP command: the context row `A − S − 1 .. A − S + W` and, per row `y`,
`A + y×S − 1 .. A + y×S + N − 1` (R132). It is the same for every mode of a family. -/
def ipFootprint (n w : Nat) (A S : Int) : List Int :=
  (List.range (w + 2)).map (fun k => A - S - 1 + k) ++
    (List.range n).flatMap fun y => (List.range (n + 1)).map fun k => A + y * S - 1 + k

/-! ### Transform operands (R172, R176) -/

/-- The 16 consecutive coefficients from `src` on. -/
def State.coeffs (s : State) (src k : Nat) : Int := s.coeff (src + k)

/-! ### Edge geometry (R193) -/

/-- The tap step `ts`. -/
def tapStep (dir : Dir) (S : Int) : Int :=
  match dir with
  | .vertical => S
  | .horizontal => 1

/-- The walk step `ws`. -/
def walkStep (dir : Dir) (S : Int) : Int :=
  match dir with
  | .vertical => 1
  | .horizontal => S

/-- The number of positions of a normal-filter edge (R74). -/
def edgePositions : EdgeLength → Nat
  | .sixteen => 16
  | .eight => 8

/-- The base address `P = A + i×ws` of position `i`. -/
def edgeBase (dir : Dir) (A S : Int) (i : Nat) : Int := A + i * walkStep dir S

/-- The address of tap `j` at base `P`: `q0` is tap 0, `q1` tap 1, ..., `p0` tap −1, ..., `p3` tap −4. -/
def tapAddr (dir : Dir) (P S j : Int) : Int := P + j * tapStep dir S

/-- The range check of R194: from the first tap of position 0 to the last tap of position `n − 1`. -/
def edgeInSpace (reach n : Nat) (dir : Dir) (A S : Int) (size : Nat) : Bool :=
  decide (0 ≤ A - reach * tapStep dir S ∧
    A + ((n : Int) - 1) * walkStep dir S + ((reach : Int) - 1) * tapStep dir S < size)

end Sys2Proof.Machine
end

