-- ==== Sys2Proof/Machine/Intra.lean ====
section
/-! DEFINITION. IP unit, the intra prediction engines (spec/41_intra_prediction.md R130 to R153). The TM formula
is the source's own; the other predictors are the spec's text, which it marks as general knowledge: PRESUMED,
log entry 8 (G3, G4). -/

namespace Sys2Proof.Machine

/-- A predictor: `P[x,y]` from the corner `X`, the top row `T` (with the top-right row for 4×4 blocks) and the
left column `L` (R131). -/
abbrev Predictor := (X : Int) → (T L : Nat → Int) → (x y : Nat) → Int

/-- An IP command: the footprint check, then all reads, then the block written in raster order (R132). -/
def predictBlock (n w : Nat) (p : Predictor) (A : Int) (word : Command) (s : State) :
    Host.Outcome State Fault Refusal :=
  if inSpace s.params.smSize (ipFootprint n w A s.pitch) then
    .next ((s.writeSamples ((raster n).map fun q =>
      (blockAddr A s.pitch q.1 q.2, p (s.corner A) (s.top A) (s.left A) q.1 q.2))).respond 0)
  else raised .addressRange word s

/-- A 4×4 block written out row by row: the sample at column `x`, row `y`. -/
def grid (rows : List (List Int)) (x y : Nat) : Int := (rows.getD y []).getD x 0

/-- The sum of the first `n` samples of a row or column. -/
def sumOf (n : Nat) (f : Nat → Int) : Int := ((List.range n).map f).sum

/-! ### Modes of all three sizes -/

/-- TM: `clip255(T[x] + L[y] − X)` (R136, R149, R153). -/
def predTm : Predictor := fun X T L x y => clip255 (T x + L y - X)

/-- V of 16×16 and 8×8: each row a copy of the top row (R147, R151). -/
def predV : Predictor := fun _ T _ x _ => T x

/-- H of 16×16 and 8×8: each column a copy of the left column (R148, R152). -/
def predH : Predictor := fun _ _ L _ y => L y

/-- DC of an `N`×`N` block, `N = 2^k`, with the edge variants of R146 (`k = 4`) and R150 (`k = 3`); log entry 14. -/
def predDc (k : Nat) (notop noleft : Bool) : Predictor := fun _ T L _ _ =>
  let n := 2 ^ k
  match notop, noleft with
  | false, false => asr (sumOf n T + sumOf n L + n) (k + 1)
  | true, false => asr (sumOf n L + n / 2) k
  | false, true => asr (sumOf n T + n / 2) k
  | true, true => 128

/-! ### The 4×4 modes (R135 to R144): `A..H` are `T 0 .. T 7`, `I..L` are `L 0 .. L 3` -/

/-- DC of 4×4 blocks, no edge variant (R135). -/
def predDc4 : Predictor := fun _ T L _ _ =>
  asr (T 0 + T 1 + T 2 + T 3 + L 0 + L 1 + L 2 + L 3 + 4) 3

/-- VE (R137): every row the same. -/
def predVe4 : Predictor := fun X T _ x _ =>
  [avg3 X (T 0) (T 1), avg3 (T 0) (T 1) (T 2), avg3 (T 1) (T 2) (T 3), avg3 (T 2) (T 3) (T 4)].getD x 0

/-- HE (R138): every column the same. -/
def predHe4 : Predictor := fun X _ L _ y =>
  [avg3 X (L 0) (L 1), avg3 (L 0) (L 1) (L 2), avg3 (L 1) (L 2) (L 3), avg3 (L 2) (L 3) (L 3)].getD y 0

/-- LD (R139): by the diagonal `d = x + y`. -/
def predLd4 : Predictor := fun _ T _ x y =>
  [avg3 (T 0) (T 1) (T 2), avg3 (T 1) (T 2) (T 3), avg3 (T 2) (T 3) (T 4), avg3 (T 3) (T 4) (T 5),
    avg3 (T 4) (T 5) (T 6), avg3 (T 5) (T 6) (T 7), avg3 (T 6) (T 7) (T 7)].getD (x + y) 0

/-- RD (R140): by `e = x − y`, listed from `e = −3` to `e = 3`. -/
def predRd4 : Predictor := fun X T L x y =>
  [avg3 (L 1) (L 2) (L 3), avg3 (L 0) (L 1) (L 2), avg3 X (L 0) (L 1), avg3 (T 0) X (L 0),
    avg3 (T 1) (T 0) X, avg3 (T 2) (T 1) (T 0), avg3 (T 3) (T 2) (T 1)].getD (x + 3 - y) 0

/-- VR (R141). -/
def predVr4 : Predictor := fun X T L x y =>
  let xa := avg2 X (T 0)
  let ab := avg2 (T 0) (T 1)
  let bc := avg2 (T 1) (T 2)
  let cd := avg2 (T 2) (T 3)
  let kji := avg3 (L 2) (L 1) (L 0)
  let jix := avg3 (L 1) (L 0) X
  let ixa := avg3 (L 0) X (T 0)
  let xab := avg3 X (T 0) (T 1)
  let abc := avg3 (T 0) (T 1) (T 2)
  let bcd := avg3 (T 1) (T 2) (T 3)
  grid [[xa, ab, bc, cd], [ixa, xab, abc, bcd], [jix, xa, ab, bc], [kji, ixa, xab, abc]] x y

/-- VL (R142). -/
def predVl4 : Predictor := fun _ T _ x y =>
  let ab := avg2 (T 0) (T 1)
  let bc := avg2 (T 1) (T 2)
  let cd := avg2 (T 2) (T 3)
  let de := avg2 (T 3) (T 4)
  let abc := avg3 (T 0) (T 1) (T 2)
  let bcd := avg3 (T 1) (T 2) (T 3)
  let cde := avg3 (T 2) (T 3) (T 4)
  let def' := avg3 (T 3) (T 4) (T 5)
  let efg := avg3 (T 4) (T 5) (T 6)
  let fgh := avg3 (T 5) (T 6) (T 7)
  grid [[ab, bc, cd, de], [abc, bcd, cde, def'], [bc, cd, de, efg], [bcd, cde, def', fgh]] x y

/-- HD (R143). -/
def predHd4 : Predictor := fun X T L x y =>
  let ix := avg2 (L 0) X
  let ji := avg2 (L 1) (L 0)
  let kj := avg2 (L 2) (L 1)
  let lk := avg2 (L 3) (L 2)
  let abc := avg3 (T 0) (T 1) (T 2)
  let xab := avg3 X (T 0) (T 1)
  let ixa := avg3 (L 0) X (T 0)
  let jix := avg3 (L 1) (L 0) X
  let kji := avg3 (L 2) (L 1) (L 0)
  let lkj := avg3 (L 3) (L 2) (L 1)
  grid [[ix, ixa, xab, abc], [ji, jix, ix, ixa], [kj, kji, ji, jix], [lk, lkj, kj, kji]] x y

/-- HU (R144). -/
def predHu4 : Predictor := fun _ _ L x y =>
  let ij := avg2 (L 0) (L 1)
  let jk := avg2 (L 1) (L 2)
  let kl := avg2 (L 2) (L 3)
  let ijk := avg3 (L 0) (L 1) (L 2)
  let jkl := avg3 (L 1) (L 2) (L 3)
  let kll := avg3 (L 2) (L 3) (L 3)
  let l := L 3
  grid [[ij, ijk, jk, jkl], [jk, jkl, kl, kll], [kl, kll, l, l], [l, l, l, l]] x y

/-! ### The commands -/

/-- `IP4.DC A` (R135). -/
def execIp4Dc (A : Word) (s : State) : Host.Outcome State Fault Refusal :=
  predictBlock 4 7 predDc4 (addrOf A) (encode (.ip4Dc A)) s

/-- `IP4.TM A` (R136). -/
def execIp4Tm (A : Word) (s : State) : Host.Outcome State Fault Refusal :=
  predictBlock 4 7 predTm (addrOf A) (encode (.ip4Tm A)) s

/-- `IP4.VE A` (R137). -/
def execIp4Ve (A : Word) (s : State) : Host.Outcome State Fault Refusal :=
  predictBlock 4 7 predVe4 (addrOf A) (encode (.ip4Ve A)) s

/-- `IP4.HE A` (R138). -/
def execIp4He (A : Word) (s : State) : Host.Outcome State Fault Refusal :=
  predictBlock 4 7 predHe4 (addrOf A) (encode (.ip4He A)) s

/-- `IP4.LD A` (R139). -/
def execIp4Ld (A : Word) (s : State) : Host.Outcome State Fault Refusal :=
  predictBlock 4 7 predLd4 (addrOf A) (encode (.ip4Ld A)) s

/-- `IP4.RD A` (R140). -/
def execIp4Rd (A : Word) (s : State) : Host.Outcome State Fault Refusal :=
  predictBlock 4 7 predRd4 (addrOf A) (encode (.ip4Rd A)) s

/-- `IP4.VR A` (R141). -/
def execIp4Vr (A : Word) (s : State) : Host.Outcome State Fault Refusal :=
  predictBlock 4 7 predVr4 (addrOf A) (encode (.ip4Vr A)) s

/-- `IP4.VL A` (R142). -/
def execIp4Vl (A : Word) (s : State) : Host.Outcome State Fault Refusal :=
  predictBlock 4 7 predVl4 (addrOf A) (encode (.ip4Vl A)) s

/-- `IP4.HD A` (R143). -/
def execIp4Hd (A : Word) (s : State) : Host.Outcome State Fault Refusal :=
  predictBlock 4 7 predHd4 (addrOf A) (encode (.ip4Hd A)) s

/-- `IP4.HU A` (R144). -/
def execIp4Hu (A : Word) (s : State) : Host.Outcome State Fault Refusal :=
  predictBlock 4 7 predHu4 (addrOf A) (encode (.ip4Hu A)) s

/-- `IP16.DC A` with the flags `notop`, `noleft` (R146). -/
def execIp16Dc (notop noleft : Bool) (A : Word) (s : State) : Host.Outcome State Fault Refusal :=
  predictBlock 16 15 (predDc 4 notop noleft) (addrOf A) (encode (.ip16Dc notop noleft A)) s

/-- `IP16.V A` (R147). -/
def execIp16V (A : Word) (s : State) : Host.Outcome State Fault Refusal :=
  predictBlock 16 15 predV (addrOf A) (encode (.ip16V A)) s

/-- `IP16.H A` (R148). -/
def execIp16H (A : Word) (s : State) : Host.Outcome State Fault Refusal :=
  predictBlock 16 15 predH (addrOf A) (encode (.ip16H A)) s

/-- `IP16.TM A` (R149). -/
def execIp16Tm (A : Word) (s : State) : Host.Outcome State Fault Refusal :=
  predictBlock 16 15 predTm (addrOf A) (encode (.ip16Tm A)) s

/-- `IP8.DC A` with the flags `notop`, `noleft` (R150). -/
def execIp8Dc (notop noleft : Bool) (A : Word) (s : State) : Host.Outcome State Fault Refusal :=
  predictBlock 8 7 (predDc 3 notop noleft) (addrOf A) (encode (.ip8Dc notop noleft A)) s

/-- `IP8.V A` (R151). -/
def execIp8V (A : Word) (s : State) : Host.Outcome State Fault Refusal :=
  predictBlock 8 7 predV (addrOf A) (encode (.ip8V A)) s

/-- `IP8.H A` (R152). -/
def execIp8H (A : Word) (s : State) : Host.Outcome State Fault Refusal :=
  predictBlock 8 7 predH (addrOf A) (encode (.ip8H A)) s

/-- `IP8.TM A` (R153). -/
def execIp8Tm (A : Word) (s : State) : Host.Outcome State Fault Refusal :=
  predictBlock 8 7 predTm (addrOf A) (encode (.ip8Tm A)) s

end Sys2Proof.Machine
end

