-- ==== Sys2Proof/Machine/LoopFilter.lean ====
section
/-! DEFINITION. LF unit, the in-loop filter (spec/43_loop_filter.md R190 to R204). The tests, kernels and the
derivation of `LFP` are the spec's text, which it marks as general knowledge: PRESUMED, log entry 8 (G5 to G8). -/

namespace Sys2Proof.Machine

/-! ### LF.SETUP (R191) -/

/-- The interior level of R191 for a nonzero `level`. -/
def interiorLevel (level sharpness : Nat) : Nat :=
  let shifted := if sharpness > 0 then level / 2 ^ (if sharpness > 4 then 2 else 1) else level
  let capped := if sharpness > 0 ∧ shifted > 9 - sharpness then 9 - sharpness else shifted
  if capped < 1 then 1 else capped

/-- The high-edge-variance threshold of R191. -/
def hevLevel (level : Nat) : Nat := if level ≥ 40 then 2 else if level ≥ 15 then 1 else 0

/-- `LFP` from a level and a sharpness (R191). -/
def Lfp.setup (level sharpness : Nat) : Lfp :=
  if level = 0 then { limit := 0, inner := 0, hev := 0 }
  else
    { limit := BitVec.ofNat 8 (2 * level + interiorLevel level sharpness)
      inner := BitVec.ofNat 6 (interiorLevel level sharpness)
      hev := BitVec.ofNat 2 (hevLevel level) }

/-! ### Tests (R195, R196), on the taps `p3 p2 p1 p0 | q0 q1 q2 q3` -/

/-- `simple_ok(E)` (R195). -/
def simpleOk (E p1 p0 q0 q1 : Int) : Bool := decide (2 * absInt (p0 - q0) + asr (absInt (p1 - q1)) 1 ≤ E)

/-- `normal_ok(E, I)` (R195). -/
def normalOk (E I p3 p2 p1 p0 q0 q1 q2 q3 : Int) : Bool :=
  simpleOk E p1 p0 q0 q1 &&
    decide (absInt (p3 - p2) ≤ I ∧ absInt (p2 - p1) ≤ I ∧ absInt (p1 - p0) ≤ I ∧
      absInt (q3 - q2) ≤ I ∧ absInt (q2 - q1) ≤ I ∧ absInt (q1 - q0) ≤ I)

/-- `hev(H)` (R196). -/
def highEdgeVariance (H p1 p0 q0 q1 : Int) : Bool := decide (absInt (p1 - p0) > H ∨ absInt (q1 - q0) > H)

/-! ### Kernels (R197 to R199): the taps written, each with its new value -/

/-- `filt2` (R197): writes `p0` and `q0`. -/
def filt2 (p1 p0 q0 q1 : Int) : List (Int × Int) :=
  let a := 3 * (q0 - p0) + sclamp (p1 - q1) (-128) 127
  let a1 := sclamp (asr (a + 4) 3) (-16) 15
  let a2 := sclamp (asr (a + 3) 3) (-16) 15
  [(-1, clip255 (p0 + a2)), (0, clip255 (q0 - a1))]

/-- `filt4` (R198): writes `p1, p0, q0, q1`. -/
def filt4 (p1 p0 q0 q1 : Int) : List (Int × Int) :=
  let a := 3 * (q0 - p0)
  let a1 := sclamp (asr (a + 4) 3) (-16) 15
  let a2 := sclamp (asr (a + 3) 3) (-16) 15
  let a3 := asr (a1 + 1) 1
  [(-2, clip255 (p1 + a3)), (-1, clip255 (p0 + a2)), (0, clip255 (q0 - a1)), (1, clip255 (q1 - a3))]

/-- `filt6` (R199): writes `p2, p1, p0, q0, q1, q2`. -/
def filt6 (p2 p1 p0 q0 q1 q2 : Int) : List (Int × Int) :=
  let a := sclamp (3 * (q0 - p0) + sclamp (p1 - q1) (-128) 127) (-128) 127
  let a1 := asr (27 * a + 63) 7
  let a2 := asr (18 * a + 63) 7
  let a3 := asr (9 * a + 63) 7
  [(-3, clip255 (p2 + a3)), (-2, clip255 (p1 + a2)), (-1, clip255 (p0 + a1)),
    (0, clip255 (q0 - a1)), (1, clip255 (q1 - a2)), (2, clip255 (q2 - a3))]

/-! ### One position of an edge: what it writes, given its taps (R201 to R204) -/

/-- What an edge command does at one position: from the taps (`tap 0` is `q0`, `tap (−1)` is `p0`) to the taps
written; none where the test fails. -/
abbrev LineFilter := (tap : Int → Int) → List (Int × Int)

/-- The simple filter with edge limit `E` (R201, R202). -/
def simpleLine (E : Int) : LineFilter := fun tap =>
  if simpleOk E (tap (-2)) (tap (-1)) (tap 0) (tap 1) then filt2 (tap (-2)) (tap (-1)) (tap 0) (tap 1) else []

/-- `normal_ok(E, I)` of a position's eight taps. -/
def normalOkTaps (E I : Int) (tap : Int → Int) : Bool :=
  normalOk E I (tap (-4)) (tap (-3)) (tap (-2)) (tap (-1)) (tap 0) (tap 1) (tap 2) (tap 3)

/-- The normal filter on a macroblock edge (R203). -/
def normalMbLine (E I H : Int) : LineFilter := fun tap =>
  if normalOkTaps E I tap then
    if highEdgeVariance H (tap (-2)) (tap (-1)) (tap 0) (tap 1) then filt2 (tap (-2)) (tap (-1)) (tap 0) (tap 1)
    else filt6 (tap (-3)) (tap (-2)) (tap (-1)) (tap 0) (tap 1) (tap 2)
  else []

/-- The normal filter on an inner edge (R204). -/
def normalInnerLine (E I H : Int) : LineFilter := fun tap =>
  if normalOkTaps E I tap then
    if highEdgeVariance H (tap (-2)) (tap (-1)) (tap 0) (tap 1) then filt2 (tap (-2)) (tap (-1)) (tap 0) (tap 1)
    else filt4 (tap (-2)) (tap (-1)) (tap 0) (tap 1)
  else []

/-! ### An edge (R193, R194) -/

/-- Position `i`: its taps are read completely, then written (spec/20_memory.md R61). -/
def State.filterPosition (s : State) (line : LineFilter) (dir : Dir) (A : Int) (i : Nat) : State :=
  s.writeSamples ((line fun j => s.sample (tapAddr dir (edgeBase dir A s.pitch i) s.pitch j)).map fun x =>
    (tapAddr dir (edgeBase dir A s.pitch i) s.pitch x.1, x.2))

/-- The first `n` positions in ascending order; a later one sees the writes of an earlier one (R193, R61). -/
def State.filterPositions (s : State) (line : LineFilter) (dir : Dir) (A : Int) (n : Nat) : State :=
  (List.range n).foldl (fun t i => t.filterPosition line dir A i) s

/-- An edge command (R194): the range check, then nothing where `LFP.limit` is 0, else the `n` positions. -/
def filterEdge (reach n : Nat) (line : LineFilter) (dir : Dir) (A : Int) (w : Command) (s : State) :
    Host.Outcome State Fault Refusal :=
  if edgeInSpace reach n dir A s.pitch s.params.smSize then
    if s.lfp.limit = 0 then .next (s.respond 0)
    else .next ((s.filterPositions line dir A n).respond 0)
  else raised .addressRange w s

/-- `LFP.limit`, the edge limit of the inner-edge commands (R190). -/
def Lfp.innerLimit (l : Lfp) : Int := (l.limit.toNat : Int)

/-- `LFP.limit + 4`, the edge limit of the macroblock-edge commands (R190). -/
def Lfp.mbLimit (l : Lfp) : Int := (l.limit.toNat : Int) + 4

/-- `I`, the interior limit (R190). -/
def Lfp.interior (l : Lfp) : Int := (l.inner.toNat : Int)

/-- `H`, the high-edge-variance threshold (R190). -/
def Lfp.hevThreshold (l : Lfp) : Int := (l.hev.toNat : Int)

/-! ### The commands -/

/-- `LF.SETUP level, sharpness` (R191). -/
def execLfSetup (level : BitVec 6) (sharpness : BitVec 3) (s : State) : Host.Outcome State Fault Refusal :=
  .next ((s.setLfp (Lfp.setup level.toNat sharpness.toNat)).respond 0)

/-- `LF.SMB dir, A`: simple filter, macroblock edge (R201). -/
def execLfSmb (dir : Dir) (A : Word) (s : State) : Host.Outcome State Fault Refusal :=
  filterEdge 2 16 (simpleLine s.lfp.mbLimit) dir (addrOf A) (encode (.lfSmb dir A)) s

/-- `LF.SIN dir, A`: simple filter, inner edge (R202). -/
def execLfSin (dir : Dir) (A : Word) (s : State) : Host.Outcome State Fault Refusal :=
  filterEdge 2 16 (simpleLine s.lfp.innerLimit) dir (addrOf A) (encode (.lfSin dir A)) s

/-- `LF.NMB dir, n, A`: normal filter, macroblock edge (R203). -/
def execLfNmb (dir : Dir) (n : EdgeLength) (A : Word) (s : State) : Host.Outcome State Fault Refusal :=
  filterEdge 4 (edgePositions n) (normalMbLine s.lfp.mbLimit s.lfp.interior s.lfp.hevThreshold) dir (addrOf A)
    (encode (.lfNmb dir n A)) s

/-- `LF.NIN dir, n, A`: normal filter, inner edge (R204). -/
def execLfNin (dir : Dir) (n : EdgeLength) (A : Word) (s : State) : Host.Outcome State Fault Refusal :=
  filterEdge 4 (edgePositions n) (normalInnerLine s.lfp.innerLimit s.lfp.interior s.lfp.hevThreshold) dir (addrOf A)
    (encode (.lfNin dir n A)) s

end Sys2Proof.Machine
end

