-- ==== Sys2Proof/Machine/Flags.lean ====
section
/-! DEFINITION. Status bits. The block has no flags and no condition codes (spec/10_state.md R32); the only
status bit is `STATUS.err` (R24), which `Machine.raise` sets and reset clears. -/

namespace Sys2Proof.Machine

/-- `STATUS` as a register: bit 0 is `err`, bits 31:1 read 0 (R24, R27). -/
def State.statusWord (s : State) : Word := (BitVec.ofBool s.err).setWidth 32

/-- `CAUSE` as a register: bits 7:0 the first fault's cause, bits 31:8 read 0 (R24, R27). -/
def State.causeWord (s : State) : Word := s.cause.setWidth 32

end Sys2Proof.Machine
end

