-- ==== Sys2Proof/Machine/Control.lean ====
section
/-! DEFINITION. The control-register map of spec/10_state.md R27, and what SYS.RDC and SYS.WRC do with it. -/

namespace Sys2Proof.Machine

/-- The six fields of a reader context in the register map (R27). -/
inductive ReaderField where
  | value
  | range
  | bitsLeft
  | cursor
  | bound
  | valid
deriving DecidableEq, Repr

/-- A control register (R27). -/
inductive ControlReg where
  | status
  | cause
  | einfoLo
  | einfoHi
  | res
  | stride
  | lfp
  | reader (r : Fin 9) (f : ReaderField)
deriving DecidableEq, Repr

/-- The field at offset `k` of a reader's eight numbers; offsets 6 and 7 are undefined (R27). -/
def ReaderField.ofOffset (k : Nat) : Option ReaderField :=
  match k with
  | 0 => some .value
  | 1 => some .range
  | 2 => some .bitsLeft
  | 3 => some .cursor
  | 4 => some .bound
  | 5 => some .valid
  | _ => none

/-- The register with number `0x10 + 8×r + k` (R27). -/
def ControlReg.ofReaderNumber (n : Nat) : Option ControlReg :=
  if h : (n - 0x10) / 8 < 9 then (ReaderField.ofOffset ((n - 0x10) % 8)).map (.reader ⟨(n - 0x10) / 8, h⟩)
  else none

/-- The register a number names; every number not in the table of R27 is undefined. -/
def ControlReg.ofNumber (n : Nat) : Option ControlReg :=
  match n with
  | 0x00 => some .status
  | 0x01 => some .cause
  | 0x02 => some .einfoLo
  | 0x03 => some .einfoHi
  | 0x04 => some .res
  | 0x05 => some .stride
  | 0x06 => some .lfp
  | n => if n < 0x10 then none else ControlReg.ofReaderNumber n

/-- A reader field, zero-extended to 32 bits (R27). -/
def Reader.field (b : Reader) (f : ReaderField) : Word :=
  match f with
  | .value => b.value
  | .range => b.range.setWidth 32
  | .bitsLeft => b.bitsLeft.setWidth 32
  | .cursor => b.cursor
  | .bound => b.bound
  | .valid => (BitVec.ofBool b.valid).setWidth 32

/-- `C[n]`, zero-extended to 32 bits as R27 gives. -/
def State.controlReg (s : State) (c : ControlReg) : Word :=
  match c with
  | .status => s.statusWord
  | .cause => s.causeWord
  | .einfoLo => s.einfo.extractLsb' 0 32
  | .einfoHi => s.einfo.extractLsb' 32 32
  | .res => s.res
  | .stride => s.stride.setWidth 32
  | .lfp => s.lfp.word
  | .reader r f => (s.reader r).field f

/-- The effect of a legal `SYS.WRC`: `STRIDE` takes 1..65535, `LFP` a word with no bit outside 0x00033FFF;
no other register is writable (spec/44_system_and_memory.md R223). -/
def State.writeControlReg (s : State) (n : Half) (v : Word) : Option State :=
  match ControlReg.ofNumber n.toNat with
  | some .stride => if 1 ≤ v.toNat ∧ v.toNat ≤ 65535 then some (s.setStride (v.setWidth 16)) else none
  | some .lfp => if v &&& ~~~0x00033FFF#32 = 0 then some (s.setLfp (Lfp.ofWord v)) else none
  | _ => none

end Sys2Proof.Machine
end

