-- ==== Sys2Proof/Machine/System.lean ====
section
/-! DEFINITION. FE unit: the system commands `NOP`, `SYS.RESET`, `SYS.RDC`, `SYS.WRC`
(spec/44_system_and_memory.md R220 to R223). -/

namespace Sys2Proof.Machine

/-- `NOP`: no state changes, not even `RES` (R220). -/
def execNop (s : State) : Host.Outcome State Fault Refusal := .next (s.respond 0)

/-- `SYS.RESET`: every register takes its reset value, the memories keep their contents (R221). -/
def execSysReset (s : State) : Host.Outcome State Fault Refusal := .next (s.resetRegisters.respond 0)

/-- `SYS.RDC n`: the register's value into `RES` and the response (R222). -/
def execSysRdc (n : Half) (s : State) : Host.Outcome State Fault Refusal :=
  match ControlReg.ofNumber n.toNat with
  | none => raised .controlRegister (encode (.sysRdc n)) s
  | some c => .next (s.answer (s.controlReg c))

/-- `SYS.WRC n, v`: writes `STRIDE` or `LFP` with a legal value, else ControlRegister (R223). -/
def execSysWrc (n : Half) (v : Word) (s : State) : Host.Outcome State Fault Refusal :=
  match s.writeControlReg n v with
  | none => raised .controlRegister (encode (.sysWrc n v)) s
  | some t => .next (t.respond 0)

end Sys2Proof.Machine
end

