-- ==== Sys2Proof/Machine/Transform.lean ====
section
/-! DEFINITION. XF unit: the inverse Walsh–Hadamard transform and the inverse DCT with add and clamp
(spec/42_inverse_transforms.md R170, R172, R173, R175, R176). The index arithmetic is the spec's text,
which it marks as general knowledge: PRESUMED, log entry 8 (G1, G2). -/

namespace Sys2Proof.Machine

/-! ### IWHT (R170) -/

/-- The first pass of R170, down the columns: `tmp[k]`. -/
def iwhtColumns (inp : Nat → Int) (k : Nat) : Int :=
  let i := k % 4
  let a0 := inp i + inp (12 + i)
  let a1 := inp (4 + i) + inp (8 + i)
  let a2 := inp (4 + i) - inp (8 + i)
  let a3 := inp i - inp (12 + i)
  match k / 4 with
  | 0 => a0 + a1
  | 1 => a3 + a2
  | 2 => a0 - a1
  | _ => a3 - a2

/-- `out[k]` of R170: the second pass, along the rows, on the first pass's results. -/
def iwht (inp : Nat → Int) (k : Nat) : Int :=
  let tmp := iwhtColumns inp
  let i := k / 4
  let dc := tmp (4 * i) + 3
  let a0 := dc + tmp (4 * i + 3)
  let a1 := tmp (4 * i + 1) + tmp (4 * i + 2)
  let a2 := tmp (4 * i + 1) - tmp (4 * i + 2)
  let a3 := dc - tmp (4 * i + 3)
  match k % 4 with
  | 0 => asr (a0 + a1) 3
  | 1 => asr (a3 + a2) 3
  | 2 => asr (a0 - a1) 3
  | _ => asr (a3 - a2) 3

/-! ### IDCT (R173) -/

/-- `MUL1(a) = ((a × 20091) >> 16) + a` (R173). -/
def mul1 (a : Int) : Int := asr (a * 20091) 16 + a

/-- `MUL2(a) = (a × 35468) >> 16` (R173). -/
def mul2 (a : Int) : Int := asr (a * 35468) 16

/-- The butterfly that both passes of R173 use, output `j` of inputs `e0 .. e3`. -/
def idctButterfly (e0 e1 e2 e3 : Int) (j : Nat) : Int :=
  let a := e0 + e2
  let b := e0 - e2
  let c := mul2 e1 - mul1 e3
  let d := mul1 e1 + mul2 e3
  match j with
  | 0 => a + d
  | 1 => b + c
  | 2 => b - c
  | _ => a - d

/-- The first pass of R173, down the columns: `t[4i+j]` is column `i`, row `j`. -/
def idctColumns (inp : Nat → Int) (k : Nat) : Int :=
  let i := k / 4
  idctButterfly (inp i) (inp (4 + i)) (inp (8 + i)) (inp (12 + i)) (k % 4)

/-- `res[k]`, `k = 4y + x`, of R173: the second pass, with the `+4` on the row's first term. -/
def idct (inp : Nat → Int) (k : Nat) : Int :=
  let t := idctColumns inp
  let y := k / 4
  asr (idctButterfly (t y + 4) (t (4 + y)) (t (8 + y)) (t (12 + y)) (k % 4)) 3

/-! ### The commands -/

/-- A transform of 16 consecutive CM elements into 16 elements 16 apart: all reads, then writes in ascending
`k` (R172). -/
def transformCoeffs (f : (Nat → Int) → Nat → Int) (src dst : Nat) (w : Command) (s : State) :
    Host.Outcome State Fault Refusal :=
  if src + 15 < s.params.cmWords ∧ dst + 240 < s.params.cmWords then
    .next ((s.writeCoeffs ((List.range 16).map fun k => (dst + 16 * k, f (s.coeffs src) k))).respond 0)
  else raised .addressRange w s

/-- A residual of 16 consecutive CM elements added to the 4×4 block at `A`, each sample clamped: all reads, then
writes in raster order (R175, R176). -/
def addResidual (f : (Nat → Int) → Nat → Int) (src : Nat) (A : Int) (w : Command) (s : State) :
    Host.Outcome State Fault Refusal :=
  if src + 15 < s.params.cmWords ∧ blockAddr A s.pitch 3 3 < s.params.smSize then
    .next ((s.writeSamples ((raster 4).map fun p =>
      (blockAddr A s.pitch p.1 p.2,
        clip255 (s.sample (blockAddr A s.pitch p.1 p.2) + f (s.coeffs src) (4 * p.2 + p.1))))).respond 0)
  else raised .addressRange w s

/-- `XF.IWHT src, dst` (R172). -/
def execXfIwht (src : Half) (dst : Word) (s : State) : Host.Outcome State Fault Refusal :=
  transformCoeffs iwht src.toNat dst.toNat (encode (.xfIwht src dst)) s

/-- `XF.IDCTADD src, A` (R176). -/
def execXfIdctadd (src : Half) (A : Word) (s : State) : Host.Outcome State Fault Refusal :=
  addResidual idct src.toNat (addrOf A) (encode (.xfIdctadd src A)) s

end Sys2Proof.Machine
end

