-- ==== Sys2Proof/Machine/Dispatch.lean ====
section
/-! DEFINITION. The meaning of every command: one arm per constructor of `Instr`, one per row of
spec/opcode_table.json. -/

namespace Sys2Proof.Machine

def exec (i : Instr) (s : State) : Host.Outcome State Fault Refusal :=
  match i with
  | .nop => Sys2Proof.Machine.execNop s
  | .sysReset => Sys2Proof.Machine.execSysReset s
  | .sysRdc n => Sys2Proof.Machine.execSysRdc n s
  | .sysWrc n v => Sys2Proof.Machine.execSysWrc n v s
  | .memLdb addr => Sys2Proof.Machine.execMemLdb addr s
  | .memStb v addr => Sys2Proof.Machine.execMemStb v addr s
  | .memLdc idx => Sys2Proof.Machine.execMemLdc idx s
  | .memStc v idx => Sys2Proof.Machine.execMemStc v idx s
  | .brSetend rid bound => Sys2Proof.Machine.execBrSetend rid bound s
  | .brStart rid start => Sys2Proof.Machine.execBrStart rid start s
  | .brGetbit rid prob => Sys2Proof.Machine.execBrGetbit rid prob s
  | .brBool rid => Sys2Proof.Machine.execBrBool rid s
  | .brValue rid n => Sys2Proof.Machine.execBrValue rid n s
  | .brSigned rid n => Sys2Proof.Machine.execBrSigned rid n s
  | .xfIwht src dst => Sys2Proof.Machine.execXfIwht src dst s
  | .xfIdctadd src A => Sys2Proof.Machine.execXfIdctadd src A s
  | .ip4Dc A => Sys2Proof.Machine.execIp4Dc A s
  | .ip4Tm A => Sys2Proof.Machine.execIp4Tm A s
  | .ip4Ve A => Sys2Proof.Machine.execIp4Ve A s
  | .ip4He A => Sys2Proof.Machine.execIp4He A s
  | .ip4Ld A => Sys2Proof.Machine.execIp4Ld A s
  | .ip4Rd A => Sys2Proof.Machine.execIp4Rd A s
  | .ip4Vr A => Sys2Proof.Machine.execIp4Vr A s
  | .ip4Vl A => Sys2Proof.Machine.execIp4Vl A s
  | .ip4Hd A => Sys2Proof.Machine.execIp4Hd A s
  | .ip4Hu A => Sys2Proof.Machine.execIp4Hu A s
  | .ip16Dc notop noleft A => Sys2Proof.Machine.execIp16Dc notop noleft A s
  | .ip16V A => Sys2Proof.Machine.execIp16V A s
  | .ip16H A => Sys2Proof.Machine.execIp16H A s
  | .ip16Tm A => Sys2Proof.Machine.execIp16Tm A s
  | .ip8Dc notop noleft A => Sys2Proof.Machine.execIp8Dc notop noleft A s
  | .ip8V A => Sys2Proof.Machine.execIp8V A s
  | .ip8H A => Sys2Proof.Machine.execIp8H A s
  | .ip8Tm A => Sys2Proof.Machine.execIp8Tm A s
  | .lfSetup level sharpness => Sys2Proof.Machine.execLfSetup level sharpness s
  | .lfSmb dir A => Sys2Proof.Machine.execLfSmb dir A s
  | .lfSin dir A => Sys2Proof.Machine.execLfSin dir A s
  | .lfNmb dir n A => Sys2Proof.Machine.execLfNmb dir n A s
  | .lfNin dir n A => Sys2Proof.Machine.execLfNin dir n A s

end Sys2Proof.Machine
end

