-- ==== Sys2Proof/Machine/Step.lean ====
section
/-! DEFINITION. One step of the machine: the block takes the next thing the host has presented
(spec/00_scope.md R6, spec/10_state.md R31, spec/44_system_and_memory.md R231; log entries 3, 6, 7, 15). -/

namespace Sys2Proof.Machine

/-- The block takes a command word: a word that stands for no command raises its fault (R75), any other is
executed. -/
def runCommand (w : Command) (s : State) : Host.Outcome State Fault Refusal :=
  match decode w with
  | .error e => raised (decodeCause e) w s
  | .ok i => exec i s

/-- One step. With nothing presented the block is idle and nothing changes (spec/60_exceptions.md R255). -/
def step (s : State) : Host.Outcome State Fault Refusal :=
  match s.inbox with
  | [] => .next s
  | .command w :: rest => runCommand w { s with inbox := rest }
  | .writeBs addr bytes :: rest =>
    if addr + bytes.length ≤ s.params.bsSize then .next (State.loadBs { s with inbox := rest } addr bytes)
    else .fault .hostWriteOutsideBs
  | .hardReset :: rest => .next (State.hardReset { s with inbox := rest })

/-- `s` with the command word `w` (its low `nbits` bits) presented as the next thing the block takes; what the
host had presented before stays behind it. -/
def State.withFetchWord (s : State) (nbits w : Nat) : State :=
  { s with inbox := .command (BitVec.ofNat 64 (w % 2 ^ nbits)) :: s.inbox }

end Sys2Proof.Machine
end

