-- ==== Sys2Proof/Safety.lean ====
section
/-! DEFINITION. What claims call a legal state: the legal values of spec/10_state.md R21, R22, R24, R25 and
spec/00_scope.md R7, with memories in their canonical form and inside their spaces. -/

namespace Sys2Proof.Machine

/-- A reader context as it stands between commands: `range` 128..255, `bits_left` 0..7, `cursor` and `end` at most
BS_SIZE (R21; spec/40_boolreader.md R112). -/
abbrev Reader.legal (p : Params) (r : Reader) : Prop :=
  128 ≤ r.range.toNat ∧ r.bitsLeft.toNat ≤ 7 ∧ r.cursor.toNat ≤ p.bsSize ∧ r.bound.toNat ≤ p.bsSize

/-- The normal regime of a reader: the window lies below `range` (spec/40_boolreader.md R112). -/
abbrev Reader.normal (r : Reader) : Prop := r.window < r.range.toNat

/-- The fault record: `CAUSE` and `EINFO` are 0 while `err = 0`, and `CAUSE` is one of the five codes while
`err = 1` (R24; spec/60_exceptions.md R241). -/
abbrev State.recordLegal (s : State) : Prop :=
  (s.err = false → s.cause = 0 ∧ s.einfo = 0) ∧ (s.err = true → 1 ≤ s.cause.toNat ∧ s.cause.toNat ≤ 5)

/-- The invariant of the machine: legal parameters, `STRIDE` in 1..65535, a legal fault record, legal readers, the
three memories in canonical form and inside their spaces. -/
abbrev State.Inv (s : State) : Prop :=
  s.params.ok ∧ s.stride ≠ 0 ∧ s.recordLegal ∧ (∀ r : Fin 9, (s.reader r).legal s.params) ∧
    (Mem.wf s.bs ∧ Mem.inside s.bs s.params.bsSize) ∧ (Mem.wf s.cm ∧ Mem.inside s.cm s.params.cmWords) ∧
    (Mem.wf s.sm ∧ Mem.inside s.sm s.params.smSize)

/-- The run goes on: the step answered a next state. -/
def goesOn (o : Host.Outcome State Fault Refusal) : Prop := ∃ t, o = .next t

end Sys2Proof.Machine
end

