-- ==== Sys2Proof/Certificates/Slice0/Obligations.lean ====
section
/-! DEFINITION. The statements for the provers, written from the numbered rules of spec/. The helpers of
`Sys2Proof.Claims` write the rules out in their own terms; a statement about a command gives its whole next
state: the record update names every register that may change, and reads of single locations say what memory
holds. -/

namespace Sys2Proof.Claims

open Sys2Proof.Machine

/-! ### Faults (spec/60_exceptions.md R241, R243) -/

/-- The cause codes of R241. -/
def codeNumber : Cause → Nat
  | .illegalOpcode => 1
  | .reservedField => 2
  | .controlRegister => 3
  | .readerInvalid => 4
  | .addressRange => 5

/-- The state after `raise` with cause `c` of the command word `w`, as R243 writes it. -/
def faulted (s : State) (c : Cause) (w : Command) : State :=
  if s.err = false then
    { s with err := true, cause := BitVec.ofNat 8 (codeNumber c), einfo := w, resp := some (.err c) }
  else { s with resp := some (.err c) }

/-- The command raises cause `c`: its next state is the faulted one, with the command's own word in `EINFO`. -/
def raises (i : Instr) (c : Cause) (s : State) : Prop := exec i s = .next (faulted s c (encode i))

/-! ### The opcode table (spec/opcode_table.json) -/

/-- One row of spec/opcode_table.json: its mnemonic, the match, mask and must_be_zero words, and the operand range
its note adds (`rid` 0..8, `n` 1..24). -/
structure Row where
  name : String
  pattern : Nat
  mask : Nat
  zero : Nat
  rid : Bool
  count : Bool

/-- A word is a word of the row. -/
def Row.accepts (r : Row) (w : Command) : Prop :=
  w &&& BitVec.ofNat 64 r.mask = BitVec.ofNat 64 r.pattern ∧ w &&& BitVec.ofNat 64 r.zero = 0 ∧
    (r.rid = true → w.toNat / 2 ^ 52 % 16 ≤ 8) ∧
    (r.count = true → 1 ≤ w.toNat / 2 ^ 32 % 32 ∧ w.toNat / 2 ^ 32 % 32 ≤ 24)

/-- The FE rows. -/
def tableFe : List Row :=
  [⟨"NOP", 0x0000000000000000, 0xFF00000000000000, 0x00FFFFFFFFFFFFFF, false, false⟩,
   ⟨"SYS.RESET", 0x0100000000000000, 0xFF00000000000000, 0x00FFFFFFFFFFFFFF, false, false⟩,
   ⟨"SYS.RDC", 0x0200000000000000, 0xFF00000000000000, 0x00FF0000FFFFFFFF, false, false⟩,
   ⟨"SYS.WRC", 0x0300000000000000, 0xFF00000000000000, 0x00FF000000000000, false, false⟩,
   ⟨"MEM.LDB", 0x0800000000000000, 0xFF00000000000000, 0x00FFFFFF00000000, false, false⟩,
   ⟨"MEM.STB", 0x0900000000000000, 0xFF00000000000000, 0x00FFFF0000000000, false, false⟩,
   ⟨"MEM.LDC", 0x0A00000000000000, 0xFF00000000000000, 0x00FFFFFF00000000, false, false⟩,
   ⟨"MEM.STC", 0x0B00000000000000, 0xFF00000000000000, 0x00FF000000000000, false, false⟩]

/-- The BR and XF rows. -/
def tableBrXf : List Row :=
  [⟨"BR.SETEND", 0x1000000000000000, 0xFF00000000000000, 0x000FFFFF00000000, true, false⟩,
   ⟨"BR.START", 0x1100000000000000, 0xFF00000000000000, 0x000FFFFF00000000, true, false⟩,
   ⟨"BR.GETBIT", 0x1200000000000000, 0xFF00000000000000, 0x000FFF00FFFFFFFF, true, false⟩,
   ⟨"BR.BOOL", 0x1300000000000000, 0xFF00000000000000, 0x000FFFFFFFFFFFFF, true, false⟩,
   ⟨"BR.VALUE", 0x1400000000000000, 0xFF00000000000000, 0x000FFFE0FFFFFFFF, true, true⟩,
   ⟨"BR.SIGNED", 0x1500000000000000, 0xFF00000000000000, 0x000FFFE0FFFFFFFF, true, true⟩,
   ⟨"XF.IWHT", 0x2000000000000000, 0xFF00000000000000, 0x00FF000000000000, false, false⟩,
   ⟨"XF.IDCTADD", 0x2100000000000000, 0xFF00000000000000, 0x00FF000000000000, false, false⟩]

/-- The IP rows. -/
def tableIp : List Row :=
  [⟨"IP4.DC", 0x3000000000000000, 0xFFF0000000000000, 0x000FFFFF00000000, false, false⟩,
   ⟨"IP4.TM", 0x3010000000000000, 0xFFF0000000000000, 0x000FFFFF00000000, false, false⟩,
   ⟨"IP4.VE", 0x3020000000000000, 0xFFF0000000000000, 0x000FFFFF00000000, false, false⟩,
   ⟨"IP4.HE", 0x3030000000000000, 0xFFF0000000000000, 0x000FFFFF00000000, false, false⟩,
   ⟨"IP4.LD", 0x3040000000000000, 0xFFF0000000000000, 0x000FFFFF00000000, false, false⟩,
   ⟨"IP4.RD", 0x3050000000000000, 0xFFF0000000000000, 0x000FFFFF00000000, false, false⟩,
   ⟨"IP4.VR", 0x3060000000000000, 0xFFF0000000000000, 0x000FFFFF00000000, false, false⟩,
   ⟨"IP4.VL", 0x3070000000000000, 0xFFF0000000000000, 0x000FFFFF00000000, false, false⟩,
   ⟨"IP4.HD", 0x3080000000000000, 0xFFF0000000000000, 0x000FFFFF00000000, false, false⟩,
   ⟨"IP4.HU", 0x3090000000000000, 0xFFF0000000000000, 0x000FFFFF00000000, false, false⟩,
   ⟨"IP16.DC", 0x3100000000000000, 0xFFF0000000000000, 0x000CFFFF00000000, false, false⟩,
   ⟨"IP16.V", 0x3110000000000000, 0xFFF0000000000000, 0x000FFFFF00000000, false, false⟩,
   ⟨"IP16.H", 0x3120000000000000, 0xFFF0000000000000, 0x000FFFFF00000000, false, false⟩,
   ⟨"IP16.TM", 0x3130000000000000, 0xFFF0000000000000, 0x000FFFFF00000000, false, false⟩,
   ⟨"IP8.DC", 0x3200000000000000, 0xFFF0000000000000, 0x000CFFFF00000000, false, false⟩,
   ⟨"IP8.V", 0x3210000000000000, 0xFFF0000000000000, 0x000FFFFF00000000, false, false⟩,
   ⟨"IP8.H", 0x3220000000000000, 0xFFF0000000000000, 0x000FFFFF00000000, false, false⟩,
   ⟨"IP8.TM", 0x3230000000000000, 0xFFF0000000000000, 0x000FFFFF00000000, false, false⟩]

/-- The LF rows. -/
def tableLf : List Row :=
  [⟨"LF.SETUP", 0x4000000000000000, 0xFF00000000000000, 0x00FFF8C0FFFFFFFF, false, false⟩,
   ⟨"LF.SMB", 0x4100000000000000, 0xFF00000000000000, 0x00FEFFFF00000000, false, false⟩,
   ⟨"LF.SIN", 0x4200000000000000, 0xFF00000000000000, 0x00FEFFFF00000000, false, false⟩,
   ⟨"LF.NMB", 0x4300000000000000, 0xFF00000000000000, 0x00FCFFFF00000000, false, false⟩,
   ⟨"LF.NIN", 0x4400000000000000, 0xFF00000000000000, 0x00FCFFFF00000000, false, false⟩]

/-- The 39 rows of spec/opcode_table.json. -/
def opcodeTable : List Row := tableFe ++ tableBrXf ++ tableIp ++ tableLf

/-- The mnemonic of a command, as the table spells it. -/
def mnemonic : Instr → String
  | .nop => "NOP"
  | .sysReset => "SYS.RESET"
  | .sysRdc _ => "SYS.RDC"
  | .sysWrc _ _ => "SYS.WRC"
  | .memLdb _ => "MEM.LDB"
  | .memStb _ _ => "MEM.STB"
  | .memLdc _ => "MEM.LDC"
  | .memStc _ _ => "MEM.STC"
  | .brSetend _ _ => "BR.SETEND"
  | .brStart _ _ => "BR.START"
  | .brGetbit _ _ => "BR.GETBIT"
  | .brBool _ => "BR.BOOL"
  | .brValue _ _ => "BR.VALUE"
  | .brSigned _ _ => "BR.SIGNED"
  | .xfIwht _ _ => "XF.IWHT"
  | .xfIdctadd _ _ => "XF.IDCTADD"
  | .ip4Dc _ => "IP4.DC"
  | .ip4Tm _ => "IP4.TM"
  | .ip4Ve _ => "IP4.VE"
  | .ip4He _ => "IP4.HE"
  | .ip4Ld _ => "IP4.LD"
  | .ip4Rd _ => "IP4.RD"
  | .ip4Vr _ => "IP4.VR"
  | .ip4Vl _ => "IP4.VL"
  | .ip4Hd _ => "IP4.HD"
  | .ip4Hu _ => "IP4.HU"
  | .ip16Dc _ _ _ => "IP16.DC"
  | .ip16V _ => "IP16.V"
  | .ip16H _ => "IP16.H"
  | .ip16Tm _ => "IP16.TM"
  | .ip8Dc _ _ _ => "IP8.DC"
  | .ip8V _ => "IP8.V"
  | .ip8H _ => "IP8.H"
  | .ip8Tm _ => "IP8.TM"
  | .lfSetup _ _ => "LF.SETUP"
  | .lfSmb _ _ => "LF.SMB"
  | .lfSin _ _ => "LF.SIN"
  | .lfNmb _ _ _ => "LF.NMB"
  | .lfNin _ _ _ => "LF.NIN"

/-- How the words of one `op` read (R70, R75): a word with one of the must-be-zero bits `zeros` set, or with a field
`ok` does not admit, is ReservedField; every other is the command `mk` of its fields `a`, `c` and `imm`. -/
def encodedAs (op zeros : Nat) (ok : BitVec 4 → Half → Bool) (mk : BitVec 4 → Half → Word → Instr) : Prop :=
  ∀ w : Command, w.toNat / 2 ^ 56 = op →
    let a := BitVec.ofNat 4 (w.toNat / 2 ^ 52)
    let c := BitVec.ofNat 16 (w.toNat / 2 ^ 32)
    (w &&& BitVec.ofNat 64 zeros = 0 ∧ ok a c = true → decode w = .ok (mk a c (BitVec.ofNat 32 w.toNat))) ∧
      (w &&& BitVec.ofNat 64 zeros ≠ 0 ∨ ok a c = false → decode w = .error .reservedField)

/-- No field of the word has a narrower range than its bits. -/
def anyFields (_ : BitVec 4) (_ : Half) : Bool := true

/-- `rid` is one of the nine contexts (R72). -/
def ridField (a : BitVec 4) (_ : Half) : Bool := decide (a.toNat ≤ 8)

/-- `rid` is one of the nine contexts and `n` is 1..24 (R72). -/
def ridCountFields (a : BitVec 4) (c : Half) : Bool := decide (a.toNat ≤ 8 ∧ 1 ≤ c.toNat ∧ c.toNat ≤ 24)

/-- The 24 values of `op` (spec/30_encoding.md R72). -/
def definedOps : List Nat :=
  [0x00, 0x01, 0x02, 0x03, 0x08, 0x09, 0x0A, 0x0B, 0x10, 0x11, 0x12, 0x13, 0x14, 0x15, 0x20, 0x21, 0x30, 0x31, 0x32,
    0x40, 0x41, 0x42, 0x43, 0x44]

/-! ### Registers -/

/-- Every register has its reset value (spec/10_state.md R35). -/
def registersReset (t : State) : Prop :=
  t.err = false ∧ t.cause = 0 ∧ t.einfo = 0 ∧ t.res = 0 ∧ t.stride = 32 ∧
    (t.lfp.limit = 0 ∧ t.lfp.inner = 0 ∧ t.lfp.hev = 0) ∧
    ∀ r : Fin 9, (t.readers[r]).value = 0 ∧ (t.readers[r]).range = 255 ∧ (t.readers[r]).bitsLeft = 0 ∧
      (t.readers[r]).cursor = 0 ∧ (t.readers[r]).bound = 0 ∧ (t.readers[r]).valid = false

/-- `SYS.RDC n` completes with the number `v` in `RES` and in the response, and changes nothing else. -/
def rdcGives (s : State) (n v : Nat) : Prop :=
  exec (.sysRdc (BitVec.ofNat 16 n)) s =
    .next { s with res := BitVec.ofNat 32 v, resp := some (.ok (BitVec.ofNat 32 v)) }

/-- A command that answers data (spec/10_state.md R23). -/
def answersData : Instr → Bool
  | .sysRdc _ | .memLdb _ | .memLdc _ | .brGetbit _ _ | .brBool _ | .brValue _ _ | .brSigned _ _ => true
  | _ => false

/-- The reader context a command names. -/
def readerNamed : Instr → Option (BitVec 4)
  | .brSetend rid _ | .brStart rid _ | .brGetbit rid _ | .brBool rid | .brValue rid _ | .brSigned rid _ => some rid
  | _ => none

/-- A command that may store to SM (spec/20_memory.md R50). -/
def storesSamples : Instr → Bool
  | .memStb _ _ | .xfIdctadd _ _ => true
  | .ip4Dc _ | .ip4Tm _ | .ip4Ve _ | .ip4He _ | .ip4Ld _ | .ip4Rd _ | .ip4Vr _ | .ip4Vl _ | .ip4Hd _ | .ip4Hu _ => true
  | .ip16Dc _ _ _ | .ip16V _ | .ip16H _ | .ip16Tm _ | .ip8Dc _ _ _ | .ip8V _ | .ip8H _ | .ip8Tm _ => true
  | .lfSmb _ _ | .lfSin _ _ | .lfNmb _ _ _ | .lfNin _ _ _ => true
  | _ => false

/-- The causes a command may raise, by the table of spec/60_exceptions.md R246. -/
def mayRaise : Instr → List Cause
  | .nop | .sysReset | .lfSetup _ _ => [.reservedField]
  | .sysRdc _ | .sysWrc _ _ => [.reservedField, .controlRegister]
  | .brGetbit _ _ | .brBool _ | .brValue _ _ | .brSigned _ _ => [.reservedField, .readerInvalid]
  | _ => [.reservedField, .addressRange]

/-! ### Decoding bits (spec/40_boolreader.md) -/

/-- `n` commands `BR.BOOL rid` one after another from `s`, the first bit the most significant: the number they
spell and the state after the last (R110). `none` where one of them does not answer. -/
def boolRun (rid : BitVec 4) : Nat → Nat → State → Option (Nat × State)
  | 0, acc, s => some (acc, s)
  | n + 1, acc, s =>
    match exec (.brBool rid) s with
    | .next t => boolRun rid n (2 * acc + t.res.toNat) t
    | _ => none

/-- The bits and the `range` after each of the commands `BR.GETBIT rid, p`, one per probability. -/
def getbitRun (rid : BitVec 4) (h : rid.toNat < 9) : List Byte → State → Option (List (Nat × Nat))
  | [], _ => some []
  | p :: ps, s =>
    match exec (.brGetbit rid p) s with
    | .next t => (getbitRun rid h ps t).map ((t.res.toNat, (t.readers[rid.toNat]).range.toNat) :: ·)
    | _ => none

/-- The "doubling" reader of R114: the comparison position is fixed at bit 8, `value` doubles on every turn, and
a new byte is ORed in every eighth turn. `pos` counts the bytes taken from the span. PRESUMED, log entry 16. -/
structure Doubling where
  value : Nat
  range : Nat
  turns : Nat
  pos : Nat

/-- Byte `k` of a span, 0 past its end. -/
def spanByte (bs : Nat → Byte) (start bound k : Nat) : Nat := if start + k < bound then (bs (start + k)).toNat else 0

/-- The doubling reader starts with the first two bytes of the span. -/
def Doubling.start (span : Nat → Nat) : Doubling := { value := span 0 * 256 + span 1, range := 255, turns := 0, pos := 2 }

/-- At most `k` renormalization turns of the doubling reader. -/
def Doubling.turn (span : Nat → Nat) : Nat → Doubling → Doubling
  | 0, d => d
  | k + 1, d =>
    if d.range < 128 then
      Doubling.turn span k
        (if d.turns = 7 then
          { value := 2 * d.value + span d.pos, range := 2 * d.range, turns := 0, pos := d.pos + 1 }
        else { d with value := 2 * d.value, range := 2 * d.range, turns := d.turns + 1 })
    else d

/-- One decode of the doubling reader: the bit and the reader after it. -/
def Doubling.bit (span : Nat → Nat) (prob : Nat) (d : Doubling) : Nat × Doubling :=
  let sp := 1 + (d.range - 1) * prob / 256
  if d.value < sp * 256 then (0, Doubling.turn span 7 { d with range := sp })
  else (1, Doubling.turn span 7 { d with range := d.range - sp, value := d.value - sp * 256 })

/-- The bits and ranges of the doubling reader for a list of probabilities. -/
def Doubling.run (span : Nat → Nat) : List Byte → Doubling → List (Nat × Nat)
  | [], _ => []
  | p :: ps, d =>
    ((Doubling.bit span p.toNat d).1, (Doubling.bit span p.toNat d).2.range) ::
      Doubling.run span ps (Doubling.bit span p.toNat d).2

/-! ### Transforms (spec/42_inverse_transforms.md) -/

/-- The signs of the four sums of R170, for inputs 0..3: `a0+a1`, `a3+a2`, `a0−a1`, `a3−a2`. -/
def whtSign (j u : Nat) : Int :=
  (([[1, 1, 1, 1], [1, 1, -1, -1], [1, -1, -1, 1], [1, -1, 1, -1]] : List (List Int)).getD j []).getD u 0

/-- The 4×4 Hadamard sum of R171(b): output at column `x`, row `y` before the bias and the shift. -/
def whtSum (inp : Nat → Int) (x y : Nat) : Int :=
  ((List.range 4).map fun u => ((List.range 4).map fun v => whtSign y u * whtSign x v * inp (4 * u + v)).sum).sum

/-- `MUL1` of R173. -/
def scaleUp (a : Int) : Int := a * 20091 / 65536 + a

/-- `MUL2` of R173. -/
def scaleDown (a : Int) : Int := a * 35468 / 65536

/-- The four outputs of one pass of R173 on four inputs. -/
def idctPass (e0 e1 e2 e3 : Int) : List Int :=
  [(e0 + e2) + (scaleUp e1 + scaleDown e3), (e0 - e2) + (scaleDown e1 - scaleUp e3),
    (e0 - e2) - (scaleDown e1 - scaleUp e3), (e0 + e2) - (scaleUp e1 + scaleDown e3)]

/-- The residual of R173 at column `x`, row `y`: a pass down each column, a pass along row `y` with 4 added to its
first term, and the shift by 3. -/
def idctResidual (inp : Nat → Int) (x y : Nat) : Int :=
  let col (i : Nat) : Int := (idctPass (inp i) (inp (4 + i)) (inp (8 + i)) (inp (12 + i))).getD y 0
  (idctPass (col 0 + 4) (col 1) (col 2) (col 3)).getD x 0 / 8

/-! ### Blocks of samples (spec/00_scope.md R12, spec/41_intra_prediction.md R131, R132) -/

/-- The sample at an address, as a number. -/
def smAt (s : State) (a : Int) : Int := ((s.smByte a.toNat).toNat : Int)

/-- `0..255` saturation (R10). -/
def clamp (v : Int) : Int := max 0 (min 255 v)

/-- Memory `m` holds the samples `f x y` of the `n`×`n` block at `A` with pitch `S` and agrees with `s` everywhere
else. Where two positions of the block have one address (a pitch below `n`), the later one in raster order counts
(spec/20_memory.md R61): a position whose address a later row has too is not claimed. -/
def holdsBlock (n A S : Nat) (f : Nat → Nat → Int) (s : State) (m : Mem 8) : Prop :=
  (∀ a, (∀ x < n, ∀ y < n, a ≠ A + y * S + x) → ({ s with sm := m } : State).smByte a = s.smByte a) ∧
    ∀ x < n, ∀ y < n, (∀ x' < n, ∀ y' < n, y < y' → A + y' * S + x' ≠ A + y * S + x) →
      smAt { s with sm := m } ((A + y * S + x : Nat) : Int) = f x y

/-- The footprint of an IP command is inside SM (R132). -/
def predictionFits (n w : Nat) (A : Word) (s : State) : Prop :=
  (∀ k ≤ w + 1, 0 ≤ (A.toNat : Int) - s.stride.toNat - 1 + k ∧
      (A.toNat : Int) - s.stride.toNat - 1 + k < s.params.smSize) ∧
    ∀ y < n, ∀ k ≤ n, 0 ≤ (A.toNat : Int) + y * s.stride.toNat - 1 + k ∧
      (A.toNat : Int) + y * s.stride.toNat - 1 + k < s.params.smSize

/-- What an IP command of size `n` does, for the predictor formula `P` in the corner `X`, the top row `T` and the
left column `L` (R131, R132): the block at `A` gets the samples, no other byte and no register changes, the
response is `{OK, 0}`; a footprint that does not fit raises AddressRange. -/
def predicts (n w : Nat) (mk : Word → Instr) (P : Int → (Nat → Int) → (Nat → Int) → Nat → Nat → Int) : Prop :=
  ∀ (s : State) (A : Word),
    (predictionFits n w A s →
      ∃ m, exec (mk A) s = .next { s with sm := m, resp := some (.ok 0) } ∧
        holdsBlock n A.toNat s.stride.toNat
          (P (smAt s ((A.toNat : Int) - s.stride.toNat - 1)) (fun x => smAt s ((A.toNat : Int) - s.stride.toNat + x))
            fun y => smAt s ((A.toNat : Int) + y * s.stride.toNat - 1)) s m) ∧
      (¬ predictionFits n w A s → raises (mk A) .addressRange s)

/-- `AVG2` (spec/00_scope.md R10). -/
def mean2 (a b : Int) : Int := (a + b + 1) / 2

/-- `AVG3` (R10). -/
def mean3 (a b c : Int) : Int := (a + 2 * b + c + 2) / 4

/-- A sum over the first `n` samples. -/
def total (n : Nat) (f : Nat → Int) : Int := ((List.range n).map f).sum

/-- The samples of a 4×4 block listed row by row. -/
def rows4 (rows : List (List Int)) (x y : Nat) : Int := (rows.getD y []).getD x 0

/-! ### Edges (spec/43_loop_filter.md R193 to R199) -/

/-- The address of tap `j` (`q0` is 0, `p0` is −1) at position `i` of the edge at `A` (R193). -/
def tapAt (dir : Dir) (A S i : Nat) (j : Int) : Int :=
  match dir with
  | .vertical => A + i + j * S
  | .horizontal => A + i * S + j

/-- The address of the first tap of position 0 exists, and so does that of the last tap of position `n − 1` (R194). -/
def edgeFits (reach n : Nat) (dir : Dir) (A : Word) (s : State) : Prop :=
  0 ≤ tapAt dir A.toNat s.stride.toNat 0 (-reach) ∧
    tapAt dir A.toNat s.stride.toNat (n - 1) (reach - 1) < s.params.smSize

/-- A signed clamp (R10). -/
def clampTo (lo hi v : Int) : Int := max lo (min hi v)

/-- `simple_ok(E)` (R195). -/
def passesSimple (E p1 p0 q0 q1 : Int) : Prop := 2 * |p0 - q0| + |p1 - q1| / 2 ≤ E

/-- `normal_ok(E, I)` (R195), on the taps `t (−4) .. t 3`. -/
def passesNormal (E I : Int) (t : Int → Int) : Prop :=
  passesSimple E (t (-2)) (t (-1)) (t 0) (t 1) ∧ |t (-4) - t (-3)| ≤ I ∧ |t (-3) - t (-2)| ≤ I ∧ |t (-2) - t (-1)| ≤ I ∧
    |t 3 - t 2| ≤ I ∧ |t 2 - t 1| ≤ I ∧ |t 1 - t 0| ≤ I

/-- `hev(H)` (R196). -/
def highVariance (H : Int) (t : Int → Int) : Prop := |t (-2) - t (-1)| > H ∨ |t 1 - t 0| > H

/-- `filt2` (R197): the taps it writes, each with its new value. -/
def kernel2 (t : Int → Int) : List (Int × Int) :=
  let a := 3 * (t 0 - t (-1)) + clampTo (-128) 127 (t (-2) - t 1)
  [(-1, clamp (t (-1) + clampTo (-16) 15 ((a + 3) / 8))), (0, clamp (t 0 - clampTo (-16) 15 ((a + 4) / 8)))]

/-- `filt4` (R198). -/
def kernel4 (t : Int → Int) : List (Int × Int) :=
  let a := 3 * (t 0 - t (-1))
  let a1 := clampTo (-16) 15 ((a + 4) / 8)
  let a2 := clampTo (-16) 15 ((a + 3) / 8)
  let a3 := (a1 + 1) / 2
  [(-2, clamp (t (-2) + a3)), (-1, clamp (t (-1) + a2)), (0, clamp (t 0 - a1)), (1, clamp (t 1 - a3))]

/-- `filt6` (R199). -/
def kernel6 (t : Int → Int) : List (Int × Int) :=
  let a := clampTo (-128) 127 (3 * (t 0 - t (-1)) + clampTo (-128) 127 (t (-2) - t 1))
  let a1 := (27 * a + 63) / 128
  let a2 := (18 * a + 63) / 128
  let a3 := (9 * a + 63) / 128
  [(-3, clamp (t (-3) + a3)), (-2, clamp (t (-2) + a2)), (-1, clamp (t (-1) + a1)),
    (0, clamp (t 0 - a1)), (1, clamp (t 1 - a2)), (2, clamp (t 2 - a3))]

/-- From `a` to `b` only samples change, and exactly these: address `base + …` of each tap written. -/
def linesWritten (a b : State) (addr : Int → Int) (writes : List (Int × Int)) : Prop :=
  (∃ m, b = { a with sm := m }) ∧ (∀ p ∈ writes, smAt b (addr p.1) = p.2) ∧
    ∀ x : Nat, (∀ p ∈ writes, (x : Int) ≠ addr p.1) → b.smByte x = a.smByte x

/-- What an edge command with `n` positions does while the filter is on (R193, R194, R61): there are states `u 0 =
s`, `u 1`, ..., one per position in ascending order; each differs from the one before it by what `line` says of
the taps read in the one before it; the command ends in the last of them with the response `{OK, 0}`. -/
def filtersEdge (reach n : Nat) (i : Instr) (dir : Dir) (A : Word) (s : State)
    (line : (Int → Int) → List (Int × Int) → Prop) : Prop :=
  s.stride ≠ 0 → edgeFits reach n dir A s → s.lfp.limit ≠ 0 →
    ∃ u : Nat → State, u 0 = s ∧ exec i s = .next { u n with resp := some (.ok 0) } ∧
      ∀ k < n, ∃ writes,
        line (fun j => smAt (u k) (tapAt dir A.toNat s.stride.toNat k j)) writes ∧
          linesWritten (u k) (u (k + 1)) (tapAt dir A.toNat s.stride.toNat k) writes

/-- The simple filter at one position (R201, R202). -/
def simpleWrites (E : Int) (t : Int → Int) (writes : List (Int × Int)) : Prop :=
  (passesSimple E (t (-2)) (t (-1)) (t 0) (t 1) → writes = kernel2 t) ∧
    (¬ passesSimple E (t (-2)) (t (-1)) (t 0) (t 1) → writes = [])

/-- The normal filter at one position, `smooth` the kernel where `hev` does not hold (R203, R204). -/
def normalWrites (smooth : (Int → Int) → List (Int × Int)) (E I H : Int) (t : Int → Int) (writes : List (Int × Int)) :
    Prop :=
  (passesNormal E I t ∧ highVariance H t → writes = kernel2 t) ∧
    (passesNormal E I t ∧ ¬ highVariance H t → writes = smooth t) ∧ (¬ passesNormal E I t → writes = [])

/-- How many positions a normal-filter edge has (spec/30_encoding.md R74). -/
def positions : EdgeLength → Nat
  | .sixteen => 16
  | .eight => 8

/-- No sample changes but those of the taps `lo..hi` of the `n` positions of the edge. -/
def onlyTapsChange (lo hi : Int) (n : Nat) (dir : Dir) (A : Word) (s t : State) : Prop :=
  (∃ m, t = { s with sm := m, resp := some (.ok 0) }) ∧
    ∀ x : Nat, (∀ i < n, ∀ j, lo ≤ j → j ≤ hi → (x : Int) ≠ tapAt dir A.toNat s.stride.toNat i j) →
      t.smByte x = s.smByte x

/-- Every position of the edge is flat: its taps `lo..hi` all hold one value. -/
def flatEdge (lo hi : Int) (n : Nat) (dir : Dir) (A : Word) (s : State) : Prop :=
  ∀ i < n, ∀ j k, lo ≤ j → j ≤ hi → lo ≤ k → k ≤ hi →
    smAt s (tapAt dir A.toNat s.stride.toNat i j) = smAt s (tapAt dir A.toNat s.stride.toNat i k)

/-- The command completes and every sample reads as before. -/
def leavesSamples (i : Instr) (s : State) : Prop :=
  ∃ m, exec i s = .next { s with sm := m, resp := some (.ok 0) } ∧ ∀ a, ({ s with sm := m } : State).smByte a = s.smByte a

end Sys2Proof.Claims

open Sys2Proof Sys2Proof.Machine Sys2Proof.Claims

/-! ## Encoding (spec/30_encoding.md) -/

/-- The decoder reads every well-formed command back from its word, with every operand at every value R72 admits. -/
def Obligations.DecodeOfEncodeIsTheCommand : Prop :=
  ∀ i : Instr, i.wellFormed = true → decode (encode i) = .ok i

/-- No bit of a word is dropped: a word that decodes is the word of its command, which is well-formed (R70, R71, R75). -/
def Obligations.EncodeOfDecodeIsTheWord : Prop :=
  ∀ (w : Command) (i : Instr), decode w = .ok i → i.wellFormed = true ∧ encode i = w

/-- R75(a): exactly the words whose `op` is not one of the 24 values are IllegalOpcode. -/
def Obligations.UndefinedOpcodesAreIllegal : Prop :=
  ∀ w : Command, decode w = .error .illegalOpcode ↔ w.toNat / 2 ^ 56 ∉ definedOps

/-- The decoder is spec/opcode_table.json: a word decodes exactly where it is a word of a row, and to a command of
that row's mnemonic; a word of a defined `op` that is a word of no row is ReservedField (R75(b)). -/
def Obligations.DecoderIsTheOpcodeTable : Prop :=
  (∀ w : Command, ∀ row ∈ opcodeTable, row.accepts w → ∃ i, decode w = .ok i ∧ mnemonic i = row.name) ∧
    (∀ (w : Command) (i : Instr), decode w = .ok i → ∃ row ∈ opcodeTable, row.accepts w ∧ row.name = mnemonic i) ∧
    ∀ w : Command, w.toNat / 2 ^ 56 ∈ definedOps → (∀ row ∈ opcodeTable, ¬ row.accepts w) →
      decode w = .error .reservedField

/-- The example words of R77 decode to the commands R77 writes beside them. -/
def Obligations.ExampleWordsDecode : Prop :=
  decode 0x0000000000000000 = .ok .nop ∧ decode 0x1000000000000004 = .ok (.brSetend 0 4) ∧
    decode 0x1100000000000000 = .ok (.brStart 0 0) ∧ decode 0x1230009100000000 = .ok (.brGetbit 3 145) ∧
    decode 0x1400000700000000 = .ok (.brValue 0 7) ∧ decode 0x1510000400000000 = .ok (.brSigned 1 4) ∧
    decode 0x0B00FFFD00000180 = .ok (.memStc 0xFFFD 384) ∧ decode 0x2000018000000000 = .ok (.xfIwht 384 0) ∧
    decode 0x2100001000000048 = .ok (.xfIdctadd 16 0x48) ∧ decode 0x3010000000000048 = .ok (.ip4Tm 0x48) ∧
    decode 0x3101000000000028 = .ok (.ip16Dc true false 40) ∧ decode 0x3230000000000248 = .ok (.ip8Tm 584) ∧
    decode 0x4000002000000000 = .ok (.lfSetup 32 0) ∧ decode 0x4303000000000258 = .ok (.lfNmb .horizontal .eight 600) ∧
    decode 0x0300000500000020 = .ok (.sysWrc 5 32)

/-! ## The step -/

/-- A step runs the decoded command: the block takes the word the host presented first, and executes it (log entry 3). -/
def Obligations.StepRunsTheDecodedCommand : Prop :=
  ∀ (s : State) (w : Command) (rest : List HostInput) (i : Instr),
    s.inbox = .command w :: rest → decode w = .ok i → step s = exec i { s with inbox := rest }

/-- A word that stands for no command raises its fault, with the word itself in `EINFO` (R75, R241, R243). -/
def Obligations.StepFaultsOnAWordOfNoCommand : Prop :=
  ∀ (s : State) (w : Command) (rest : List HostInput), s.inbox = .command w :: rest →
    (decode w = .error .illegalOpcode → step s = .next (faulted { s with inbox := rest } .illegalOpcode w)) ∧
      (decode w = .error .reservedField → step s = .next (faulted { s with inbox := rest } .reservedField w))

/-- Every command word presented, whatever it is, completes with exactly one response, and a step stops only where
the host writes BS outside BS_SIZE (R76, R231, R274; the stop is the model's own, log entry 6). -/
def Obligations.EveryCommandWordAnswers : Prop :=
  (∀ (s : State) (w : Command) (rest : List HostInput), s.inbox = .command w :: rest →
      ∃ t r, step s = .next t ∧ t.resp = some r ∧ t.inbox = rest) ∧
    ∀ s : State, goesOn (step s) ∨
      ∃ a bytes rest, s.inbox = .writeBs a bytes :: rest ∧ s.params.bsSize < a + bytes.length ∧
        step s = .fault .hostWriteOutsideBs

/-- Between commands: with nothing presented nothing changes (R255), and a host write to BS changes exactly the bytes
it names (R51, R64, R228). How host inputs are presented is the model's choice (log entries 3, 6, 15). -/
def Obligations.HostWritesBsBetweenCommands : Prop :=
  (∀ s : State, s.inbox = [] → step s = .next s) ∧
    ∀ (s : State) (a : Nat) (bytes : List Byte) (rest : List HostInput), s.inbox = .writeBs a bytes :: rest →
      a + bytes.length ≤ s.params.bsSize →
      ∃ m, step s = .next { s with inbox := rest, bs := m } ∧
        (∀ (k : Nat) (h : k < bytes.length), ({ s with bs := m } : State).bsByte (a + k) = bytes[k]) ∧
        ∀ b, (b < a ∨ a + bytes.length ≤ b) → ({ s with bs := m } : State).bsByte b = s.bsByte b

/-- R35, R260: after hardware reset, and in the state a run starts from, every register has its reset value; no
location of a memory is written, and its contents are those of a new, unspecified power-on state (log entries 2, 7). -/
def Obligations.HardwareResetGivesTheResetValues : Prop :=
  (registersReset State.reset ∧ State.reset.bs = [] ∧ State.reset.cm = [] ∧ State.reset.sm = []) ∧
    ∀ (s : State) (rest : List HostInput), s.inbox = .hardReset :: rest →
      ∃ t, step s = .next t ∧ registersReset t ∧ t.bs = [] ∧ t.cm = [] ∧ t.sm = [] ∧ t.epoch = s.epoch + 1 ∧
        t.params = s.params ∧ t.inbox = rest ∧ t.resp = none

/-! ## FE unit (spec/44_system_and_memory.md) -/

/-- R220: the words of `NOP`; it changes nothing, not even `RES`; the response is `{OK, 0}`. -/
def Obligations.NopChangesNothing : Prop :=
  encodedAs 0x00 0x00FFFFFFFFFFFFFF anyFields (fun _ _ _ => .nop) ∧
    ∀ s : State, exec .nop s = .next { s with resp := some (.ok 0) }

/-- R221: the words of `SYS.RESET`; it gives every register its reset value, clearing the fault record; BS, CM and SM
keep their contents; no other command clears `STATUS.err`. -/
def Obligations.SysResetResetsTheRegistersOnly : Prop :=
  encodedAs 0x01 0x00FFFFFFFFFFFFFF anyFields (fun _ _ _ => .sysReset) ∧
  (∀ s : State, ∃ t, exec .sysReset s = .next t ∧ registersReset t ∧ t.bs = s.bs ∧ t.cm = s.cm ∧ t.sm = s.sm ∧
      t.epoch = s.epoch ∧ t.params = s.params ∧ t.inbox = s.inbox ∧ t.resp = some (.ok 0)) ∧
    ∀ (i : Instr) (s t : State), i ≠ .sysReset → exec i s = .next t → s.err = true → t.err = true

/-- R261: `SYS.RESET` forgets every register: two states with the same memories reach the same state. -/
def Obligations.SysResetForgetsTheRegisters : Prop :=
  ∀ s t : State, t.bs = s.bs → t.cm = s.cm → t.sm = s.sm → t.epoch = s.epoch → t.params = s.params →
    t.inbox = s.inbox → ∃ u, exec .sysReset s = .next u ∧ exec .sysReset t = .next u

/-- R222 with the map of R27: the words of `SYS.RDC n`; it answers the register's value, zero-extended, for every number of the map,
changing nothing but `RES`; every other number raises ControlRegister. -/
def Obligations.SysRdcReadsTheRegisterMap : Prop :=
  encodedAs 0x02 0x00FF0000FFFFFFFF anyFields (fun _ c _ => .sysRdc c) ∧
  ∀ s : State,
    rdcGives s 0x00 (if s.err then 1 else 0) ∧ rdcGives s 0x01 s.cause.toNat ∧
      rdcGives s 0x02 (s.einfo.toNat % 2 ^ 32) ∧ rdcGives s 0x03 (s.einfo.toNat / 2 ^ 32) ∧
      rdcGives s 0x04 s.res.toNat ∧ rdcGives s 0x05 s.stride.toNat ∧
      rdcGives s 0x06 (s.lfp.limit.toNat + 2 ^ 8 * s.lfp.inner.toNat + 2 ^ 16 * s.lfp.hev.toNat) ∧
      (∀ r : Fin 9,
        rdcGives s (0x10 + 8 * r) (s.readers[r]).value.toNat ∧ rdcGives s (0x10 + 8 * r + 1) (s.readers[r]).range.toNat ∧
          rdcGives s (0x10 + 8 * r + 2) (s.readers[r]).bitsLeft.toNat ∧
          rdcGives s (0x10 + 8 * r + 3) (s.readers[r]).cursor.toNat ∧
          rdcGives s (0x10 + 8 * r + 4) (s.readers[r]).bound.toNat ∧
          rdcGives s (0x10 + 8 * r + 5) (if (s.readers[r]).valid then 1 else 0)) ∧
      ∀ n : Half, (7 ≤ n.toNat ∧ n.toNat < 0x10) ∨ (0x10 ≤ n.toNat ∧ 6 ≤ n.toNat % 8) ∨ 0x58 ≤ n.toNat →
        raises (.sysRdc n) .controlRegister s

/-- R223: the words of `SYS.WRC`; it writes `STRIDE` with 1..65535 and `LFP` with a word that has no bit outside 0x00033FFF; every
other number or value raises ControlRegister. -/
def Obligations.SysWrcWritesStrideAndLfp : Prop :=
  encodedAs 0x03 0x00FF000000000000 anyFields (fun _ c imm => .sysWrc c imm) ∧
  ∀ (s : State) (v : Word),
    (1 ≤ v.toNat ∧ v.toNat ≤ 65535 →
      exec (.sysWrc 5 v) s = .next { s with stride := BitVec.ofNat 16 v.toNat, resp := some (.ok 0) }) ∧
      (v &&& ~~~0x00033FFF#32 = 0 →
        exec (.sysWrc 6 v) s =
          .next { s with
            lfp := { limit := BitVec.ofNat 8 v.toNat, inner := BitVec.ofNat 6 (v.toNat / 2 ^ 8), hev := BitVec.ofNat 2 (v.toNat / 2 ^ 16) }
            resp := some (.ok 0) } ∧
          v.toNat = v.toNat % 2 ^ 8 + 2 ^ 8 * (v.toNat / 2 ^ 8 % 2 ^ 6) + 2 ^ 16 * (v.toNat / 2 ^ 16 % 2 ^ 2)) ∧
      (v.toNat = 0 ∨ 65535 < v.toNat → raises (.sysWrc 5 v) .controlRegister s) ∧
      (v &&& ~~~0x00033FFF#32 ≠ 0 → raises (.sysWrc 6 v) .controlRegister s) ∧
      ∀ n : Half, n ≠ 5 → n ≠ 6 → raises (.sysWrc n v) .controlRegister s

/-- R224, R225, and the words of both commands: `MEM.LDB` answers the sample, zero-extended; `MEM.STB` writes that one byte; an address at or above
SM_SIZE raises AddressRange. -/
def Obligations.SamplesAreLoadedAndStored : Prop :=
  encodedAs 0x08 0x00FFFFFF00000000 anyFields (fun _ _ imm => .memLdb imm) ∧
  encodedAs 0x09 0x00FFFF0000000000 anyFields (fun _ c imm => .memStb (BitVec.ofNat 8 c.toNat) imm) ∧
  ∀ (s : State) (addr : Word),
    (addr.toNat < s.params.smSize →
      exec (.memLdb addr) s =
          .next { s with
            res := BitVec.ofNat 32 (s.smByte addr.toNat).toNat
            resp := some (.ok (BitVec.ofNat 32 (s.smByte addr.toNat).toNat)) } ∧
        ∀ v : Byte, ∃ m, exec (.memStb v addr) s = .next { s with sm := m, resp := some (.ok 0) } ∧
          ({ s with sm := m } : State).smByte addr.toNat = v ∧
          ∀ a, a ≠ addr.toNat → ({ s with sm := m } : State).smByte a = s.smByte a) ∧
      (s.params.smSize ≤ addr.toNat →
        raises (.memLdb addr) .addressRange s ∧ ∀ v : Byte, raises (.memStb v addr) .addressRange s)

/-- R226, R227, and the words of both commands: `MEM.LDC` answers the element, sign-extended to 32 bits; `MEM.STC` writes that one element; an index at
or above CM_WORDS raises AddressRange. -/
def Obligations.CoefficientsAreLoadedAndStored : Prop :=
  encodedAs 0x0A 0x00FFFFFF00000000 anyFields (fun _ _ imm => .memLdc imm) ∧
  encodedAs 0x0B 0x00FF000000000000 anyFields (fun _ c imm => .memStc c imm) ∧
  ∀ (s : State) (idx : Word),
    (idx.toNat < s.params.cmWords →
      exec (.memLdc idx) s =
          .next { s with
            res := BitVec.ofInt 32 (s.cmElem idx.toNat).toInt
            resp := some (.ok (BitVec.ofInt 32 (s.cmElem idx.toNat).toInt)) } ∧
        ∀ v : Half, ∃ m, exec (.memStc v idx) s = .next { s with cm := m, resp := some (.ok 0) } ∧
          ({ s with cm := m } : State).cmElem idx.toNat = v ∧
          ∀ k, k ≠ idx.toNat → ({ s with cm := m } : State).cmElem k = s.cmElem k) ∧
      (s.params.cmWords ≤ idx.toNat →
        raises (.memLdc idx) .addressRange s ∧ ∀ v : Half, raises (.memStc v idx) .addressRange s)

/-! ## BR unit (spec/40_boolreader.md) -/

/-- R101: the words of `BR.SETEND`; it writes `end` of the context it names and nothing else; `end` may be BS_SIZE, above it is
AddressRange. -/
def Obligations.BrSetendSetsTheEnd : Prop :=
  encodedAs 0x10 0x000FFFFF00000000 ridField (fun a _ imm => .brSetend a imm) ∧
  ∀ (s : State) (rid : BitVec 4) (bound : Word) (h : rid.toNat < 9),
    (bound.toNat ≤ s.params.bsSize →
      exec (.brSetend rid bound) s =
        .next { s with
          readers := s.readers.set rid.toNat { s.readers[rid.toNat] with bound := bound }
          resp := some (.ok 0) }) ∧
      (s.params.bsSize < bound.toNat → raises (.brSetend rid bound) .addressRange s)

/-- R102: `BR.START` opens the span at `start`: the first byte into `value` (0 for an empty span), `range` 255,
`bits_left` 0, the cursor past the byte, `valid` set; `end` stays. -/
def Obligations.BrStartPrimesTheReader : Prop :=
  ∀ (s : State) (rid : BitVec 4) (start : Word) (h : rid.toNat < 9),
    (start.toNat ≤ s.params.bsSize →
      exec (.brStart rid start) s =
        .next { s with
          readers := s.readers.set rid.toNat
            (if start.toNat < (s.readers[rid.toNat]).bound.toNat then
              { value := BitVec.ofNat 32 (s.bsByte start.toNat).toNat, range := 255, bitsLeft := 0,
                cursor := BitVec.ofNat 32 (start.toNat + 1), bound := (s.readers[rid.toNat]).bound, valid := true }
            else
              { value := 0, range := 255, bitsLeft := 0, cursor := start, bound := (s.readers[rid.toNat]).bound,
                valid := true })
          resp := some (.ok 0) }) ∧
      (s.params.bsSize < start.toNat → raises (.brStart rid start) .addressRange s)

/-- R104, R105, R106, R107 in closed form: `BR.GETBIT` on a legal, valid reader. With `sp` the split, the bit is 1
where the window reaches it; `range` is what the branch leaves, doubled `k = 7 − floor(log2)` times; a byte is
fetched exactly where `k` exceeds `bits_left`, 0 past the end; the context named, `RES` and the response are all
that changes. -/
def Obligations.BrGetbitDecodesOneBit : Prop :=
  ∀ (s : State) (rid : BitVec 4) (prob : Byte) (h : rid.toNat < 9),
    let r := s.readers[rid.toNat]
    r.valid = true → 128 ≤ r.range.toNat → r.bitsLeft.toNat ≤ 7 →
    let sp := 1 + (r.range.toNat - 1) * prob.toNat / 256
    let one := sp ≤ r.value.toNat / 2 ^ r.bitsLeft.toNat
    let rng := if one then r.range.toNat - sp else sp
    let val := if one then r.value.toNat - sp * 2 ^ r.bitsLeft.toNat else r.value.toNat
    let k := 7 - Nat.log2 rng
    let bit : Word := if one then 1 else 0
    ∃ b : Reader,
      exec (.brGetbit rid prob) s =
          .next { s with readers := s.readers.set rid.toNat b, res := bit, resp := some (.ok bit) } ∧
        b.range.toNat = rng * 2 ^ k ∧ b.bound = r.bound ∧ b.valid = true ∧
        (k ≤ r.bitsLeft.toNat → b.value.toNat = val ∧ b.bitsLeft.toNat = r.bitsLeft.toNat - k ∧ b.cursor = r.cursor) ∧
        (r.bitsLeft.toNat < k → b.bitsLeft.toNat = r.bitsLeft.toNat + 8 - k ∧
          (r.cursor.toNat < r.bound.toNat →
            b.value.toNat = (val * 256 + (s.bsByte r.cursor.toNat).toNat) % 2 ^ 32 ∧
              b.cursor.toNat = r.cursor.toNat + 1) ∧
          (r.bound.toNat ≤ r.cursor.toNat → b.value.toNat = val * 256 % 2 ^ 32 ∧ b.cursor = r.cursor))

/-- R104: the split and its consequences: both branches leave a `range` of at least 1, the values at `prob` 0, 128 and
255, and the larger `prob`, the larger the 0 branch. -/
def Obligations.SplitStaysInsideTheRange : Prop :=
  (∀ range prob : Nat, 128 ≤ range → range ≤ 255 → prob ≤ 255 →
      split range prob = 1 + (((range - 1) * prob) >>> 8) ∧ 1 ≤ split range prob ∧ split range prob ≤ range - 1 ∧
        1 ≤ range - split range prob ∧ (∀ more, prob ≤ more → more ≤ 255 → split range prob ≤ split range more) ∧
        split range 0 = 1 ∧ split range 255 = range - 1 ∧ split range 128 = 1 + ((range - 1) >>> 1)) ∧
    split 255 128 = 128 ∧ split 128 128 = 64

/-- R115: `prob = 0` answers 0 exactly where the window is 0, `prob = 255` answers 1 exactly where the window (below
`range`) is `range − 1`; either leaves `range` 1 for seven turns to double to 128. -/
def Obligations.ExtremeProbabilities : Prop :=
  ∀ (s : State) (rid : BitVec 4) (h : rid.toNat < 9),
    let r := s.readers[rid.toNat]
    r.valid = true → 128 ≤ r.range.toNat → r.bitsLeft.toNat ≤ 7 →
    (∃ t, exec (.brGetbit rid 0) s = .next t ∧ (t.res = 0 ↔ r.window = 0) ∧
      (t.res = 0 → (t.readers[rid.toNat]).range = 128 ∧ (t.readers[rid.toNat]).bitsLeft.toNat = (r.bitsLeft.toNat + 1) % 8)) ∧
      (r.window < r.range.toNat →
        ∃ t, exec (.brGetbit rid 255) s = .next t ∧ (t.res = 1 ↔ r.window = r.range.toNat - 1) ∧
          (t.res = 1 → (t.readers[rid.toNat]).range = 128 ∧
            (t.readers[rid.toNat]).bitsLeft.toNat = (r.bitsLeft.toNat + 1) % 8))

/-- R109: the words of `BR.BOOL`; `BR.BOOL rid` is identical in every effect to `BR.GETBIT rid, 128`, answering the bit
and putting it in `RES`; a context never started is ReaderInvalid. -/
def Obligations.BrBoolIsGetbit128 : Prop :=
  encodedAs 0x13 0x000FFFFFFFFFFFFF ridField (fun a _ _ => .brBool a) ∧
  ∀ (s : State) (rid : BitVec 4) (h : rid.toNat < 9),
    ((s.readers[rid.toNat]).valid = true →
      ∃ t, exec (.brBool rid) s = .next t ∧ exec (.brGetbit rid 128) s = .next t ∧ t.res.toNat ≤ 1 ∧
        t.resp = some (.ok t.res)) ∧
      ((s.readers[rid.toNat]).valid = false → raises (.brBool rid) .readerInvalid s)

/-- R110: the words of `BR.VALUE`; `BR.VALUE rid, n` is `n` successive `BR.BOOL rid`, the first bit the most significant, and answers a number
below `2^n`. -/
def Obligations.BrValueIsRepeatedBool : Prop :=
  encodedAs 0x14 0x000FFFE0FFFFFFFF ridCountFields (fun a c _ => .brValue a (BitVec.ofNat 5 c.toNat)) ∧
  ∀ (s : State) (rid : BitVec 4) (n : BitVec 5) (h : rid.toNat < 9), 1 ≤ n.toNat → n.toNat ≤ 24 →
    ((s.readers[rid.toNat]).valid = true →
      ∃ v u, boolRun rid n.toNat 0 s = some (v, u) ∧ v < 2 ^ n.toNat ∧
        exec (.brValue rid n) s = .next { u with res := BitVec.ofNat 32 v, resp := some (.ok (BitVec.ofNat 32 v)) }) ∧
      ((s.readers[rid.toNat]).valid = false → raises (.brValue rid n) .readerInvalid s)

/-- R111: the words of `BR.SIGNED`; `BR.SIGNED rid, n` is `n` successive `BR.BOOL rid` for the magnitude and one more for the sign, which
negates where it is 1; the result is two's complement in 32 bits. -/
def Obligations.BrSignedIsMagnitudeThenSign : Prop :=
  encodedAs 0x15 0x000FFFE0FFFFFFFF ridCountFields (fun a c _ => .brSigned a (BitVec.ofNat 5 c.toNat)) ∧
  ∀ (s : State) (rid : BitVec 4) (n : BitVec 5) (h : rid.toNat < 9), 1 ≤ n.toNat → n.toNat ≤ 24 →
    ((s.readers[rid.toNat]).valid = true →
      ∃ v u t, boolRun rid n.toNat 0 s = some (v, u) ∧ v < 2 ^ n.toNat ∧ exec (.brBool rid) u = .next t ∧
        let x : Word := BitVec.ofInt 32 (if t.res = 1 then -(v : Int) else v)
        exec (.brSigned rid n) s = .next { t with res := x, resp := some (.ok x) }) ∧
      ((s.readers[rid.toNat]).valid = false → raises (.brSigned rid n) .readerInvalid s)

/-- R108 to R111: a decode command on a context never started raises ReaderInvalid; `n` outside 1..24, or a `rid`
above 8, raises ReservedField. -/
def Obligations.DecodeNeedsAStartedReader : Prop :=
  ∀ (s : State) (rid : BitVec 4) (prob : Byte) (n : BitVec 5),
    (∀ h : rid.toNat < 9, (s.readers[rid.toNat]).valid = false →
      raises (.brGetbit rid prob) .readerInvalid s ∧ raises (.brBool rid) .readerInvalid s ∧
        (1 ≤ n.toNat ∧ n.toNat ≤ 24 →
          raises (.brValue rid n) .readerInvalid s ∧ raises (.brSigned rid n) .readerInvalid s)) ∧
      (n.toNat = 0 ∨ 24 < n.toNat → raises (.brValue rid n) .reservedField s ∧ raises (.brSigned rid n) .reservedField s) ∧
      (9 ≤ rid.toNat →
        raises (.brGetbit rid prob) .reservedField s ∧ raises (.brBool rid) .reservedField s ∧
          raises (.brValue rid n) .reservedField s ∧ raises (.brSigned rid n) .reservedField s ∧
          ∀ a : Word, raises (.brSetend rid a) .reservedField s ∧ raises (.brStart rid a) .reservedField s)

/-- R112: a span whose first byte is not 0xFF (or that is empty) starts its reader in the normal regime, which every
decode keeps; in it `value` stays below 2^15. -/
def Obligations.NormalRegimeIsKept : Prop :=
  ∀ (s : State) (rid : BitVec 4) (h : rid.toNat < 9),
    (∀ start : Word, start.toNat ≤ s.params.bsSize →
      (start.toNat < (s.readers[rid.toNat]).bound.toNat → s.bsByte start.toNat ≠ 0xFF) →
      ∃ t, exec (.brStart rid start) s = .next t ∧ (t.readers[rid.toNat]).normal ∧
        (t.readers[rid.toNat]).value.toNat < 2 ^ 15) ∧
      ∀ prob : Byte, (s.readers[rid.toNat]).valid = true → (s.readers[rid.toNat]).legal s.params →
        (s.readers[rid.toNat]).normal →
        ∃ t, exec (.brGetbit rid prob) s = .next t ∧ (t.readers[rid.toNat]).normal ∧
          (t.readers[rid.toNat]).value.toNat < 2 ^ 15

/-- R116(a): a reader whose window equals `range`, with nothing but zeros to come, decodes 1 for every probability
and stays so; a span that holds only the byte 0xFF starts such a reader. -/
def Obligations.OnlyByteFFDecodesOnes : Prop :=
  ∀ (s : State) (rid : BitVec 4) (h : rid.toNat < 9),
    (∀ start : Word, start.toNat < s.params.bsSize → (s.readers[rid.toNat]).bound.toNat = start.toNat + 1 →
      s.bsByte start.toNat = 0xFF →
      ∃ t, exec (.brStart rid start) s = .next t ∧
        (t.readers[rid.toNat]).value.toNat = (t.readers[rid.toNat]).range.toNat * 2 ^ (t.readers[rid.toNat]).bitsLeft.toNat ∧
        (t.readers[rid.toNat]).bound.toNat ≤ (t.readers[rid.toNat]).cursor.toNat) ∧
      ∀ prob : Byte, (s.readers[rid.toNat]).valid = true → (s.readers[rid.toNat]).legal s.params →
        (s.readers[rid.toNat]).value.toNat =
          (s.readers[rid.toNat]).range.toNat * 2 ^ (s.readers[rid.toNat]).bitsLeft.toNat →
        (s.readers[rid.toNat]).bound.toNat ≤ (s.readers[rid.toNat]).cursor.toNat →
        ∃ t, exec (.brGetbit rid prob) s = .next t ∧ t.res = 1 ∧
          (t.readers[rid.toNat]).value.toNat =
            (t.readers[rid.toNat]).range.toNat * 2 ^ (t.readers[rid.toNat]).bitsLeft.toNat ∧
          (t.readers[rid.toNat]).bound.toNat ≤ (t.readers[rid.toNat]).cursor.toNat

/-- R100, R21: a command on a context reads that context and BS only, and changes no other context. -/
def Obligations.ReadersAreIndependent : Prop :=
  ∀ (i : Instr) (rid : BitVec 4) (h : rid.toNat < 9), readerNamed i = some rid →
    (∀ s t : State, exec i s = .next t → ∀ q : Fin 9, (q : Nat) ≠ rid.toNat → t.readers[q] = s.readers[q]) ∧
      ∀ s s' t t' : State, s'.readers[rid.toNat] = s.readers[rid.toNat] → s'.params = s.params →
        (∀ a, s'.bsByte a = s.bsByte a) → exec i s = .next t → exec i s' = .next t' →
        t'.resp = t.resp ∧ t'.readers[rid.toNat] = t.readers[rid.toNat]

/-- R114: for every span whose first byte is not 0xFF, every start, every length and every list of probabilities,
`BR.START` and `BR.GETBIT` decode the bits, and pass through the ranges, of the doubling reader (the form of that
reader is the model's reading of R114, log entry 16). -/
def Obligations.DoublingReaderDecodesTheSameBits : Prop :=
  ∀ (s : State) (rid : BitVec 4) (start : Word) (probs : List Byte) (h : rid.toNat < 9),
    start.toNat ≤ s.params.bsSize → spanByte s.bsByte start.toNat (s.readers[rid.toNat]).bound.toNat 0 ≠ 255 →
    ∃ t, exec (.brStart rid start) s = .next t ∧
      getbitRun rid h probs t =
        some (Doubling.run (spanByte s.bsByte start.toNat (s.readers[rid.toNat]).bound.toNat) probs
          (Doubling.start (spanByte s.bsByte start.toNat (s.readers[rid.toNat]).bound.toNat)))

/-! ## XF unit (spec/42_inverse_transforms.md) -/

/-- R170, R171(b), R172: `XF.IWHT` stores the 16 Hadamard sums of its inputs, biased by 3, shifted by 3 and cut to 16
bits, 16 elements apart; nothing else changes; ranges that do not fit CM raise AddressRange. -/
def Obligations.XfIwhtStoresTheHadamardSums : Prop :=
  ∀ (s : State) (src : Half) (dst : Word),
    (src.toNat + 15 < s.params.cmWords ∧ dst.toNat + 240 < s.params.cmWords →
      ∃ m, exec (.xfIwht src dst) s = .next { s with cm := m, resp := some (.ok 0) } ∧
        (∀ x < 4, ∀ y < 4, ({ s with cm := m } : State).cmElem (dst.toNat + 16 * (4 * y + x)) =
          BitVec.ofInt 16 ((whtSum (fun k => (s.cmElem (src.toNat + k)).toInt) x y + 3) / 8)) ∧
        ∀ j, (∀ k < 16, j ≠ dst.toNat + 16 * k) → ({ s with cm := m } : State).cmElem j = s.cmElem j) ∧
      (s.params.cmWords ≤ src.toNat + 15 ∨ s.params.cmWords ≤ dst.toNat + 240 →
        raises (.xfIwht src dst) .addressRange s)

/-- R171(a): with only the first input nonzero every output is `(in[0] + 3) >> 3`. The range of R170 for 16-bit inputs:
every output lies in −65536..65535, and both ends are reached; the upper end is one above the 65534 that R171(c) names
(log entry 18). -/
def Obligations.IwhtBroadcastAndRange : Prop :=
  (∀ inp : Nat → Int, (∀ k, 1 ≤ k → k < 16 → inp k = 0) → ∀ k < 16, iwht inp k = (inp 0 + 3) / 8) ∧
    (∀ inp : Nat → Int, (∀ k < 16, -32768 ≤ inp k ∧ inp k ≤ 32767) →
      ∀ k < 16, -65536 ≤ iwht inp k ∧ iwht inp k ≤ 65535) ∧
    (∃ inp : Nat → Int, (∀ k < 16, -32768 ≤ inp k ∧ inp k ≤ 32767) ∧ ∃ k < 16, iwht inp k = 65535) ∧
    ∃ inp : Nat → Int, (∀ k < 16, -32768 ≤ inp k ∧ inp k ≤ 32767) ∧ ∃ k < 16, iwht inp k = -65536

/-- R173, R175, R176: `XF.IDCTADD` adds the residual of its 16 coefficients to the 4×4 block and clamps each sample;
CM, the registers and every other sample stay; ranges that do not fit raise AddressRange. -/
def Obligations.XfIdctaddAddsTheResidual : Prop :=
  ∀ (s : State) (src : Half) (A : Word),
    (src.toNat + 15 < s.params.cmWords ∧ A.toNat + 3 * s.stride.toNat + 3 < s.params.smSize →
      ∃ m, exec (.xfIdctadd src A) s = .next { s with sm := m, resp := some (.ok 0) } ∧
        holdsBlock 4 A.toNat s.stride.toNat
          (fun x y => clamp (smAt s ((A.toNat + y * s.stride.toNat + x : Nat) : Int) +
            idctResidual (fun k => (s.cmElem (src.toNat + k)).toInt) x y)) s m) ∧
      (s.params.cmWords ≤ src.toNat + 15 ∨ s.params.smSize ≤ A.toNat + 3 * s.stride.toNat + 3 →
        raises (.xfIdctadd src A) .addressRange s)

/-- R174(a), (b): with only the first coefficient nonzero every residual is `(in[0] + 4) >> 3`, so a block without
coefficients leaves the prediction as it is. -/
def Obligations.IdctOfOneCoefficientIsFlat : Prop :=
  ∀ inp : Nat → Int, (∀ k, 1 ≤ k → k < 16 → inp k = 0) →
    (∀ k < 16, idct inp k = (inp 0 + 4) / 8) ∧ (inp 0 = 0 → ∀ k < 16, idct inp k = 0)

/-! ## IP unit (spec/41_intra_prediction.md) -/

/-- R136, R149, R153: TM in its three sizes. -/
def Obligations.IpTmIsTheGradient : Prop :=
  (predicts 4 7 .ip4Tm fun X T L x y => clamp (T x + L y - X)) ∧
    (predicts 16 15 .ip16Tm fun X T L x y => clamp (T x + L y - X)) ∧
    predicts 8 7 .ip8Tm fun X T L x y => clamp (T x + L y - X)

/-- R146: `IP16.DC` with its edge variants. -/
def Obligations.Ip16DcAveragesTheEdgesPresent : Prop :=
  (predicts 16 15 (.ip16Dc false false) fun _ T L _ _ => (total 16 T + total 16 L + 16) / 32) ∧
    (predicts 16 15 (.ip16Dc true false) fun _ _ L _ _ => (total 16 L + 8) / 16) ∧
    (predicts 16 15 (.ip16Dc false true) fun _ T _ _ _ => (total 16 T + 8) / 16) ∧
    predicts 16 15 (.ip16Dc true true) fun _ _ _ _ _ => 128

/-- R150: `IP8.DC` with its edge variants. -/
def Obligations.Ip8DcAveragesTheEdgesPresent : Prop :=
  (predicts 8 7 (.ip8Dc false false) fun _ T L _ _ => (total 8 T + total 8 L + 8) / 16) ∧
    (predicts 8 7 (.ip8Dc true false) fun _ _ L _ _ => (total 8 L + 4) / 8) ∧
    (predicts 8 7 (.ip8Dc false true) fun _ T _ _ _ => (total 8 T + 4) / 8) ∧
    predicts 8 7 (.ip8Dc true true) fun _ _ _ _ _ => 128

/-- R147, R148, R151, R152: V copies the top row into each row, H the left column into each column. -/
def Obligations.IpVAndHCopyTheEdge : Prop :=
  (predicts 16 15 .ip16V fun _ T _ x _ => T x) ∧ (predicts 16 15 .ip16H fun _ _ L _ y => L y) ∧
    (predicts 8 7 .ip8V fun _ T _ x _ => T x) ∧ predicts 8 7 .ip8H fun _ _ L _ y => L y

/-- R135, R137, R138: `IP4.DC`, `IP4.VE`, `IP4.HE`. -/
def Obligations.Ip4DcVeHe : Prop :=
  (predicts 4 7 .ip4Dc fun _ T L _ _ => (T 0 + T 1 + T 2 + T 3 + L 0 + L 1 + L 2 + L 3 + 4) / 8) ∧
    (predicts 4 7 .ip4Ve fun X T _ x _ => if x = 0 then mean3 X (T 0) (T 1) else mean3 (T (x - 1)) (T x) (T (x + 1))) ∧
    predicts 4 7 .ip4He fun X _ L _ y =>
      if y = 0 then mean3 X (L 0) (L 1) else if y = 3 then mean3 (L 2) (L 3) (L 3) else mean3 (L (y - 1)) (L y) (L (y + 1))

/-- R139, R140: `IP4.LD` and `IP4.RD`, by the diagonals. -/
def Obligations.Ip4LdRdFollowTheDiagonals : Prop :=
  (predicts 4 7 .ip4Ld fun _ T _ x y =>
      if x + y = 6 then mean3 (T 6) (T 7) (T 7) else mean3 (T (x + y)) (T (x + y + 1)) (T (x + y + 2))) ∧
    predicts 4 7 .ip4Rd fun X T L x y =>
      if x = y then mean3 (T 0) X (L 0)
      else if x = y + 1 then mean3 (T 1) (T 0) X
      else if y + 1 < x then mean3 (T (x - y)) (T (x - y - 1)) (T (x - y - 2))
      else if y = x + 1 then mean3 X (L 0) (L 1)
      else mean3 (L (y - x - 2)) (L (y - x - 1)) (L (y - x))

/-- R141, R142: `IP4.VR` and `IP4.VL`, row by row. -/
def Obligations.Ip4VrVl : Prop :=
  (predicts 4 7 .ip4Vr fun X T L x y =>
      rows4
        [[mean2 X (T 0), mean2 (T 0) (T 1), mean2 (T 1) (T 2), mean2 (T 2) (T 3)],
          [mean3 (L 0) X (T 0), mean3 X (T 0) (T 1), mean3 (T 0) (T 1) (T 2), mean3 (T 1) (T 2) (T 3)],
          [mean3 (L 1) (L 0) X, mean2 X (T 0), mean2 (T 0) (T 1), mean2 (T 1) (T 2)],
          [mean3 (L 2) (L 1) (L 0), mean3 (L 0) X (T 0), mean3 X (T 0) (T 1), mean3 (T 0) (T 1) (T 2)]] x y) ∧
    predicts 4 7 .ip4Vl fun _ T _ x y =>
      rows4
        [[mean2 (T 0) (T 1), mean2 (T 1) (T 2), mean2 (T 2) (T 3), mean2 (T 3) (T 4)],
          [mean3 (T 0) (T 1) (T 2), mean3 (T 1) (T 2) (T 3), mean3 (T 2) (T 3) (T 4), mean3 (T 3) (T 4) (T 5)],
          [mean2 (T 1) (T 2), mean2 (T 2) (T 3), mean2 (T 3) (T 4), mean3 (T 4) (T 5) (T 6)],
          [mean3 (T 1) (T 2) (T 3), mean3 (T 2) (T 3) (T 4), mean3 (T 3) (T 4) (T 5), mean3 (T 5) (T 6) (T 7)]] x y

/-- R143, R144: `IP4.HD` and `IP4.HU`, row by row. -/
def Obligations.Ip4HdHu : Prop :=
  (predicts 4 7 .ip4Hd fun X T L x y =>
      rows4
        [[mean2 (L 0) X, mean3 (L 0) X (T 0), mean3 X (T 0) (T 1), mean3 (T 0) (T 1) (T 2)],
          [mean2 (L 1) (L 0), mean3 (L 1) (L 0) X, mean2 (L 0) X, mean3 (L 0) X (T 0)],
          [mean2 (L 2) (L 1), mean3 (L 2) (L 1) (L 0), mean2 (L 1) (L 0), mean3 (L 1) (L 0) X],
          [mean2 (L 3) (L 2), mean3 (L 3) (L 2) (L 1), mean2 (L 2) (L 1), mean3 (L 2) (L 1) (L 0)]] x y) ∧
    predicts 4 7 .ip4Hu fun _ _ L x y =>
      rows4
        [[mean2 (L 0) (L 1), mean3 (L 0) (L 1) (L 2), mean2 (L 1) (L 2), mean3 (L 1) (L 2) (L 3)],
          [mean2 (L 1) (L 2), mean3 (L 1) (L 2) (L 3), mean2 (L 2) (L 3), mean3 (L 2) (L 3) (L 3)],
          [mean2 (L 2) (L 3), mean3 (L 2) (L 3) (L 3), L 3, L 3], [L 3, L 3, L 3, L 3]] x y

/-! ## LF unit (spec/43_loop_filter.md) -/

/-- R191: `LF.SETUP` computes the three fields of `LFP` and changes nothing else. -/
def Obligations.LfSetupComputesLfp : Prop :=
  ∀ (s : State) (level : BitVec 6) (sharpness : BitVec 3),
    (level.toNat = 0 →
      exec (.lfSetup level sharpness) s =
        .next { s with lfp := { limit := 0, inner := 0, hev := 0 }, resp := some (.ok 0) }) ∧
      (level.toNat ≠ 0 →
        let shifted := if sharpness.toNat = 0 then level.toNat
          else if sharpness.toNat ≤ 4 then level.toNat >>> 1 else level.toNat >>> 2
        let ilevel := max 1 (if sharpness.toNat = 0 then shifted else min (9 - sharpness.toNat) shifted)
        ∃ l : Lfp, exec (.lfSetup level sharpness) s = .next { s with lfp := l, resp := some (.ok 0) } ∧
          l.limit.toNat = 2 * level.toNat + ilevel ∧ l.inner.toNat = ilevel ∧
          l.hev.toNat = if 40 ≤ level.toNat then 2 else if 15 ≤ level.toNat then 1 else 0)

/-- R194: the four edge commands check the whole span of the edge whatever `LFP` is, and then, with `LFP.limit` 0, do
nothing at all. -/
def Obligations.EdgeRangeIsCheckedFirst : Prop :=
  ∀ (s : State) (dir : Dir) (n : EdgeLength) (A : Word),
    (¬ edgeFits 2 16 dir A s → raises (.lfSmb dir A) .addressRange s ∧ raises (.lfSin dir A) .addressRange s) ∧
      (¬ edgeFits 4 (positions n) dir A s →
        raises (.lfNmb dir n A) .addressRange s ∧ raises (.lfNin dir n A) .addressRange s) ∧
      (s.lfp.limit = 0 → edgeFits 2 16 dir A s →
        exec (.lfSmb dir A) s = .next { s with resp := some (.ok 0) } ∧
          exec (.lfSin dir A) s = .next { s with resp := some (.ok 0) }) ∧
      (s.lfp.limit = 0 → edgeFits 4 (positions n) dir A s →
        exec (.lfNmb dir n A) s = .next { s with resp := some (.ok 0) } ∧
          exec (.lfNin dir n A) s = .next { s with resp := some (.ok 0) })

/-- R193, R195, R197, R201, R202: `LF.SMB` and `LF.SIN`, with the edge limits `limit + 4` and `limit`. -/
def Obligations.SimpleFilterOnBothEdges : Prop :=
  ∀ (s : State) (dir : Dir) (A : Word),
    filtersEdge 2 16 (.lfSmb dir A) dir A s (simpleWrites (s.lfp.limit.toNat + 4)) ∧
      filtersEdge 2 16 (.lfSin dir A) dir A s (simpleWrites s.lfp.limit.toNat)

/-- R193, R195 to R197, R199, R203: `LF.NMB`, with the edge limit `limit + 4` and the six-tap kernel. -/
def Obligations.NormalFilterOnMacroblockEdges : Prop :=
  ∀ (s : State) (dir : Dir) (n : EdgeLength) (A : Word),
    filtersEdge 4 (positions n) (.lfNmb dir n A) dir A s
      (normalWrites kernel6 (s.lfp.limit.toNat + 4) s.lfp.inner.toNat s.lfp.hev.toNat)

/-- R193, R195 to R198, R204: `LF.NIN`, with the edge limit `limit` and the four-tap kernel. -/
def Obligations.NormalFilterOnInnerEdges : Prop :=
  ∀ (s : State) (dir : Dir) (n : EdgeLength) (A : Word),
    filtersEdge 4 (positions n) (.lfNin dir n A) dir A s
      (normalWrites kernel4 s.lfp.limit.toNat s.lfp.inner.toNat s.lfp.hev.toNat)

/-- R200(c): an edge command that completes changes at most `p0, q0` (simple), `p1 .. q1` (`LF.NIN`), `p2 .. q2`
(`LF.NMB`) of each position, and no register. -/
def Obligations.EdgeCommandsStayNearTheEdge : Prop :=
  ∀ (s t : State) (dir : Dir) (n : EdgeLength) (A : Word), t.resp = some (.ok 0) →
    (exec (.lfSmb dir A) s = .next t ∨ exec (.lfSin dir A) s = .next t → onlyTapsChange (-1) 0 16 dir A s t) ∧
      (exec (.lfNin dir n A) s = .next t → onlyTapsChange (-2) 1 (positions n) dir A s t) ∧
      (exec (.lfNmb dir n A) s = .next t → onlyTapsChange (-3) 2 (positions n) dir A s t)

/-- R200(a): a flat line is unchanged by every edge command. -/
def Obligations.FlatLinesAreUnchanged : Prop :=
  ∀ (s : State) (dir : Dir) (n : EdgeLength) (A : Word),
    (edgeFits 2 16 dir A s → flatEdge (-2) 1 16 dir A s →
      leavesSamples (.lfSmb dir A) s ∧ leavesSamples (.lfSin dir A) s) ∧
      (edgeFits 4 (positions n) dir A s → flatEdge (-4) 3 (positions n) dir A s →
        leavesSamples (.lfNmb dir n A) s ∧ leavesSamples (.lfNin dir n A) s)

/-! ## The whole machine -/

/-- R243: a command word that answers `ERR` with cause `c`, whether it stands for a command or not, changes nothing but
the fault record: the cause code and the word itself are recorded where `STATUS.err` was 0, nothing at all where it
was 1. -/
def Obligations.FaultingCommandChangesOnlyTheRecord : Prop :=
  ∀ (s t : State) (w : Command) (rest : List HostInput) (c : Cause), s.inbox = .command w :: rest →
    step s = .next t → t.resp = some (.err c) → t = faulted { s with inbox := rest } c w

/-- R244: the record is first-fault and sticky. While `STATUS.err` is 1 no command word but `SYS.RESET` changes it, the
code of a later fault still goes back in its own response (the one the word would get with nothing recorded), and the
two resets clear it; a first fault records its own code and word. -/
def Obligations.FaultRecordIsFirstFaultAndSticky : Prop :=
  (∀ (s t : State) (w : Command) (rest : List HostInput), s.inbox = .command w :: rest → step s = .next t →
      (s.err = true → decode w ≠ .ok .sysReset → t.err = true ∧ t.cause = s.cause ∧ t.einfo = s.einfo) ∧
        (s.err = false → ∀ c, t.resp = some (.err c) → t.err = true ∧ t.cause.toNat = codeNumber c ∧ t.einfo = w) ∧
        (∀ t', step { s with err := false, cause := 0, einfo := 0 } = .next t' →
          ∀ c, t.resp = some (.err c) ↔ t'.resp = some (.err c)) ∧
        (decode w = .ok .sysReset → t.err = false ∧ t.cause = 0 ∧ t.einfo = 0)) ∧
    ∀ (s t : State) (rest : List HostInput), s.inbox = .hardReset :: rest → step s = .next t →
      t.err = false ∧ t.cause = 0 ∧ t.einfo = 0

/-- R246: which command can raise what. -/
def Obligations.CausesFollowTheCommandTable : Prop :=
  ∀ (i : Instr) (s t : State) (c : Cause), exec i s = .next t → t.resp = some (.err c) → c ∈ mayRaise i

/-- R246, R113: no fault depends on the contents of BS, CM or SM, on a decoded bit, or on an arithmetic result: the
sizes, `STRIDE` and the `valid` bits decide. -/
def Obligations.NoFaultDependsOnData : Prop :=
  ∀ (i : Instr) (s s' t t' : State), s'.params = s.params → s'.stride = s.stride →
    (∀ r : Fin 9, (s'.readers[r]).valid = (s.readers[r]).valid) → exec i s = .next t → exec i s' = .next t' →
    ∀ c : Cause, t.resp = some (.err c) ↔ t'.resp = some (.err c)

/-- R23, R76: `RES` is written by the commands that answer data, with the word of the response, and by `SYS.RESET`; every
other command, and every faulting one, leaves it, and a command that answers no data answers 0. -/
def Obligations.ResHoldsTheLastAnswer : Prop :=
  ∀ (i : Instr) (s t : State), exec i s = .next t →
    (answersData i = true → ∀ v, t.resp = some (.ok v) → t.res = v) ∧
      (answersData i = false → ∀ v, t.resp = some (.ok v) → v = 0) ∧
      (answersData i = false → i ≠ .sysReset → t.res = s.res) ∧ ∀ c, t.resp = some (.err c) → t.res = s.res

/-- R20, R50, R51: what each kind of command may change. No command changes BS, the sizes or what the host has
presented; `STRIDE`, `LFP`, the readers, CM and SM change only by the commands that write them. -/
def Obligations.CommandsChangeOnlyTheirState : Prop :=
  ∀ (i : Instr) (s t : State), exec i s = .next t →
    (t.bs = s.bs ∧ t.params = s.params ∧ t.epoch = s.epoch ∧ t.inbox = s.inbox) ∧
      ((∀ n v, i ≠ .sysWrc n v) → i ≠ .sysReset → t.stride = s.stride) ∧
      ((∀ n v, i ≠ .sysWrc n v) → (∀ l h, i ≠ .lfSetup l h) → i ≠ .sysReset → t.lfp = s.lfp) ∧
      (readerNamed i = none → i ≠ .sysReset → t.readers = s.readers) ∧
      ((∀ v k, i ≠ .memStc v k) → (∀ a b, i ≠ .xfIwht a b) → t.cm = s.cm) ∧
      (storesSamples i = false → t.sm = s.sm)

/-- The invariant of Safety.lean (R7, R21, R22, R24, R25, the canonical form of the memories) holds after reset. -/
def Obligations.ResetMeetsTheInvariant : Prop := State.reset.Inv

/-- Every step keeps the invariant: legal readers (R22, R112: `range` 128..255 and `bits_left` 0..7 after every call),
`STRIDE` in 1..65535, a legal fault record, and memories in canonical form inside their spaces. -/
def Obligations.EveryStepKeepsTheInvariant : Prop :=
  ∀ s t : State, s.Inv → step s = .next t → t.Inv
end

