-- ==== Sys2Proof/Laws/State.lean ====
section
/-! SUPPORT. One lemma per field of `State` per named update of Machine/Ops.lean, so that no later proof unfolds a
record update. -/

namespace Sys2Proof.Machine

/-! ### `State.setSm` -/

@[simp] theorem State.setSm_readers (s : State) (a : Nat) (v : Byte) : (s.setSm a v).readers = s.readers := rfl
@[simp] theorem State.setSm_res (s : State) (a : Nat) (v : Byte) : (s.setSm a v).res = s.res := rfl
@[simp] theorem State.setSm_err (s : State) (a : Nat) (v : Byte) : (s.setSm a v).err = s.err := rfl
@[simp] theorem State.setSm_cause (s : State) (a : Nat) (v : Byte) : (s.setSm a v).cause = s.cause := rfl
@[simp] theorem State.setSm_einfo (s : State) (a : Nat) (v : Byte) : (s.setSm a v).einfo = s.einfo := rfl
@[simp] theorem State.setSm_stride (s : State) (a : Nat) (v : Byte) : (s.setSm a v).stride = s.stride := rfl
@[simp] theorem State.setSm_lfp (s : State) (a : Nat) (v : Byte) : (s.setSm a v).lfp = s.lfp := rfl
@[simp] theorem State.setSm_bs (s : State) (a : Nat) (v : Byte) : (s.setSm a v).bs = s.bs := rfl
@[simp] theorem State.setSm_cm (s : State) (a : Nat) (v : Byte) : (s.setSm a v).cm = s.cm := rfl
@[simp] theorem State.setSm_sm (s : State) (a : Nat) (v : Byte) : (s.setSm a v).sm = Mem.set s.sm a v := rfl
@[simp] theorem State.setSm_params (s : State) (a : Nat) (v : Byte) : (s.setSm a v).params = s.params := rfl
@[simp] theorem State.setSm_epoch (s : State) (a : Nat) (v : Byte) : (s.setSm a v).epoch = s.epoch := rfl
@[simp] theorem State.setSm_inbox (s : State) (a : Nat) (v : Byte) : (s.setSm a v).inbox = s.inbox := rfl
@[simp] theorem State.setSm_resp (s : State) (a : Nat) (v : Byte) : (s.setSm a v).resp = s.resp := rfl

/-! ### `State.setCm` -/

@[simp] theorem State.setCm_readers (s : State) (i : Nat) (v : Half) : (s.setCm i v).readers = s.readers := rfl
@[simp] theorem State.setCm_res (s : State) (i : Nat) (v : Half) : (s.setCm i v).res = s.res := rfl
@[simp] theorem State.setCm_err (s : State) (i : Nat) (v : Half) : (s.setCm i v).err = s.err := rfl
@[simp] theorem State.setCm_cause (s : State) (i : Nat) (v : Half) : (s.setCm i v).cause = s.cause := rfl
@[simp] theorem State.setCm_einfo (s : State) (i : Nat) (v : Half) : (s.setCm i v).einfo = s.einfo := rfl
@[simp] theorem State.setCm_stride (s : State) (i : Nat) (v : Half) : (s.setCm i v).stride = s.stride := rfl
@[simp] theorem State.setCm_lfp (s : State) (i : Nat) (v : Half) : (s.setCm i v).lfp = s.lfp := rfl
@[simp] theorem State.setCm_bs (s : State) (i : Nat) (v : Half) : (s.setCm i v).bs = s.bs := rfl
@[simp] theorem State.setCm_cm (s : State) (i : Nat) (v : Half) : (s.setCm i v).cm = Mem.set s.cm i v := rfl
@[simp] theorem State.setCm_sm (s : State) (i : Nat) (v : Half) : (s.setCm i v).sm = s.sm := rfl
@[simp] theorem State.setCm_params (s : State) (i : Nat) (v : Half) : (s.setCm i v).params = s.params := rfl
@[simp] theorem State.setCm_epoch (s : State) (i : Nat) (v : Half) : (s.setCm i v).epoch = s.epoch := rfl
@[simp] theorem State.setCm_inbox (s : State) (i : Nat) (v : Half) : (s.setCm i v).inbox = s.inbox := rfl
@[simp] theorem State.setCm_resp (s : State) (i : Nat) (v : Half) : (s.setCm i v).resp = s.resp := rfl

/-! ### `State.setReader` -/

@[simp] theorem State.setReader_readers (s : State) (r : Fin 9) (b : Reader) : (s.setReader r b).readers = s.readers.set r b := rfl
@[simp] theorem State.setReader_res (s : State) (r : Fin 9) (b : Reader) : (s.setReader r b).res = s.res := rfl
@[simp] theorem State.setReader_err (s : State) (r : Fin 9) (b : Reader) : (s.setReader r b).err = s.err := rfl
@[simp] theorem State.setReader_cause (s : State) (r : Fin 9) (b : Reader) : (s.setReader r b).cause = s.cause := rfl
@[simp] theorem State.setReader_einfo (s : State) (r : Fin 9) (b : Reader) : (s.setReader r b).einfo = s.einfo := rfl
@[simp] theorem State.setReader_stride (s : State) (r : Fin 9) (b : Reader) : (s.setReader r b).stride = s.stride := rfl
@[simp] theorem State.setReader_lfp (s : State) (r : Fin 9) (b : Reader) : (s.setReader r b).lfp = s.lfp := rfl
@[simp] theorem State.setReader_bs (s : State) (r : Fin 9) (b : Reader) : (s.setReader r b).bs = s.bs := rfl
@[simp] theorem State.setReader_cm (s : State) (r : Fin 9) (b : Reader) : (s.setReader r b).cm = s.cm := rfl
@[simp] theorem State.setReader_sm (s : State) (r : Fin 9) (b : Reader) : (s.setReader r b).sm = s.sm := rfl
@[simp] theorem State.setReader_params (s : State) (r : Fin 9) (b : Reader) : (s.setReader r b).params = s.params := rfl
@[simp] theorem State.setReader_epoch (s : State) (r : Fin 9) (b : Reader) : (s.setReader r b).epoch = s.epoch := rfl
@[simp] theorem State.setReader_inbox (s : State) (r : Fin 9) (b : Reader) : (s.setReader r b).inbox = s.inbox := rfl
@[simp] theorem State.setReader_resp (s : State) (r : Fin 9) (b : Reader) : (s.setReader r b).resp = s.resp := rfl

/-! ### `State.setStride` -/

@[simp] theorem State.setStride_readers (s : State) (v : Half) : (s.setStride v).readers = s.readers := rfl
@[simp] theorem State.setStride_res (s : State) (v : Half) : (s.setStride v).res = s.res := rfl
@[simp] theorem State.setStride_err (s : State) (v : Half) : (s.setStride v).err = s.err := rfl
@[simp] theorem State.setStride_cause (s : State) (v : Half) : (s.setStride v).cause = s.cause := rfl
@[simp] theorem State.setStride_einfo (s : State) (v : Half) : (s.setStride v).einfo = s.einfo := rfl
@[simp] theorem State.setStride_stride (s : State) (v : Half) : (s.setStride v).stride = v := rfl
@[simp] theorem State.setStride_lfp (s : State) (v : Half) : (s.setStride v).lfp = s.lfp := rfl
@[simp] theorem State.setStride_bs (s : State) (v : Half) : (s.setStride v).bs = s.bs := rfl
@[simp] theorem State.setStride_cm (s : State) (v : Half) : (s.setStride v).cm = s.cm := rfl
@[simp] theorem State.setStride_sm (s : State) (v : Half) : (s.setStride v).sm = s.sm := rfl
@[simp] theorem State.setStride_params (s : State) (v : Half) : (s.setStride v).params = s.params := rfl
@[simp] theorem State.setStride_epoch (s : State) (v : Half) : (s.setStride v).epoch = s.epoch := rfl
@[simp] theorem State.setStride_inbox (s : State) (v : Half) : (s.setStride v).inbox = s.inbox := rfl
@[simp] theorem State.setStride_resp (s : State) (v : Half) : (s.setStride v).resp = s.resp := rfl

/-! ### `State.setLfp` -/

@[simp] theorem State.setLfp_readers (s : State) (v : Lfp) : (s.setLfp v).readers = s.readers := rfl
@[simp] theorem State.setLfp_res (s : State) (v : Lfp) : (s.setLfp v).res = s.res := rfl
@[simp] theorem State.setLfp_err (s : State) (v : Lfp) : (s.setLfp v).err = s.err := rfl
@[simp] theorem State.setLfp_cause (s : State) (v : Lfp) : (s.setLfp v).cause = s.cause := rfl
@[simp] theorem State.setLfp_einfo (s : State) (v : Lfp) : (s.setLfp v).einfo = s.einfo := rfl
@[simp] theorem State.setLfp_stride (s : State) (v : Lfp) : (s.setLfp v).stride = s.stride := rfl
@[simp] theorem State.setLfp_lfp (s : State) (v : Lfp) : (s.setLfp v).lfp = v := rfl
@[simp] theorem State.setLfp_bs (s : State) (v : Lfp) : (s.setLfp v).bs = s.bs := rfl
@[simp] theorem State.setLfp_cm (s : State) (v : Lfp) : (s.setLfp v).cm = s.cm := rfl
@[simp] theorem State.setLfp_sm (s : State) (v : Lfp) : (s.setLfp v).sm = s.sm := rfl
@[simp] theorem State.setLfp_params (s : State) (v : Lfp) : (s.setLfp v).params = s.params := rfl
@[simp] theorem State.setLfp_epoch (s : State) (v : Lfp) : (s.setLfp v).epoch = s.epoch := rfl
@[simp] theorem State.setLfp_inbox (s : State) (v : Lfp) : (s.setLfp v).inbox = s.inbox := rfl
@[simp] theorem State.setLfp_resp (s : State) (v : Lfp) : (s.setLfp v).resp = s.resp := rfl

/-! ### `State.respond` -/

@[simp] theorem State.respond_readers (s : State) (d : Word) : (s.respond d).readers = s.readers := rfl
@[simp] theorem State.respond_res (s : State) (d : Word) : (s.respond d).res = s.res := rfl
@[simp] theorem State.respond_err (s : State) (d : Word) : (s.respond d).err = s.err := rfl
@[simp] theorem State.respond_cause (s : State) (d : Word) : (s.respond d).cause = s.cause := rfl
@[simp] theorem State.respond_einfo (s : State) (d : Word) : (s.respond d).einfo = s.einfo := rfl
@[simp] theorem State.respond_stride (s : State) (d : Word) : (s.respond d).stride = s.stride := rfl
@[simp] theorem State.respond_lfp (s : State) (d : Word) : (s.respond d).lfp = s.lfp := rfl
@[simp] theorem State.respond_bs (s : State) (d : Word) : (s.respond d).bs = s.bs := rfl
@[simp] theorem State.respond_cm (s : State) (d : Word) : (s.respond d).cm = s.cm := rfl
@[simp] theorem State.respond_sm (s : State) (d : Word) : (s.respond d).sm = s.sm := rfl
@[simp] theorem State.respond_params (s : State) (d : Word) : (s.respond d).params = s.params := rfl
@[simp] theorem State.respond_epoch (s : State) (d : Word) : (s.respond d).epoch = s.epoch := rfl
@[simp] theorem State.respond_inbox (s : State) (d : Word) : (s.respond d).inbox = s.inbox := rfl
@[simp] theorem State.respond_resp (s : State) (d : Word) : (s.respond d).resp = some (.ok d) := rfl

/-! ### `State.answer` -/

@[simp] theorem State.answer_readers (s : State) (d : Word) : (s.answer d).readers = s.readers := rfl
@[simp] theorem State.answer_res (s : State) (d : Word) : (s.answer d).res = d := rfl
@[simp] theorem State.answer_err (s : State) (d : Word) : (s.answer d).err = s.err := rfl
@[simp] theorem State.answer_cause (s : State) (d : Word) : (s.answer d).cause = s.cause := rfl
@[simp] theorem State.answer_einfo (s : State) (d : Word) : (s.answer d).einfo = s.einfo := rfl
@[simp] theorem State.answer_stride (s : State) (d : Word) : (s.answer d).stride = s.stride := rfl
@[simp] theorem State.answer_lfp (s : State) (d : Word) : (s.answer d).lfp = s.lfp := rfl
@[simp] theorem State.answer_bs (s : State) (d : Word) : (s.answer d).bs = s.bs := rfl
@[simp] theorem State.answer_cm (s : State) (d : Word) : (s.answer d).cm = s.cm := rfl
@[simp] theorem State.answer_sm (s : State) (d : Word) : (s.answer d).sm = s.sm := rfl
@[simp] theorem State.answer_params (s : State) (d : Word) : (s.answer d).params = s.params := rfl
@[simp] theorem State.answer_epoch (s : State) (d : Word) : (s.answer d).epoch = s.epoch := rfl
@[simp] theorem State.answer_inbox (s : State) (d : Word) : (s.answer d).inbox = s.inbox := rfl
@[simp] theorem State.answer_resp (s : State) (d : Word) : (s.answer d).resp = some (.ok d) := rfl

/-! ### `State.writeSamples` -/

@[simp] theorem State.writeSamples_readers (s : State) (w : List (Int × Int)) : (s.writeSamples w).readers = s.readers := rfl
@[simp] theorem State.writeSamples_res (s : State) (w : List (Int × Int)) : (s.writeSamples w).res = s.res := rfl
@[simp] theorem State.writeSamples_err (s : State) (w : List (Int × Int)) : (s.writeSamples w).err = s.err := rfl
@[simp] theorem State.writeSamples_cause (s : State) (w : List (Int × Int)) : (s.writeSamples w).cause = s.cause := rfl
@[simp] theorem State.writeSamples_einfo (s : State) (w : List (Int × Int)) : (s.writeSamples w).einfo = s.einfo := rfl
@[simp] theorem State.writeSamples_stride (s : State) (w : List (Int × Int)) : (s.writeSamples w).stride = s.stride := rfl
@[simp] theorem State.writeSamples_lfp (s : State) (w : List (Int × Int)) : (s.writeSamples w).lfp = s.lfp := rfl
@[simp] theorem State.writeSamples_bs (s : State) (w : List (Int × Int)) : (s.writeSamples w).bs = s.bs := rfl
@[simp] theorem State.writeSamples_cm (s : State) (w : List (Int × Int)) : (s.writeSamples w).cm = s.cm := rfl
@[simp] theorem State.writeSamples_sm (s : State) (w : List (Int × Int)) : (s.writeSamples w).sm = Mem.setAll s.sm (w.map fun x => (x.1.toNat, BitVec.ofInt 8 x.2)) := rfl
@[simp] theorem State.writeSamples_params (s : State) (w : List (Int × Int)) : (s.writeSamples w).params = s.params := rfl
@[simp] theorem State.writeSamples_epoch (s : State) (w : List (Int × Int)) : (s.writeSamples w).epoch = s.epoch := rfl
@[simp] theorem State.writeSamples_inbox (s : State) (w : List (Int × Int)) : (s.writeSamples w).inbox = s.inbox := rfl
@[simp] theorem State.writeSamples_resp (s : State) (w : List (Int × Int)) : (s.writeSamples w).resp = s.resp := rfl

/-! ### `State.writeCoeffs` -/

@[simp] theorem State.writeCoeffs_readers (s : State) (w : List (Nat × Int)) : (s.writeCoeffs w).readers = s.readers := rfl
@[simp] theorem State.writeCoeffs_res (s : State) (w : List (Nat × Int)) : (s.writeCoeffs w).res = s.res := rfl
@[simp] theorem State.writeCoeffs_err (s : State) (w : List (Nat × Int)) : (s.writeCoeffs w).err = s.err := rfl
@[simp] theorem State.writeCoeffs_cause (s : State) (w : List (Nat × Int)) : (s.writeCoeffs w).cause = s.cause := rfl
@[simp] theorem State.writeCoeffs_einfo (s : State) (w : List (Nat × Int)) : (s.writeCoeffs w).einfo = s.einfo := rfl
@[simp] theorem State.writeCoeffs_stride (s : State) (w : List (Nat × Int)) : (s.writeCoeffs w).stride = s.stride := rfl
@[simp] theorem State.writeCoeffs_lfp (s : State) (w : List (Nat × Int)) : (s.writeCoeffs w).lfp = s.lfp := rfl
@[simp] theorem State.writeCoeffs_bs (s : State) (w : List (Nat × Int)) : (s.writeCoeffs w).bs = s.bs := rfl
@[simp] theorem State.writeCoeffs_cm (s : State) (w : List (Nat × Int)) : (s.writeCoeffs w).cm = Mem.setAll s.cm (w.map fun x => (x.1, BitVec.ofInt 16 x.2)) := rfl
@[simp] theorem State.writeCoeffs_sm (s : State) (w : List (Nat × Int)) : (s.writeCoeffs w).sm = s.sm := rfl
@[simp] theorem State.writeCoeffs_params (s : State) (w : List (Nat × Int)) : (s.writeCoeffs w).params = s.params := rfl
@[simp] theorem State.writeCoeffs_epoch (s : State) (w : List (Nat × Int)) : (s.writeCoeffs w).epoch = s.epoch := rfl
@[simp] theorem State.writeCoeffs_inbox (s : State) (w : List (Nat × Int)) : (s.writeCoeffs w).inbox = s.inbox := rfl
@[simp] theorem State.writeCoeffs_resp (s : State) (w : List (Nat × Int)) : (s.writeCoeffs w).resp = s.resp := rfl

/-! ### `State.loadBs` -/

@[simp] theorem State.loadBs_readers (s : State) (addr : Nat) (bytes : List Byte) : (s.loadBs addr bytes).readers = s.readers := rfl
@[simp] theorem State.loadBs_res (s : State) (addr : Nat) (bytes : List Byte) : (s.loadBs addr bytes).res = s.res := rfl
@[simp] theorem State.loadBs_err (s : State) (addr : Nat) (bytes : List Byte) : (s.loadBs addr bytes).err = s.err := rfl
@[simp] theorem State.loadBs_cause (s : State) (addr : Nat) (bytes : List Byte) : (s.loadBs addr bytes).cause = s.cause := rfl
@[simp] theorem State.loadBs_einfo (s : State) (addr : Nat) (bytes : List Byte) : (s.loadBs addr bytes).einfo = s.einfo := rfl
@[simp] theorem State.loadBs_stride (s : State) (addr : Nat) (bytes : List Byte) : (s.loadBs addr bytes).stride = s.stride := rfl
@[simp] theorem State.loadBs_lfp (s : State) (addr : Nat) (bytes : List Byte) : (s.loadBs addr bytes).lfp = s.lfp := rfl
@[simp] theorem State.loadBs_bs (s : State) (addr : Nat) (bytes : List Byte) : (s.loadBs addr bytes).bs = Mem.setAll s.bs (bytes.zipIdx.map fun x => (addr + x.2, x.1)) := rfl
@[simp] theorem State.loadBs_cm (s : State) (addr : Nat) (bytes : List Byte) : (s.loadBs addr bytes).cm = s.cm := rfl
@[simp] theorem State.loadBs_sm (s : State) (addr : Nat) (bytes : List Byte) : (s.loadBs addr bytes).sm = s.sm := rfl
@[simp] theorem State.loadBs_params (s : State) (addr : Nat) (bytes : List Byte) : (s.loadBs addr bytes).params = s.params := rfl
@[simp] theorem State.loadBs_epoch (s : State) (addr : Nat) (bytes : List Byte) : (s.loadBs addr bytes).epoch = s.epoch := rfl
@[simp] theorem State.loadBs_inbox (s : State) (addr : Nat) (bytes : List Byte) : (s.loadBs addr bytes).inbox = s.inbox := rfl
@[simp] theorem State.loadBs_resp (s : State) (addr : Nat) (bytes : List Byte) : (s.loadBs addr bytes).resp = s.resp := rfl

/-! ### `State.resetRegisters` -/

@[simp] theorem State.resetRegisters_readers (s : State) : (s.resetRegisters).readers = Vector.replicate 9 Reader.reset := rfl
@[simp] theorem State.resetRegisters_res (s : State) : (s.resetRegisters).res = 0 := rfl
@[simp] theorem State.resetRegisters_err (s : State) : (s.resetRegisters).err = false := rfl
@[simp] theorem State.resetRegisters_cause (s : State) : (s.resetRegisters).cause = 0 := rfl
@[simp] theorem State.resetRegisters_einfo (s : State) : (s.resetRegisters).einfo = 0 := rfl
@[simp] theorem State.resetRegisters_stride (s : State) : (s.resetRegisters).stride = 32 := rfl
@[simp] theorem State.resetRegisters_lfp (s : State) : (s.resetRegisters).lfp = { limit := 0, inner := 0, hev := 0 } := rfl
@[simp] theorem State.resetRegisters_bs (s : State) : (s.resetRegisters).bs = s.bs := rfl
@[simp] theorem State.resetRegisters_cm (s : State) : (s.resetRegisters).cm = s.cm := rfl
@[simp] theorem State.resetRegisters_sm (s : State) : (s.resetRegisters).sm = s.sm := rfl
@[simp] theorem State.resetRegisters_params (s : State) : (s.resetRegisters).params = s.params := rfl
@[simp] theorem State.resetRegisters_epoch (s : State) : (s.resetRegisters).epoch = s.epoch := rfl
@[simp] theorem State.resetRegisters_inbox (s : State) : (s.resetRegisters).inbox = s.inbox := rfl
@[simp] theorem State.resetRegisters_resp (s : State) : (s.resetRegisters).resp = s.resp := rfl

/-! ### `State.hardReset` -/

@[simp] theorem State.hardReset_readers (s : State) : (s.hardReset).readers = Vector.replicate 9 Reader.reset := rfl
@[simp] theorem State.hardReset_res (s : State) : (s.hardReset).res = 0 := rfl
@[simp] theorem State.hardReset_err (s : State) : (s.hardReset).err = false := rfl
@[simp] theorem State.hardReset_cause (s : State) : (s.hardReset).cause = 0 := rfl
@[simp] theorem State.hardReset_einfo (s : State) : (s.hardReset).einfo = 0 := rfl
@[simp] theorem State.hardReset_stride (s : State) : (s.hardReset).stride = 32 := rfl
@[simp] theorem State.hardReset_lfp (s : State) : (s.hardReset).lfp = { limit := 0, inner := 0, hev := 0 } := rfl
@[simp] theorem State.hardReset_bs (s : State) : (s.hardReset).bs = [] := rfl
@[simp] theorem State.hardReset_cm (s : State) : (s.hardReset).cm = [] := rfl
@[simp] theorem State.hardReset_sm (s : State) : (s.hardReset).sm = [] := rfl
@[simp] theorem State.hardReset_params (s : State) : (s.hardReset).params = s.params := rfl
@[simp] theorem State.hardReset_epoch (s : State) : (s.hardReset).epoch = s.epoch + 1 := rfl
@[simp] theorem State.hardReset_inbox (s : State) : (s.hardReset).inbox = s.inbox := rfl
@[simp] theorem State.hardReset_resp (s : State) : (s.hardReset).resp = none := rfl

/-! ### `raise` -/

@[simp] theorem raise_readers (c : Cause) (w : Command) (s : State) : (raise c w s).readers = s.readers := by
  unfold raise; split <;> rfl
@[simp] theorem raise_res (c : Cause) (w : Command) (s : State) : (raise c w s).res = s.res := by
  unfold raise; split <;> rfl
@[simp] theorem raise_stride (c : Cause) (w : Command) (s : State) : (raise c w s).stride = s.stride := by
  unfold raise; split <;> rfl
@[simp] theorem raise_lfp (c : Cause) (w : Command) (s : State) : (raise c w s).lfp = s.lfp := by
  unfold raise; split <;> rfl
@[simp] theorem raise_bs (c : Cause) (w : Command) (s : State) : (raise c w s).bs = s.bs := by
  unfold raise; split <;> rfl
@[simp] theorem raise_cm (c : Cause) (w : Command) (s : State) : (raise c w s).cm = s.cm := by
  unfold raise; split <;> rfl
@[simp] theorem raise_sm (c : Cause) (w : Command) (s : State) : (raise c w s).sm = s.sm := by
  unfold raise; split <;> rfl
@[simp] theorem raise_params (c : Cause) (w : Command) (s : State) : (raise c w s).params = s.params := by
  unfold raise; split <;> rfl
@[simp] theorem raise_epoch (c : Cause) (w : Command) (s : State) : (raise c w s).epoch = s.epoch := by
  unfold raise; split <;> rfl
@[simp] theorem raise_inbox (c : Cause) (w : Command) (s : State) : (raise c w s).inbox = s.inbox := by
  unfold raise; split <;> rfl
@[simp] theorem raise_err (c : Cause) (w : Command) (s : State) : (raise c w s).err = true := by
  unfold raise; split <;> simp_all
@[simp] theorem raise_resp (c : Cause) (w : Command) (s : State) : (raise c w s).resp = some (.err c) := by
  unfold raise; split <;> rfl
theorem raise_cause (c : Cause) (w : Command) (s : State) :
    (raise c w s).cause = if s.err then s.cause else c.code := by
  unfold raise; split <;> rfl
theorem raise_einfo (c : Cause) (w : Command) (s : State) :
    (raise c w s).einfo = if s.err then s.einfo else w := by
  unfold raise; split <;> rfl

/-! ### Readers -/

@[simp] theorem State.reader_setReader_self (s : State) (r : Fin 9) (b : Reader) : (s.setReader r b).reader r = b := by
  simp [State.reader]

theorem State.reader_setReader_ne (s : State) (r q : Fin 9) (b : Reader) (h : q ≠ r) :
    (s.setReader r b).reader q = s.reader q := by
  have : (r : Nat) ≠ q := fun e => h (Fin.ext e.symm)
  simp [State.reader, Vector.getElem_set_ne, this]

theorem State.reader_congr {s t : State} (h : t.readers = s.readers) (r : Fin 9) : t.reader r = s.reader r := by
  simp [State.reader, h]

@[simp] theorem State.reader_resetRegisters (s : State) (r : Fin 9) : s.resetRegisters.reader r = Reader.reset := by
  simp [State.reader]

@[simp] theorem State.reader_hardReset (s : State) (r : Fin 9) : s.hardReset.reader r = Reader.reset := by
  simp [State.reader]

end Sys2Proof.Machine
end

