-- ==== Sys2Proof/Laws/Memory.lean ====
section
/-! SUPPORT. The laws of the three memories: a read after a write, writes elsewhere, and that every memory
operation keeps the canonical form and stays inside its space. -/

namespace Sys2Proof.Machine

variable {width : Nat}

/-! ### One location -/

@[simp] theorem Mem.get?_set_self (m : Mem width) (a : Nat) (v : BitVec width) : Mem.get? (Mem.set m a v) a = some v := by
  induction m with
  | nil => simp [Mem.set, Mem.get?]
  | cons x rest ih =>
    obtain ⟨b, u⟩ := x
    simp only [Mem.set]
    split
    · simp [Mem.get?]
    · split
      · simp [Mem.get?]
      · next hne => simp [Mem.get?, hne, ih]

theorem Mem.get?_set_ne (m : Mem width) {a c : Nat} (v : BitVec width) (h : c ≠ a) :
    Mem.get? (Mem.set m a v) c = Mem.get? m c := by
  induction m with
  | nil => simp [Mem.set, Mem.get?, h]
  | cons x rest ih =>
    obtain ⟨b, u⟩ := x
    simp only [Mem.set]
    split
    · simp [Mem.get?, h]
    · split
      · next he => subst he; simp [Mem.get?, h]
      · simp [Mem.get?, ih]

theorem Mem.get?_set (m : Mem width) (a c : Nat) (v : BitVec width) :
    Mem.get? (Mem.set m a v) c = if c = a then some v else Mem.get? m c := by
  split
  · next h => subst h; simp
  · next h => exact Mem.get?_set_ne m v h

theorem Mem.mem_set {m : Mem width} {a : Nat} {v : BitVec width} {x : Nat × BitVec width} (h : x ∈ Mem.set m a v) :
    x = (a, v) ∨ x ∈ m := by
  induction m with
  | nil => simpa [Mem.set] using h
  | cons y rest ih =>
    obtain ⟨b, u⟩ := y
    simp only [Mem.set] at h
    split at h
    · simpa using h
    · split at h
      · rcases List.mem_cons.1 h with h | h
        · exact .inl h
        · exact .inr (List.mem_cons_of_mem _ h)
      · rcases List.mem_cons.1 h with h | h
        · exact .inr (h ▸ List.mem_cons_self)
        · exact (ih h).imp id (List.mem_cons_of_mem _)

theorem Mem.wf_set {m : Mem width} (a : Nat) (v : BitVec width) (h : Mem.wf m) : Mem.wf (Mem.set m a v) := by
  induction m with
  | nil => simp [Mem.set]
  | cons y rest ih =>
    obtain ⟨b, u⟩ := y
    have hb := (List.pairwise_cons.1 h).1
    have hr := (List.pairwise_cons.1 h).2
    simp only [Mem.set]
    split
    · next hlt =>
      refine List.pairwise_cons.2 ⟨fun x hx => ?_, h⟩
      rcases List.mem_cons.1 hx with rfl | hx
      · exact hlt
      · exact Nat.lt_trans hlt (hb x hx)
    · next hge =>
      split
      · next he => subst he; exact List.pairwise_cons.2 ⟨hb, hr⟩
      · next hne =>
        refine List.pairwise_cons.2 ⟨fun x hx => ?_, ih hr⟩
        rcases Mem.mem_set hx with rfl | hx
        · show b < a
          omega
        · exact hb x hx

theorem Mem.inside_set {m : Mem width} {a size : Nat} (v : BitVec width) (h : Mem.inside m size) (ha : a < size) :
    Mem.inside (Mem.set m a v) size := by
  intro x hx
  rcases Mem.mem_set hx with rfl | hx
  · exact ha
  · exact h x hx

/-! ### A list of writes -/

@[simp] theorem Mem.setAll_nil (m : Mem width) : Mem.setAll m [] = m := rfl

@[simp] theorem Mem.setAll_cons (m : Mem width) (x : Nat × BitVec width) (ws : List (Nat × BitVec width)) :
    Mem.setAll m (x :: ws) = Mem.setAll (Mem.set m x.1 x.2) ws := rfl

theorem Mem.setAll_append (m : Mem width) (ws ws' : List (Nat × BitVec width)) :
    Mem.setAll m (ws ++ ws') = Mem.setAll (Mem.setAll m ws) ws' := by
  simp [Mem.setAll, List.foldl_append]

theorem Mem.wf_setAll {m : Mem width} (ws : List (Nat × BitVec width)) (h : Mem.wf m) : Mem.wf (Mem.setAll m ws) := by
  induction ws generalizing m with
  | nil => exact h
  | cons x ws ih => exact ih (Mem.wf_set x.1 x.2 h)

theorem Mem.inside_setAll {m : Mem width} {size : Nat} (ws : List (Nat × BitVec width)) (h : Mem.inside m size)
    (hw : ∀ x ∈ ws, x.1 < size) : Mem.inside (Mem.setAll m ws) size := by
  induction ws generalizing m with
  | nil => exact h
  | cons x ws ih =>
    exact ih (Mem.inside_set x.2 h (hw x List.mem_cons_self)) fun y hy => hw y (List.mem_cons_of_mem _ hy)

/-- A location that no write of the list names keeps what it held. -/
theorem Mem.get?_setAll_of_forall_ne (m : Mem width) (ws : List (Nat × BitVec width)) (a : Nat)
    (h : ∀ x ∈ ws, x.1 ≠ a) : Mem.get? (Mem.setAll m ws) a = Mem.get? m a := by
  induction ws generalizing m with
  | nil => rfl
  | cons x ws ih =>
    rw [Mem.setAll_cons, ih _ fun y hy => h y (List.mem_cons_of_mem _ hy),
      Mem.get?_set_ne _ _ (h x List.mem_cons_self).symm]

/-- The last write of a location wins (spec/20_memory.md R61). -/
theorem Mem.get?_setAll_last (m : Mem width) (before after : List (Nat × BitVec width)) (a : Nat) (v : BitVec width)
    (h : ∀ x ∈ after, x.1 ≠ a) : Mem.get? (Mem.setAll m (before ++ (a, v) :: after)) a = some v := by
  rw [Mem.setAll_append, Mem.setAll_cons, Mem.get?_setAll_of_forall_ne _ _ _ h, Mem.get?_set_self]

/-! ### Reads of a state -/

theorem State.smByte_congr {s t : State} (h : t.sm = s.sm) (he : t.epoch = s.epoch) (a : Nat) :
    t.smByte a = s.smByte a := by simp [State.smByte, h, he]

theorem State.cmElem_congr {s t : State} (h : t.cm = s.cm) (he : t.epoch = s.epoch) (i : Nat) :
    t.cmElem i = s.cmElem i := by simp [State.cmElem, h, he]

theorem State.bsByte_congr {s t : State} (h : t.bs = s.bs) (he : t.epoch = s.epoch) (a : Nat) :
    t.bsByte a = s.bsByte a := by simp [State.bsByte, h, he]

@[simp] theorem State.smByte_setSm_self (s : State) (a : Nat) (v : Byte) : (s.setSm a v).smByte a = v := by
  simp [State.smByte]

theorem State.smByte_setSm_ne (s : State) {a c : Nat} (v : Byte) (h : c ≠ a) : (s.setSm a v).smByte c = s.smByte c := by
  simp [State.smByte, Mem.get?_set_ne _ _ h]

@[simp] theorem State.cmElem_setCm_self (s : State) (i : Nat) (v : Half) : (s.setCm i v).cmElem i = v := by
  simp [State.cmElem]

theorem State.cmElem_setCm_ne (s : State) {i j : Nat} (v : Half) (h : j ≠ i) : (s.setCm i v).cmElem j = s.cmElem j := by
  simp [State.cmElem, Mem.get?_set_ne _ _ h]

/-- A sample that no write names is unchanged. -/
theorem State.smByte_writeSamples_of_forall_ne (s : State) (ws : List (Int × Int)) (a : Nat)
    (h : ∀ x ∈ ws, x.1.toNat ≠ a) : (s.writeSamples ws).smByte a = s.smByte a := by
  have h' : ∀ x ∈ ws.map (fun x : Int × Int => (x.1.toNat, BitVec.ofInt 8 x.2)), x.1 ≠ a := by
    intro x hx
    obtain ⟨y, hy, rfl⟩ := List.mem_map.1 hx
    exact h y hy
  simp [State.smByte, Mem.get?_setAll_of_forall_ne _ _ _ h']

/-- The last write of a sample wins. -/
theorem State.smByte_writeSamples_last (s : State) (before after : List (Int × Int)) (a v : Int)
    (h : ∀ x ∈ after, x.1.toNat ≠ a.toNat) :
    (s.writeSamples (before ++ (a, v) :: after)).smByte a.toNat = BitVec.ofInt 8 v := by
  have h' : ∀ x ∈ after.map (fun x : Int × Int => (x.1.toNat, BitVec.ofInt 8 x.2)), x.1 ≠ a.toNat := by
    intro x hx
    obtain ⟨y, hy, rfl⟩ := List.mem_map.1 hx
    exact h y hy
  simp [State.smByte, List.map_append, Mem.get?_setAll_last _ _ _ _ _ h']

/-- A coefficient that no write names is unchanged. -/
theorem State.cmElem_writeCoeffs_of_forall_ne (s : State) (ws : List (Nat × Int)) (i : Nat)
    (h : ∀ x ∈ ws, x.1 ≠ i) : (s.writeCoeffs ws).cmElem i = s.cmElem i := by
  have h' : ∀ x ∈ ws.map (fun x : Nat × Int => (x.1, BitVec.ofInt 16 x.2)), x.1 ≠ i := by
    intro x hx
    obtain ⟨y, hy, rfl⟩ := List.mem_map.1 hx
    exact h y hy
  simp [State.cmElem, Mem.get?_setAll_of_forall_ne _ _ _ h']

/-- The last write of a coefficient wins. -/
theorem State.cmElem_writeCoeffs_last (s : State) (before after : List (Nat × Int)) (i : Nat) (v : Int)
    (h : ∀ x ∈ after, x.1 ≠ i) :
    (s.writeCoeffs (before ++ (i, v) :: after)).cmElem i = BitVec.ofInt 16 v := by
  have h' : ∀ x ∈ after.map (fun x : Nat × Int => (x.1, BitVec.ofInt 16 x.2)), x.1 ≠ i := by
    intro x hx
    obtain ⟨y, hy, rfl⟩ := List.mem_map.1 hx
    exact h y hy
  simp [State.cmElem, List.map_append, Mem.get?_setAll_last _ _ _ _ _ h']

/-! ### The canonical form, per operation -/

theorem State.wf_writeSamples {s : State} (ws : List (Int × Int)) (h : Mem.wf s.sm) : Mem.wf (s.writeSamples ws).sm :=
  Mem.wf_setAll _ h

theorem State.inside_writeSamples {s : State} {size : Nat} (ws : List (Int × Int)) (h : Mem.inside s.sm size)
    (hw : ∀ x ∈ ws, 0 ≤ x.1 ∧ x.1 < size) : Mem.inside (s.writeSamples ws).sm size := by
  refine Mem.inside_setAll _ h fun x hx => ?_
  obtain ⟨y, hy, rfl⟩ := List.mem_map.1 hx
  have := hw y hy
  show y.1.toNat < size
  omega

theorem State.wf_writeCoeffs {s : State} (ws : List (Nat × Int)) (h : Mem.wf s.cm) : Mem.wf (s.writeCoeffs ws).cm :=
  Mem.wf_setAll _ h

theorem State.inside_writeCoeffs {s : State} {size : Nat} (ws : List (Nat × Int)) (h : Mem.inside s.cm size)
    (hw : ∀ x ∈ ws, x.1 < size) : Mem.inside (s.writeCoeffs ws).cm size := by
  refine Mem.inside_setAll _ h fun x hx => ?_
  obtain ⟨y, hy, rfl⟩ := List.mem_map.1 hx
  exact hw y hy

theorem State.wf_loadBs {s : State} (a : Nat) (bytes : List Byte) (h : Mem.wf s.bs) : Mem.wf (s.loadBs a bytes).bs :=
  Mem.wf_setAll _ h

theorem State.inside_loadBs {s : State} {size a : Nat} {bytes : List Byte} (h : Mem.inside s.bs size)
    (hw : a + bytes.length ≤ size) : Mem.inside (s.loadBs a bytes).bs size := by
  refine Mem.inside_setAll _ h fun x hx => ?_
  obtain ⟨y, hy, rfl⟩ := List.mem_map.1 hx
  have := (List.mem_zipIdx hy).2.1
  show a + y.2 < size
  omega

/-- What one sample holds after a list of writes: the value of the last write that names it. -/
theorem Mem.get?_setAll (m : Mem width) (ws : List (Nat × BitVec width)) (a : Nat) :
    Mem.get? (Mem.setAll m ws) a = ((ws.reverse.find? fun x => x.1 == a).map (·.2)).or (Mem.get? m a) := by
  induction ws generalizing m with
  | nil => simp
  | cons x ws ih =>
    rw [Mem.setAll_cons, ih, Mem.get?_set, List.reverse_cons, List.find?_append]
    by_cases h : x.1 = a
    · subst h; cases List.find? (fun y => y.1 == x.1) ws.reverse <;> simp
    · have h' : (x.1 == a) = false := by simpa using h
      simp [h', Ne.symm h]

end Sys2Proof.Machine
end

