-- ==== Sys2Proof/Laws/Exec.lean ====
section
/-! SUPPORT. For each shared operation of the meanings, everything it can do, said once: the provers cite these and
do not unfold the operation. -/

namespace Sys2Proof.Machine

variable {s t : State} {w : Command}

/-! ### Faults and operands -/

@[simp] theorem raised_eq_next {c : Cause} : raised c w s = .next t ↔ raise c w s = t := by
  simp [raised]

theorem inSpace_iff (size : Nat) (l : List Int) : inSpace size l = true ↔ ∀ a ∈ l, 0 ≤ a ∧ a < size := by
  simp [inSpace]

theorem readerOf_of_lt {rid : BitVec 4} (h : rid.toNat < 9) : readerOf rid = some ⟨rid.toNat, h⟩ := by
  simp [readerOf, h]

theorem readerOf_of_le {rid : BitVec 4} (h : 9 ≤ rid.toNat) : readerOf rid = none := by
  simp [readerOf, Nat.not_lt.2 h]

theorem mem_raster {n : Nat} {p : Nat × Nat} : p ∈ raster n ↔ p.1 < n ∧ p.2 < n := by
  obtain ⟨x, y⟩ := p
  simp only [raster, List.mem_flatMap, List.mem_range, List.mem_map, Prod.mk.injEq]
  constructor
  · rintro ⟨y', hy, x', hx, rfl, rfl⟩
    exact ⟨hx, hy⟩
  · rintro ⟨hx, hy⟩
    exact ⟨y, hy, x, hx, rfl, rfl⟩

theorem mem_ipFootprint {n w : Nat} {A S a : Int} :
    a ∈ ipFootprint n w A S ↔
      (∃ k : Nat, k < w + 2 ∧ A - S - 1 + k = a) ∨ ∃ y : Nat, y < n ∧ ∃ k : Nat, k < n + 1 ∧ A + y * S - 1 + k = a := by
  simp [ipFootprint]

/-! ### IP, XF -/

/-- `predictBlock` writes the block where its footprint exists, else raises AddressRange. -/
theorem predictBlock_cases {n wd : Nat} {p : Predictor} {A : Int} (h : predictBlock n wd p A w s = .next t) :
    (inSpace s.params.smSize (ipFootprint n wd A s.pitch) = true ∧
      t = (s.writeSamples ((raster n).map fun q =>
        (blockAddr A s.pitch q.1 q.2, p (s.corner A) (s.top A) (s.left A) q.1 q.2))).respond 0) ∨
    (inSpace s.params.smSize (ipFootprint n wd A s.pitch) = false ∧ t = raise .addressRange w s) := by
  unfold predictBlock at h
  split at h
  · next hf => exact .inl ⟨hf, by cases h; rfl⟩
  · next hf => exact .inr ⟨by simpa using hf, by cases h; rfl⟩

theorem predictBlock_total (n wd : Nat) (p : Predictor) (A : Int) (w : Command) (s : State) :
    ∃ t, predictBlock n wd p A w s = .next t := by
  unfold predictBlock; split
  · exact ⟨_, rfl⟩
  · exact ⟨_, rfl⟩

/-- `transformCoeffs` writes 16 elements where both ranges exist, else raises AddressRange. -/
theorem transformCoeffs_cases {f : (Nat → Int) → Nat → Int} {src dst : Nat}
    (h : transformCoeffs f src dst w s = .next t) :
    ((src + 15 < s.params.cmWords ∧ dst + 240 < s.params.cmWords) ∧
      t = (s.writeCoeffs ((List.range 16).map fun k => (dst + 16 * k, f (s.coeffs src) k))).respond 0) ∨
    (¬ (src + 15 < s.params.cmWords ∧ dst + 240 < s.params.cmWords) ∧ t = raise .addressRange w s) := by
  unfold transformCoeffs at h
  split at h
  · next hf => exact .inl ⟨hf, by cases h; rfl⟩
  · next hf => exact .inr ⟨hf, by cases h; rfl⟩

theorem transformCoeffs_total (f : (Nat → Int) → Nat → Int) (src dst : Nat) (w : Command) (s : State) :
    ∃ t, transformCoeffs f src dst w s = .next t := by
  unfold transformCoeffs; split
  · exact ⟨_, rfl⟩
  · exact ⟨_, rfl⟩

/-- `addResidual` writes the block where both ranges exist, else raises AddressRange. -/
theorem addResidual_cases {f : (Nat → Int) → Nat → Int} {src : Nat} {A : Int}
    (h : addResidual f src A w s = .next t) :
    ((src + 15 < s.params.cmWords ∧ blockAddr A s.pitch 3 3 < s.params.smSize) ∧
      t = (s.writeSamples ((raster 4).map fun p =>
        (blockAddr A s.pitch p.1 p.2,
          clip255 (s.sample (blockAddr A s.pitch p.1 p.2) + f (s.coeffs src) (4 * p.2 + p.1))))).respond 0) ∨
    (¬ (src + 15 < s.params.cmWords ∧ blockAddr A s.pitch 3 3 < s.params.smSize) ∧ t = raise .addressRange w s) := by
  unfold addResidual at h
  split at h
  · next hf => exact .inl ⟨hf, by cases h; rfl⟩
  · next hf => exact .inr ⟨hf, by cases h; rfl⟩

theorem addResidual_total (f : (Nat → Int) → Nat → Int) (src : Nat) (A : Int) (w : Command) (s : State) :
    ∃ t, addResidual f src A w s = .next t := by
  unfold addResidual; split
  · exact ⟨_, rfl⟩
  · exact ⟨_, rfl⟩

/-! ### LF -/

/-- `filterEdge` filters the positions in order, does nothing with `LFP.limit` 0, or raises AddressRange. -/
theorem filterEdge_cases {reach n : Nat} {line : LineFilter} {dir : Dir} {A : Int}
    (h : filterEdge reach n line dir A w s = .next t) :
    (edgeInSpace reach n dir A s.pitch s.params.smSize = true ∧ s.lfp.limit = 0 ∧ t = s.respond 0) ∨
    (edgeInSpace reach n dir A s.pitch s.params.smSize = true ∧ s.lfp.limit ≠ 0 ∧
      t = (s.filterPositions line dir A n).respond 0) ∨
    (edgeInSpace reach n dir A s.pitch s.params.smSize = false ∧ t = raise .addressRange w s) := by
  unfold filterEdge at h
  split at h
  · next hf =>
    split at h
    · next hl => exact .inl ⟨hf, hl, by cases h; rfl⟩
    · next hl => exact .inr (.inl ⟨hf, hl, by cases h; rfl⟩)
  · next hf => exact .inr (.inr ⟨by simpa using hf, by cases h; rfl⟩)

theorem filterEdge_total (reach n : Nat) (line : LineFilter) (dir : Dir) (A : Int) (w : Command) (s : State) :
    ∃ t, filterEdge reach n line dir A w s = .next t := by
  unfold filterEdge; split
  · split
    · exact ⟨_, rfl⟩
    · exact ⟨_, rfl⟩
  · exact ⟨_, rfl⟩

@[simp] theorem filterPositions_zero (line : LineFilter) (dir : Dir) (A : Int) : s.filterPositions line dir A 0 = s := rfl

/-- The positions go in ascending order, each on the samples the one before it left. -/
theorem filterPositions_succ (s : State) (line : LineFilter) (dir : Dir) (A : Int) (n : Nat) :
    s.filterPositions line dir A (n + 1) = (s.filterPositions line dir A n).filterPosition line dir A n := by
  simp [State.filterPositions, List.range_succ, List.foldl_append]

/-- Filtering changes SM only. -/
theorem filterPositions_eq (s : State) (line : LineFilter) (dir : Dir) (A : Int) (n : Nat) :
    s.filterPositions line dir A n = { s with sm := (s.filterPositions line dir A n).sm } := by
  induction n with
  | zero => rfl
  | succ n ih =>
    rw [filterPositions_succ]
    obtain ⟨m, hm⟩ : ∃ m, s.filterPositions line dir A n = { s with sm := m } := ⟨_, ih⟩
    rw [hm]
    rfl

/-- A property that every single position keeps, the `n` positions keep. -/
theorem filterPositions_induction {P : State → Prop} {line : LineFilter} {dir : Dir} {A : Int} {n : Nat} (h0 : P s)
    (hstep : ∀ k < n, ∀ u, P u → P (u.filterPosition line dir A k)) : P (s.filterPositions line dir A n) := by
  induction n with
  | zero => exact h0
  | succ n ih =>
    rw [filterPositions_succ]
    exact hstep n (Nat.lt_succ_self n) _ (ih fun k hk => hstep k (Nat.lt_succ_of_lt hk))

/-! ### BR -/

/-- `openReader` replaces the context named, or raises ReservedField (`rid` above 8) or AddressRange. -/
theorem openReader_cases {rid : BitVec 4} {addr : Word} {f : Reader → Reader}
    (h : openReader rid addr w f s = .next t) :
    (∃ hr : rid.toNat < 9, addr.toNat ≤ s.params.bsSize ∧
      t = (s.setReader ⟨rid.toNat, hr⟩ (f (s.reader ⟨rid.toNat, hr⟩))).respond 0) ∨
    (9 ≤ rid.toNat ∧ t = raise .reservedField w s) ∨
    (rid.toNat < 9 ∧ s.params.bsSize < addr.toNat ∧ t = raise .addressRange w s) := by
  unfold openReader at h
  rcases Nat.lt_or_ge rid.toNat 9 with hr | hr
  · simp only [readerOf_of_lt hr] at h
    split at h
    · next ha => exact .inl ⟨hr, ha, by cases h; rfl⟩
    · next ha => exact .inr (.inr ⟨hr, Nat.lt_of_not_le ha, by cases h; rfl⟩)
  · simp only [readerOf_of_le hr] at h
    exact .inr (.inl ⟨hr, by cases h; rfl⟩)

theorem openReader_total (rid : BitVec 4) (addr : Word) (w : Command) (f : Reader → Reader) (s : State) :
    ∃ t, openReader rid addr w f s = .next t := by
  unfold openReader
  split
  · exact ⟨_, rfl⟩
  · split
    · exact ⟨_, rfl⟩
    · exact ⟨_, rfl⟩

/-- `decodeWith` replaces the context named and answers, or raises ReservedField (`rid` above 8, or an operand out of
range) or ReaderInvalid. -/
theorem decodeWith_cases {rid : BitVec 4} {ok : Bool} {f : Reader → Word × Reader}
    (h : decodeWith rid ok w f s = .next t) :
    (∃ hr : rid.toNat < 9, ok = true ∧ (s.reader ⟨rid.toNat, hr⟩).valid = true ∧
      t = (s.setReader ⟨rid.toNat, hr⟩ (f (s.reader ⟨rid.toNat, hr⟩)).2).answer (f (s.reader ⟨rid.toNat, hr⟩)).1) ∨
    ((9 ≤ rid.toNat ∨ ok = false) ∧ t = raise .reservedField w s) ∨
    (∃ hr : rid.toNat < 9, ok = true ∧ (s.reader ⟨rid.toNat, hr⟩).valid = false ∧ t = raise .readerInvalid w s) := by
  unfold decodeWith at h
  rcases Nat.lt_or_ge rid.toNat 9 with hr | hr
  · simp only [readerOf_of_lt hr] at h
    split at h
    · next hok =>
      split at h
      · next hv => exact .inl ⟨hr, hok, hv, by cases h; rfl⟩
      · next hv => exact .inr (.inr ⟨hr, hok, by simpa using hv, by cases h; rfl⟩)
    · next hok => exact .inr (.inl ⟨.inr (by simpa using hok), by cases h; rfl⟩)
  · simp only [readerOf_of_le hr] at h
    exact .inr (.inl ⟨.inl hr, by cases h; rfl⟩)

theorem decodeWith_total (rid : BitVec 4) (ok : Bool) (w : Command) (f : Reader → Word × Reader) (s : State) :
    ∃ t, decodeWith rid ok w f s = .next t := by
  unfold decodeWith
  split
  · exact ⟨_, rfl⟩
  · split
    · split
      · exact ⟨_, rfl⟩
      · exact ⟨_, rfl⟩
    · exact ⟨_, rfl⟩

/-! ### FE -/

theorem execSysRdc_cases {n : Half} (h : execSysRdc n s = .next t) :
    (∃ c, ControlReg.ofNumber n.toNat = some c ∧ t = s.answer (s.controlReg c)) ∨
    (ControlReg.ofNumber n.toNat = none ∧ t = raise .controlRegister (encode (.sysRdc n)) s) := by
  unfold execSysRdc at h
  split at h
  · next hc => exact .inr ⟨hc, by cases h; rfl⟩
  · next c hc => exact .inl ⟨c, hc, by cases h; rfl⟩

/-- `writeControlReg` writes `STRIDE` or `LFP`, each with a legal value only. -/
theorem writeControlReg_cases {n : Half} {v : Word} (h : s.writeControlReg n v = some t) :
    (ControlReg.ofNumber n.toNat = some .stride ∧ 1 ≤ v.toNat ∧ v.toNat ≤ 65535 ∧ t = s.setStride (v.setWidth 16)) ∨
    (ControlReg.ofNumber n.toNat = some .lfp ∧ v &&& ~~~0x00033FFF#32 = 0 ∧ t = s.setLfp (Lfp.ofWord v)) := by
  unfold State.writeControlReg at h
  split at h
  · next hc =>
    split at h
    · next hv => exact .inl ⟨hc, hv.1, hv.2, by cases h; rfl⟩
    · cases h
  · next hc =>
    split at h
    · next hv => exact .inr ⟨hc, hv, by cases h; rfl⟩
    · cases h
  · cases h

theorem execSysWrc_cases {n : Half} {v : Word} (h : execSysWrc n v s = .next t) :
    (∃ u, s.writeControlReg n v = some u ∧ t = u.respond 0) ∨
    (s.writeControlReg n v = none ∧ t = raise .controlRegister (encode (.sysWrc n v)) s) := by
  unfold execSysWrc at h
  split at h
  · next hc => exact .inr ⟨hc, by cases h; rfl⟩
  · next u hc => exact .inl ⟨u, hc, by cases h; rfl⟩

theorem execMemLdb_cases {a : Word} (h : execMemLdb a s = .next t) :
    (a.toNat < s.params.smSize ∧ t = s.answer ((s.smByte a.toNat).setWidth 32)) ∨
    (¬ a.toNat < s.params.smSize ∧ t = raise .addressRange (encode (.memLdb a)) s) := by
  unfold execMemLdb at h
  split at h
  · next hf => exact .inl ⟨hf, by cases h; rfl⟩
  · next hf => exact .inr ⟨hf, by cases h; rfl⟩

theorem execMemStb_cases {v : Byte} {a : Word} (h : execMemStb v a s = .next t) :
    (a.toNat < s.params.smSize ∧ t = (s.setSm a.toNat v).respond 0) ∨
    (¬ a.toNat < s.params.smSize ∧ t = raise .addressRange (encode (.memStb v a)) s) := by
  unfold execMemStb at h
  split at h
  · next hf => exact .inl ⟨hf, by cases h; rfl⟩
  · next hf => exact .inr ⟨hf, by cases h; rfl⟩

theorem execMemLdc_cases {i : Word} (h : execMemLdc i s = .next t) :
    (i.toNat < s.params.cmWords ∧ t = s.answer ((s.cmElem i.toNat).signExtend 32)) ∨
    (¬ i.toNat < s.params.cmWords ∧ t = raise .addressRange (encode (.memLdc i)) s) := by
  unfold execMemLdc at h
  split at h
  · next hf => exact .inl ⟨hf, by cases h; rfl⟩
  · next hf => exact .inr ⟨hf, by cases h; rfl⟩

theorem execMemStc_cases {v : Half} {i : Word} (h : execMemStc v i s = .next t) :
    (i.toNat < s.params.cmWords ∧ t = (s.setCm i.toNat v).respond 0) ∨
    (¬ i.toNat < s.params.cmWords ∧ t = raise .addressRange (encode (.memStc v i)) s) := by
  unfold execMemStc at h
  split at h
  · next hf => exact .inl ⟨hf, by cases h; rfl⟩
  · next hf => exact .inr ⟨hf, by cases h; rfl⟩

end Sys2Proof.Machine
end

