-- ==== Sys2Proof/Laws/Block.lean ====
section
/-! SUPPORT. The laws of blocks and edges of samples: what a block written in raster order leaves in SM, and that the
taps of an edge that passed its range check exist (spec/41_intra_prediction.md R131, R132,
spec/43_loop_filter.md R193, R194). -/

namespace Sys2Proof.Machine

/-! ### Raster order (spec/20_memory.md R61) -/

/-- Raster order around position (`x`, `y`): what comes after it lies in a later row, or further right in its own. -/
theorem raster_split {n x y : Nat} (hx : x < n) (hy : y < n) :
    ∃ before after, raster n = before ++ (x, y) :: after ∧ ∀ q ∈ after, y < q.2 ∨ (q.2 = y ∧ x < q.1) := by
  obtain ⟨k, rfl⟩ := Nat.exists_eq_add_of_lt hx
  obtain ⟨j, hj⟩ := Nat.exists_eq_add_of_lt hy
  have hr : List.range (x + k + 1) = List.range x ++ x :: (List.range k).map (x + 1 + ·) := by
    rw [show x + k + 1 = x + (k + 1) by omega, List.range_add, List.range_succ_eq_map]
    simp [Function.comp_def, Nat.add_assoc, Nat.add_comm 1]
  have hc : List.range (x + k + 1) = List.range y ++ y :: (List.range j).map (y + 1 + ·) := by
    rw [hj, show y + j + 1 = y + (j + 1) by omega, List.range_add, List.range_succ_eq_map]
    simp [Function.comp_def, Nat.add_assoc, Nat.add_comm 1]
  let row (y : Nat) : List (Nat × Nat) := (List.range (x + k + 1)).map fun x => (x, y)
  have e : raster (x + k + 1) =
      (List.range y).flatMap row ++ (row y ++ ((List.range j).map (y + 1 + ·)).flatMap row) := by
    show (List.range (x + k + 1)).flatMap row = _
    conv => lhs; rw [hc]
    simp [List.flatMap_append]
  have er : row y = (List.range x).map (fun x => (x, y)) ++ (x, y) :: ((List.range k).map (x + 1 + ·)).map fun x => (x, y) := by
    show (List.range (x + k + 1)).map _ = _
    rw [hr]
    simp
  refine ⟨(List.range y).flatMap row ++ (List.range x).map (fun x => (x, y)),
    ((List.range k).map (x + 1 + ·)).map (fun x => (x, y)) ++ ((List.range j).map (y + 1 + ·)).flatMap row, ?_, ?_⟩
  · rw [e, er]
    simp
  · intro q hq
    rcases List.mem_append.1 hq with hq | hq
    · simp only [List.mem_map, List.mem_range] at hq
      obtain ⟨a, ⟨b, -, rfl⟩, rfl⟩ := hq
      exact .inr ⟨rfl, by show x < x + 1 + b; omega⟩
    · simp only [List.mem_flatMap, List.mem_map, List.mem_range] at hq
      obtain ⟨a, ⟨b, -, rfl⟩, hq⟩ := hq
      simp only [row, List.mem_map] at hq
      obtain ⟨c, -, rfl⟩ := hq
      exact .inl (by show y < y + 1 + b; omega)

/-! ### A block -/

/-- The writes of an `n`×`n` block at `A` with pitch `S`. -/
abbrev blockWrites (n : Nat) (A S : Int) (f : Nat → Nat → Int) : List (Int × Int) :=
  (raster n).map fun q => (blockAddr A S q.1 q.2, f q.1 q.2)

/-- A sample outside the block keeps what it held. -/
theorem smByte_block_outside (s : State) (n A S : Nat) (f : Nat → Nat → Int) (a : Nat)
    (h : ∀ x < n, ∀ y < n, a ≠ A + y * S + x) : (s.writeSamples (blockWrites n A S f)).smByte a = s.smByte a := by
  refine State.smByte_writeSamples_of_forall_ne s _ a fun w hw => ?_
  obtain ⟨q, hq, rfl⟩ := List.mem_map.1 hw
  obtain ⟨hx, hy⟩ := mem_raster.1 hq
  have := h _ hx _ hy
  show (blockAddr A S q.1 q.2).toNat ≠ a
  have e : blockAddr A S q.1 q.2 = ((A + q.2 * S + q.1 : Nat) : Int) := by unfold blockAddr; push_cast; ring
  rw [e, Int.toNat_natCast]
  exact fun h => this h.symm

/-- A sample of the block that no later row overwrites holds the value written there. -/
theorem smByte_block_inside (s : State) {n x y : Nat} (A S : Nat) (f : Nat → Nat → Int) (hx : x < n) (hy : y < n)
    (h : ∀ x' < n, ∀ y' < n, y < y' → A + y' * S + x' ≠ A + y * S + x) :
    (s.writeSamples (blockWrites n A S f)).smByte (A + y * S + x) = BitVec.ofInt 8 (f x y) := by
  obtain ⟨before, after, e, ha⟩ := raster_split hx hy
  have eaddr : ∀ q : Nat × Nat, (blockAddr A S q.1 q.2).toNat = A + q.2 * S + q.1 := by
    intro q
    have e : blockAddr A S q.1 q.2 = ((A + q.2 * S + q.1 : Nat) : Int) := by unfold blockAddr; push_cast; ring
    rw [e, Int.toNat_natCast]
  have hmem : ∀ q ∈ after, q.1 < n ∧ q.2 < n := fun q hq => mem_raster.1 (by rw [e]; simp [hq])
  have hw : blockWrites n A S f = before.map (fun q => (blockAddr A S q.1 q.2, f q.1 q.2)) ++
      (blockAddr A S x y, f x y) :: after.map fun q => (blockAddr A S q.1 q.2, f q.1 q.2) := by
    show (raster n).map _ = _
    rw [e]
    simp
  rw [hw, ← eaddr (x, y)]
  refine State.smByte_writeSamples_last s _ _ _ _ fun w hw => ?_
  obtain ⟨q, hq, rfl⟩ := List.mem_map.1 hw
  show (blockAddr A S q.1 q.2).toNat ≠ (blockAddr A S x y).toNat
  rw [eaddr q, eaddr (x, y)]
  rcases ha q hq with h1 | ⟨h1, h2⟩
  · exact h _ (hmem q hq).1 _ (hmem q hq).2 h1
  · rw [h1]
    show A + y * S + q.1 ≠ A + y * S + x
    omega

/-- A value that fits a sample is read back as it is. -/
theorem toNat_ofInt_sample {v : Int} (h0 : 0 ≤ v) (h1 : v ≤ 255) : ((BitVec.ofInt 8 v).toNat : Int) = v := by
  rw [BitVec.toNat_ofInt]
  omega

theorem sample_nonneg (s : State) (a : Int) : 0 ≤ s.sample a := Int.natCast_nonneg _

theorem sample_le (s : State) (a : Int) : s.sample a ≤ 255 := by
  have := (s.smByte a.toNat).isLt
  unfold State.sample
  omega

/-- Writes to distinct addresses all stand afterwards. -/
theorem smByte_writeSamples_mem (s : State) {ws : List (Int × Int)} {a v : Int} (hmem : (a, v) ∈ ws)
    (hd : ws.Pairwise fun x y => x.1.toNat ≠ y.1.toNat) : (s.writeSamples ws).smByte a.toNat = BitVec.ofInt 8 v := by
  obtain ⟨before, after, rfl⟩ := List.append_of_mem hmem
  refine State.smByte_writeSamples_last s _ _ _ _ fun x hx => ?_
  have h := (List.pairwise_append.1 hd).2.1
  exact ((List.pairwise_cons.1 h).1 x hx).symm

/-! ### An edge -/

theorem pitch_nonneg (s : State) : 0 ≤ s.pitch := Int.natCast_nonneg _

/-- Every tap of an edge that passed its range check exists (R194). -/
theorem tapAddr_inside {reach n i : Nat} {dir : Dir} {A S j : Int} {size : Nat} (hS : 0 ≤ S)
    (h : edgeInSpace reach n dir A S size = true) (hi : i < n) (h1 : -reach ≤ j) (h2 : j < reach) :
    0 ≤ tapAddr dir (edgeBase dir A S i) S j ∧ tapAddr dir (edgeBase dir A S i) S j < size := by
  simp only [edgeInSpace, decide_eq_true_eq] at h
  have hw : 0 ≤ walkStep dir S := by cases dir <;> simp [walkStep, hS]
  have ht : 0 ≤ tapStep dir S := by cases dir <;> simp [tapStep, hS]
  have e1 : 0 ≤ (i : Int) * walkStep dir S := Int.mul_nonneg (by omega) hw
  have e2 : (i : Int) * walkStep dir S ≤ ((n : Int) - 1) * walkStep dir S := Int.mul_le_mul_of_nonneg_right (by omega) hw
  have e3 : (-reach : Int) * tapStep dir S ≤ j * tapStep dir S := Int.mul_le_mul_of_nonneg_right h1 ht
  have e4 : j * tapStep dir S ≤ ((reach : Int) - 1) * tapStep dir S := Int.mul_le_mul_of_nonneg_right (by omega) ht
  have e5 : (-reach : Int) * tapStep dir S = -(reach * tapStep dir S) := by ring
  unfold tapAddr edgeBase
  constructor <;> omega

/-- With a pitch above 0, the taps of one position have different addresses. -/
theorem tapAddr_injective {dir : Dir} {P S j k : Int} (hS : 0 < S) (h : tapAddr dir P S j = tapAddr dir P S k) : j = k := by
  have ht : 0 < tapStep dir S := by cases dir <;> simp [tapStep, hS]
  unfold tapAddr at h
  exact Int.eq_of_mul_eq_mul_right (by omega) (by omega : j * tapStep dir S = k * tapStep dir S)

/-- The taps a line filter writes lie in `lo..hi`. -/
def writesWithin (line : LineFilter) (lo hi : Int) : Prop := ∀ tap, ∀ x ∈ line tap, lo ≤ x.1 ∧ x.1 ≤ hi

/-- The simple filter writes `p0` and `q0` (R197). -/
theorem simpleLine_within (E : Int) : writesWithin (simpleLine E) (-1) 0 := by
  intro tap x hx
  unfold simpleLine filt2 at hx
  split at hx
  · simp only [List.mem_cons, List.not_mem_nil, or_false] at hx
    rcases hx with rfl | rfl <;> simp
  · cases hx

/-- The normal filter on a macroblock edge writes inside `p2 .. q2` (R203). -/
theorem normalMbLine_within (E I H : Int) : writesWithin (normalMbLine E I H) (-3) 2 := by
  intro tap x hx
  unfold normalMbLine filt2 filt6 at hx
  split at hx
  · split at hx <;> simp only [List.mem_cons, List.not_mem_nil, or_false] at hx <;>
      rcases hx with rfl | rfl | rfl | rfl | rfl | rfl <;> simp
  · cases hx

/-- The normal filter on an inner edge writes inside `p1 .. q1` (R204). -/
theorem normalInnerLine_within (E I H : Int) : writesWithin (normalInnerLine E I H) (-2) 1 := by
  intro tap x hx
  unfold normalInnerLine filt2 filt4 at hx
  split at hx
  · split at hx <;> simp only [List.mem_cons, List.not_mem_nil, or_false] at hx <;>
      rcases hx with rfl | rfl | rfl | rfl | rfl | rfl <;> simp
  · cases hx

end Sys2Proof.Machine
end

