-- ==== Sys2Proof/Laws/Control.lean ====
section
/-! SUPPORT. The laws of the control-register map (spec/10_state.md R26, R27). -/

namespace Sys2Proof.Machine

/-- `LFP` as a number: its three fields in their places (R26). -/
theorem Lfp.word_toNat (l : Lfp) :
    l.word.toNat = l.limit.toNat + 2 ^ 8 * l.inner.toNat + 2 ^ 16 * l.hev.toNat := by
  have h1 := l.limit.isLt
  have h2 := l.inner.isLt
  have h3 := l.hev.isLt
  have e1 : (l.inner ++ l.limit).toNat = 2 ^ 8 * l.inner.toNat + l.limit.toNat := by
    rw [BitVec.toNat_append, ← Nat.shiftLeft_add_eq_or_of_lt h1, Nat.shiftLeft_eq]; omega
  have e2 : (0#2 ++ (l.inner ++ l.limit)).toNat = (l.inner ++ l.limit).toNat := by
    rw [BitVec.toNat_append]; simp
  have e3 : (l.hev ++ (0#2 ++ (l.inner ++ l.limit))).toNat =
      2 ^ 16 * l.hev.toNat + (0#2 ++ (l.inner ++ l.limit)).toNat := by
    rw [BitVec.toNat_append, ← Nat.shiftLeft_add_eq_or_of_lt (BitVec.isLt _), Nat.shiftLeft_eq]; omega
  have e4 : l.word = (0#14 ++ (l.hev ++ (0#2 ++ (l.inner ++ l.limit))) : BitVec 32) := by
    apply BitVec.eq_of_toNat_eq
    simp only [Lfp.word, BitVec.toNat_append, Nat.shiftLeft_or_distrib, Nat.or_assoc, ← Nat.shiftLeft_add]
  rw [e4, BitVec.toNat_append, e3, e2, e1]
  simp
  omega

/-- A word with no bit outside 0x00033FFF is what its `LFP` reads as (R26, R223). -/
theorem Lfp.word_ofWord (v : Word) (h : v &&& ~~~0x00033FFF#32 = 0) : (Lfp.ofWord v).word = v := by
  apply BitVec.eq_of_getLsbD_eq
  intro i hi
  have hb : (v.getLsbD i && (~~~0x00033FFF#32).getLsbD i) = false := by
    rw [← BitVec.getLsbD_and, h]; exact BitVec.getLsbD_zero
  simp only [Lfp.word, Lfp.ofWord, BitVec.getLsbD_append, BitVec.getLsbD_extractLsb', BitVec.getLsbD_zero]
  interval_cases i <;> simp_all

/-- Writing what `LFP` reads as leaves it (R26). -/
theorem Lfp.ofWord_word (l : Lfp) : Lfp.ofWord l.word = l := by
  obtain ⟨a, b, c⟩ := l
  have ha := a.isLt
  have hb := b.isLt
  have hc := c.isLt
  unfold Lfp.ofWord
  congr 1 <;> apply BitVec.eq_of_toNat_eq <;>
    simp only [BitVec.extractLsb'_toNat, Lfp.word_toNat, Nat.shiftRight_eq_div_pow] <;> omega

/-- The six defined offsets of a reader's eight numbers (R27). -/
theorem ControlReg.ofNumber_reader (r : Fin 9) (k : Nat) (hk : k < 8) :
    ControlReg.ofNumber (0x10 + 8 * r + k) = (ReaderField.ofOffset k).map (.reader r) := by
  have h0 : ¬ (0x10 + 8 * r.val + k) < 0x10 := by omega
  have h1 : (0x10 + 8 * r.val + k - 0x10) / 8 = r.val := by omega
  have h2 : (0x10 + 8 * r.val + k - 0x10) % 8 = k := by omega
  unfold ControlReg.ofNumber
  split <;> try omega
  rw [if_neg h0, ControlReg.ofReaderNumber]
  simp [h1, h2]

/-- Every number outside the map is undefined (R27). -/
theorem ControlReg.ofNumber_eq_none {n : Nat}
    (h : (7 ≤ n ∧ n < 0x10) ∨ (0x10 ≤ n ∧ 6 ≤ n % 8) ∨ 0x58 ≤ n) : ControlReg.ofNumber n = none := by
  unfold ControlReg.ofNumber
  split <;> try omega
  split
  · rfl
  · unfold ControlReg.ofReaderNumber
    split
    · have : 6 ≤ (n - 0x10) % 8 := by omega
      unfold ReaderField.ofOffset
      split <;> first | omega | rfl
    · rfl

/-- Only the numbers 5 and 6 name a writable register (R223). -/
theorem writeControlReg_eq_none (s : State) {n : Half} (v : Word) (h5 : n ≠ 5) (h6 : n ≠ 6) :
    s.writeControlReg n v = none := by
  have a5 : n.toNat ≠ 5 := fun h => h5 (BitVec.eq_of_toNat_eq h)
  have a6 : n.toNat ≠ 6 := fun h => h6 (BitVec.eq_of_toNat_eq h)
  have key : ControlReg.ofNumber n.toNat ≠ some .stride ∧ ControlReg.ofNumber n.toNat ≠ some .lfp := by
    unfold ControlReg.ofNumber
    split <;> first | omega | (refine ⟨?_, ?_⟩ <;> simp; done) | skip
    split
    · exact ⟨by simp, by simp⟩
    · unfold ControlReg.ofReaderNumber
      split
      · cases ReaderField.ofOffset ((n.toNat - 0x10) % 8) <;> exact ⟨by simp, by simp⟩
      · exact ⟨by simp, by simp⟩
  unfold State.writeControlReg
  split
  · next h => exact absurd h key.1
  · next h => exact absurd h key.2
  · rfl

end Sys2Proof.Machine
end

