-- ==== Sys2Proof/Laws/Decode.lean ====
section
/-! SUPPORT. The field laws of a command word (spec/30_encoding.md R70) and the small lemmas of the decoder. -/

namespace Sys2Proof

variable (op : BitVec 8) (a b : BitVec 4) (c : BitVec 16) (imm : BitVec 32)

@[simp] theorem fieldOp_pack : fieldOp (packFields op a b c imm) = op := by
  apply BitVec.eq_of_getLsbD_eq
  intro i hi
  simp [fieldOp, packFields]
  grind

@[simp] theorem fieldA_pack : fieldA (packFields op a b c imm) = a := by
  apply BitVec.eq_of_getLsbD_eq
  intro i hi
  simp [fieldA, packFields]
  grind

@[simp] theorem fieldB_pack : fieldB (packFields op a b c imm) = b := by
  apply BitVec.eq_of_getLsbD_eq
  intro i hi
  simp [fieldB, packFields]
  grind

@[simp] theorem fieldC_pack : fieldC (packFields op a b c imm) = c := by
  apply BitVec.eq_of_getLsbD_eq
  intro i hi
  simp [fieldC, packFields]
  grind

@[simp] theorem fieldImm_pack : fieldImm (packFields op a b c imm) = imm := by
  apply BitVec.eq_of_getLsbD_eq
  intro i hi
  simp [fieldImm, packFields]
  grind

/-- A command word is its five fields. -/
theorem packFields_fields (w : Command) : packFields (fieldOp w) (fieldA w) (fieldB w) (fieldC w) (fieldImm w) = w := by
  apply BitVec.eq_of_getLsbD_eq
  intro i hi
  simp [fieldOp, fieldA, fieldB, fieldC, fieldImm, packFields]
  grind

@[simp] theorem Dir.ofBit_toBit (d : Dir) : Dir.ofBit d.toBit = d := by cases d <;> rfl
@[simp] theorem Dir.toBit_ofBit (d : Bool) : (Dir.ofBit d).toBit = d := by cases d <;> rfl
@[simp] theorem EdgeLength.ofBit_toBit (n : EdgeLength) : EdgeLength.ofBit n.toBit = n := by cases n <;> rfl
@[simp] theorem EdgeLength.toBit_ofBit (n : Bool) : (EdgeLength.ofBit n).toBit = n := by cases n <;> rfl

@[simp] theorem flagBits_lo (lo hi : Bool) : (flagBits lo hi)[0] = lo := by revert lo hi; decide
@[simp] theorem flagBits_hi (lo hi : Bool) : (flagBits lo hi)[1] = hi := by revert lo hi; decide
@[simp] theorem flagBits_lt (lo hi : Bool) : (flagBits lo hi).toNat < 4 := by revert lo hi; decide
@[simp] theorem flagBits_lo_le (lo : Bool) : (flagBits lo false).toNat ≤ 1 := by revert lo; decide

/-- A `b` field below 4 is its two flags. -/
theorem flagBits_of_lt_four (b : BitVec 4) (h : b.toNat < 4) : flagBits (b.getLsbD 0) (b.getLsbD 1) = b := by
  revert b; decide

/-- A `b` field below 2 is its one flag. -/
theorem flagBits_of_lt_two (b : BitVec 4) (h : b.toNat < 2) : flagBits (b.getLsbD 0) false = b := by
  revert b; decide

theorem unlessReserved_eq_ok {ok : Bool} {i j : Instr} : unlessReserved ok i = .ok j ↔ ok = true ∧ i = j := by
  unfold unlessReserved; split <;> simp_all

@[simp] theorem unlessReserved_true (i : Instr) : unlessReserved true i = .ok i := rfl

/-! ### The sub-fields of `c` (R72) -/

@[simp] theorem lowByte_setWidth (v : BitVec 8) : (v.setWidth 16).extractLsb' 0 8 = v := by revert v; decide
@[simp] theorem lowByte_setWidth_lt (v : BitVec 8) : v.toNat % 65536 < 256 := by omega
@[simp] theorem lowCount_setWidth (n : BitVec 5) : (n.setWidth 16).extractLsb' 0 5 = n := by revert n; decide
@[simp] theorem lowCount_setWidth_lt (n : BitVec 5) : n.toNat % 65536 < 32 := by omega

/-- A `c` field below 256 is its low byte. -/
theorem setWidth_lowByte (c : BitVec 16) (h : c.toNat < 256) : (c.extractLsb' 0 8).setWidth 16 = c := by
  apply BitVec.eq_of_toNat_eq
  simp [BitVec.extractLsb'_toNat]
  omega

/-- A `c` field below 32 is its low five bits. -/
theorem setWidth_lowCount (c : BitVec 16) (h : c.toNat < 32) : (c.extractLsb' 0 5).setWidth 16 = c := by
  apply BitVec.eq_of_toNat_eq
  simp [BitVec.extractLsb'_toNat]
  omega

/-- `level` and `sharpness` in their places of `c` (R72, `LF.SETUP`). -/
@[simp] theorem setupField_reserved (level : BitVec 6) (sharpness : BitVec 3) :
    (0#5 ++ sharpness ++ 0#2 ++ level) &&& 0xF8C0#16 = 0#16 := by
  revert level sharpness; decide

@[simp] theorem setupField_level (level : BitVec 6) (sharpness : BitVec 3) :
    (0#5 ++ sharpness ++ 0#2 ++ level : BitVec 16).extractLsb' 0 6 = level := by
  revert level sharpness; decide

@[simp] theorem setupField_sharpness (level : BitVec 6) (sharpness : BitVec 3) :
    (0#5 ++ sharpness ++ 0#2 ++ level : BitVec 16).extractLsb' 8 3 = sharpness := by
  revert level sharpness; decide

/-- A `c` field of `LF.SETUP` with its must-be-zero bits zero is its two sub-fields. -/
theorem setupField_of_reserved (c : BitVec 16) (h : c &&& 0xF8C0#16 = 0#16) :
    (0#5 ++ c.extractLsb' 8 3 ++ 0#2 ++ c.extractLsb' 0 6 : BitVec 16) = c := by
  apply BitVec.eq_of_getLsbD_eq
  intro i hi
  have hb : (c.getLsbD i && (0xF8C0#16).getLsbD i) = false := by simp [← BitVec.getLsbD_and, h]
  simp only [BitVec.getLsbD_append, BitVec.getLsbD_extractLsb', BitVec.getLsbD_zero]
  interval_cases i <;> simp_all

end Sys2Proof
end

