-- ==== Sys2Proof/Laws/PerInstr.lean ====
section
/-! SUPPORT. Statements about every command, one lemma per constructor of `Instr`. -/

namespace Sys2Proof.Laws

/-- The decoder reads a well-formed command back from the word the encoder gives it (spec/30_encoding.md R70 to R73). -/
def DecodeEncode.Statement (i : Instr) : Prop := i.wellFormed = true → decode (encode i) = .ok i

theorem DecodeEncode.nop : DecodeEncode.Statement (.nop) := by
  intro h
  simp_all [encode, decode, Instr.wellFormed]
theorem DecodeEncode.sysReset : DecodeEncode.Statement (.sysReset) := by
  intro h
  simp_all [encode, decode, Instr.wellFormed]
theorem DecodeEncode.sysRdc (n : Half) : DecodeEncode.Statement (.sysRdc n) := by
  intro h
  simp_all [encode, decode, Instr.wellFormed]
theorem DecodeEncode.sysWrc (n : Half) (v : Word) : DecodeEncode.Statement (.sysWrc n v) := by
  intro h
  simp_all [encode, decode, Instr.wellFormed]
theorem DecodeEncode.memLdb (addr : Word) : DecodeEncode.Statement (.memLdb addr) := by
  intro h
  simp_all [encode, decode, Instr.wellFormed]
theorem DecodeEncode.memStb (v : Byte) (addr : Word) : DecodeEncode.Statement (.memStb v addr) := by
  intro h
  simp_all [encode, decode, Instr.wellFormed]
theorem DecodeEncode.memLdc (idx : Word) : DecodeEncode.Statement (.memLdc idx) := by
  intro h
  simp_all [encode, decode, Instr.wellFormed]
theorem DecodeEncode.memStc (v : Half) (idx : Word) : DecodeEncode.Statement (.memStc v idx) := by
  intro h
  simp_all [encode, decode, Instr.wellFormed]
theorem DecodeEncode.brSetend (rid : BitVec 4) (bound : Word) : DecodeEncode.Statement (.brSetend rid bound) := by
  intro h
  simp_all [encode, decode, Instr.wellFormed]
theorem DecodeEncode.brStart (rid : BitVec 4) (start : Word) : DecodeEncode.Statement (.brStart rid start) := by
  intro h
  simp_all [encode, decode, Instr.wellFormed]
theorem DecodeEncode.brGetbit (rid : BitVec 4) (prob : Byte) : DecodeEncode.Statement (.brGetbit rid prob) := by
  intro h
  simp_all [encode, decode, Instr.wellFormed]
theorem DecodeEncode.brBool (rid : BitVec 4) : DecodeEncode.Statement (.brBool rid) := by
  intro h
  simp_all [encode, decode, Instr.wellFormed]
theorem DecodeEncode.brValue (rid : BitVec 4) (n : BitVec 5) : DecodeEncode.Statement (.brValue rid n) := by
  intro h
  simp_all [encode, decode, Instr.wellFormed]
theorem DecodeEncode.brSigned (rid : BitVec 4) (n : BitVec 5) : DecodeEncode.Statement (.brSigned rid n) := by
  intro h
  simp_all [encode, decode, Instr.wellFormed]
theorem DecodeEncode.xfIwht (src : Half) (dst : Word) : DecodeEncode.Statement (.xfIwht src dst) := by
  intro h
  simp_all [encode, decode, Instr.wellFormed]
theorem DecodeEncode.xfIdctadd (src : Half) (A : Word) : DecodeEncode.Statement (.xfIdctadd src A) := by
  intro h
  simp_all [encode, decode, Instr.wellFormed]
theorem DecodeEncode.ip4Dc (A : Word) : DecodeEncode.Statement (.ip4Dc A) := by
  intro h
  simp_all [encode, decode, Instr.wellFormed, decodeIp4]
theorem DecodeEncode.ip4Tm (A : Word) : DecodeEncode.Statement (.ip4Tm A) := by
  intro h
  simp_all [encode, decode, Instr.wellFormed, decodeIp4]
theorem DecodeEncode.ip4Ve (A : Word) : DecodeEncode.Statement (.ip4Ve A) := by
  intro h
  simp_all [encode, decode, Instr.wellFormed, decodeIp4]
theorem DecodeEncode.ip4He (A : Word) : DecodeEncode.Statement (.ip4He A) := by
  intro h
  simp_all [encode, decode, Instr.wellFormed, decodeIp4]
theorem DecodeEncode.ip4Ld (A : Word) : DecodeEncode.Statement (.ip4Ld A) := by
  intro h
  simp_all [encode, decode, Instr.wellFormed, decodeIp4]
theorem DecodeEncode.ip4Rd (A : Word) : DecodeEncode.Statement (.ip4Rd A) := by
  intro h
  simp_all [encode, decode, Instr.wellFormed, decodeIp4]
theorem DecodeEncode.ip4Vr (A : Word) : DecodeEncode.Statement (.ip4Vr A) := by
  intro h
  simp_all [encode, decode, Instr.wellFormed, decodeIp4]
theorem DecodeEncode.ip4Vl (A : Word) : DecodeEncode.Statement (.ip4Vl A) := by
  intro h
  simp_all [encode, decode, Instr.wellFormed, decodeIp4]
theorem DecodeEncode.ip4Hd (A : Word) : DecodeEncode.Statement (.ip4Hd A) := by
  intro h
  simp_all [encode, decode, Instr.wellFormed, decodeIp4]
theorem DecodeEncode.ip4Hu (A : Word) : DecodeEncode.Statement (.ip4Hu A) := by
  intro h
  simp_all [encode, decode, Instr.wellFormed, decodeIp4]
theorem DecodeEncode.ip16Dc (notop noleft : Bool) (A : Word) : DecodeEncode.Statement (.ip16Dc notop noleft A) := by
  intro h
  simp_all [encode, decode, Instr.wellFormed, decodeIp16]
theorem DecodeEncode.ip16V (A : Word) : DecodeEncode.Statement (.ip16V A) := by
  intro h
  simp_all [encode, decode, Instr.wellFormed, decodeIp16]
theorem DecodeEncode.ip16H (A : Word) : DecodeEncode.Statement (.ip16H A) := by
  intro h
  simp_all [encode, decode, Instr.wellFormed, decodeIp16]
theorem DecodeEncode.ip16Tm (A : Word) : DecodeEncode.Statement (.ip16Tm A) := by
  intro h
  simp_all [encode, decode, Instr.wellFormed, decodeIp16]
theorem DecodeEncode.ip8Dc (notop noleft : Bool) (A : Word) : DecodeEncode.Statement (.ip8Dc notop noleft A) := by
  intro h
  simp_all [encode, decode, Instr.wellFormed, decodeIp8]
theorem DecodeEncode.ip8V (A : Word) : DecodeEncode.Statement (.ip8V A) := by
  intro h
  simp_all [encode, decode, Instr.wellFormed, decodeIp8]
theorem DecodeEncode.ip8H (A : Word) : DecodeEncode.Statement (.ip8H A) := by
  intro h
  simp_all [encode, decode, Instr.wellFormed, decodeIp8]
theorem DecodeEncode.ip8Tm (A : Word) : DecodeEncode.Statement (.ip8Tm A) := by
  intro h
  simp_all [encode, decode, Instr.wellFormed, decodeIp8]
theorem DecodeEncode.lfSetup (level : BitVec 6) (sharpness : BitVec 3) : DecodeEncode.Statement (.lfSetup level sharpness) := by
  intro h
  simp_all [encode, decode, Instr.wellFormed]
theorem DecodeEncode.lfSmb (dir : Dir) (A : Word) : DecodeEncode.Statement (.lfSmb dir A) := by
  intro h
  simp_all [encode, decode, Instr.wellFormed]
theorem DecodeEncode.lfSin (dir : Dir) (A : Word) : DecodeEncode.Statement (.lfSin dir A) := by
  intro h
  simp_all [encode, decode, Instr.wellFormed]
theorem DecodeEncode.lfNmb (dir : Dir) (n : EdgeLength) (A : Word) : DecodeEncode.Statement (.lfNmb dir n A) := by
  intro h
  simp_all [encode, decode, Instr.wellFormed]
theorem DecodeEncode.lfNin (dir : Dir) (n : EdgeLength) (A : Word) : DecodeEncode.Statement (.lfNin dir n A) := by
  intro h
  simp_all [encode, decode, Instr.wellFormed]

end Sys2Proof.Laws
end

