-- ==== Sys2Proof/Laws/Reader.lean ====
section
/-! SUPPORT. The laws of the boolean decoder (spec/40_boolreader.md): what a renormalization does in closed form, and
that every reader operation keeps a reader legal. -/

namespace Sys2Proof.Machine

variable {bs : Nat → Byte} {r : Reader} {prob : Nat}

/-! ### The split (R104) -/

theorem split_le {range p : Nat} (h : 1 ≤ range) (hp : p ≤ 255) : split range p ≤ range := by
  have : (range - 1) * p ≤ (range - 1) * 255 := Nat.mul_le_mul_left _ hp
  unfold split
  omega

theorem split_lt {range p : Nat} (h : 2 ≤ range) (hp : p ≤ 255) : split range p < range := by
  have : (range - 1) * p ≤ (range - 1) * 255 := Nat.mul_le_mul_left _ hp
  unfold split
  omega

theorem one_le_split (range p : Nat) : 1 ≤ split range p := by unfold split; omega

/-! ### The branch (R105) -/

/-- `range` after the branch: `range − split` on a 1, `split` on a 0. -/
theorem branch_range (h : 2 ≤ r.range.toNat) (hp : prob ≤ 255) :
    (r.branch prob).range.toNat =
      if split r.range.toNat prob ≤ r.window then r.range.toNat - split r.range.toNat prob
      else split r.range.toNat prob := by
  have h1 := split_lt h hp
  have h2 := r.range.isLt
  have h3 : (r.bit prob = true) = (split r.range.toNat prob ≤ r.window) := by simp [Reader.bit]
  unfold Reader.branch
  simp only [h3]
  split
  · exact (BitVec.toNat_ofNat ..).trans (Nat.mod_eq_of_lt (by omega))
  · exact (BitVec.toNat_ofNat ..).trans (Nat.mod_eq_of_lt (by omega))

theorem branch_range_pos (h : 2 ≤ r.range.toNat) (hp : prob ≤ 255) : 1 ≤ (r.branch prob).range.toNat := by
  have h1 := split_lt h hp
  have h2 := one_le_split r.range.toNat prob
  rw [branch_range h hp]
  split <;> omega

@[simp] theorem branch_bitsLeft (r : Reader) (prob : Nat) : (r.branch prob).bitsLeft = r.bitsLeft := by
  unfold Reader.branch; split <;> rfl
@[simp] theorem branch_cursor (r : Reader) (prob : Nat) : (r.branch prob).cursor = r.cursor := by
  unfold Reader.branch; split <;> rfl
@[simp] theorem branch_bound (r : Reader) (prob : Nat) : (r.branch prob).bound = r.bound := by
  unfold Reader.branch; split <;> rfl
@[simp] theorem branch_valid (r : Reader) (prob : Nat) : (r.branch prob).valid = r.valid := by
  unfold Reader.branch; split <;> rfl

theorem window_lt_of_lt {n : Nat} (h : r.value.toNat < n * 2 ^ r.bitsLeft.toNat) : r.window < n := by
  unfold Reader.window
  exact (Nat.div_lt_iff_lt_mul (Nat.pow_pos (by omega))).2 h

theorem le_window_iff {n : Nat} : n ≤ r.window ↔ n * 2 ^ r.bitsLeft.toNat ≤ r.value.toNat := by
  unfold Reader.window
  exact Nat.le_div_iff_mul_le (Nat.pow_pos (by omega))

/-- `value` after the branch: a 1 subtracts `split << bits_left`, which `value` holds. -/
theorem branch_value (r : Reader) (prob : Nat) :
    (r.branch prob).value.toNat =
      if split r.range.toNat prob ≤ r.window then
        r.value.toNat - split r.range.toNat prob * 2 ^ r.bitsLeft.toNat
      else r.value.toNat := by
  have h3 : (r.bit prob = true) = (split r.range.toNat prob ≤ r.window) := by simp [Reader.bit]
  unfold Reader.branch
  simp only [h3]
  split
  · next h =>
    have h4 := le_window_iff.1 h
    have h5 := r.value.isLt
    have h6 : (BitVec.ofNat 32 (split r.range.toNat prob) <<< r.bitsLeft.toNat).toNat =
        split r.range.toNat prob * 2 ^ r.bitsLeft.toNat := by
      rw [BitVec.toNat_shiftLeft, BitVec.toNat_ofNat, Nat.shiftLeft_eq]
      have h7 : split r.range.toNat prob * 1 ≤ split r.range.toNat prob * 2 ^ r.bitsLeft.toNat :=
        Nat.mul_le_mul_left _ (Nat.pow_pos (by omega))
      rw [Nat.mod_eq_of_lt (a := split r.range.toNat prob) (by omega), Nat.mod_eq_of_lt (by omega)]
    show (r.value - BitVec.ofNat 32 (split r.range.toNat prob) <<< r.bitsLeft.toNat).toNat = _
    rw [BitVec.toNat_sub_of_le, h6]
    rw [BitVec.le_def, h6]
    exact h4
  · rfl

/-! ### Fetching (R107) -/

@[simp] theorem refill_range (bs : Nat → Byte) (r : Reader) : (r.refill bs).range = r.range := rfl
@[simp] theorem refill_bitsLeft (bs : Nat → Byte) (r : Reader) : (r.refill bs).bitsLeft = 8 := rfl
@[simp] theorem refill_cursor (bs : Nat → Byte) (r : Reader) : (r.refill bs).cursor = r.fetchCursor := rfl
@[simp] theorem refill_bound (bs : Nat → Byte) (r : Reader) : (r.refill bs).bound = r.bound := rfl
@[simp] theorem refill_valid (bs : Nat → Byte) (r : Reader) : (r.refill bs).valid = r.valid := rfl

/-- A fetch inside the span moves the cursor by one. -/
theorem fetchCursor_toNat (r : Reader) :
    r.fetchCursor.toNat = if r.cursor.toNat < r.bound.toNat then r.cursor.toNat + 1 else r.cursor.toNat := by
  have h1 := r.bound.isLt
  unfold Reader.fetchCursor
  split
  · rw [BitVec.toNat_add]
    exact Nat.mod_eq_of_lt (by simp; omega)
  · rfl

theorem fetchCursor_le {n : Nat} (hc : r.cursor.toNat ≤ n) (hb : r.bound.toNat ≤ n) : r.fetchCursor.toNat ≤ n := by
  rw [fetchCursor_toNat]; split <;> omega

/-- `value` after a fetch: the old value times 256 plus the byte, modulo 2^32 (R106). -/
theorem refill_value (bs : Nat → Byte) (r : Reader) :
    (r.refill bs).value.toNat = (r.value.toNat * 256 + (r.fetchByte bs).toNat) % 2 ^ 32 := by
  have h1 : (r.fetchByte bs).toNat < 2 ^ 8 := (r.fetchByte bs).isLt
  have h2 : ((r.value <<< 8).toNat) = 2 ^ 8 * (r.value.toNat % 2 ^ 24) := by
    rw [BitVec.toNat_shiftLeft, Nat.shiftLeft_eq]; omega
  show ((r.value <<< 8) ||| (r.fetchByte bs).setWidth 32).toNat = _
  rw [BitVec.toNat_or, h2, BitVec.toNat_setWidth, Nat.mod_eq_of_lt (a := (r.fetchByte bs).toNat) (by omega),
    ← Nat.two_pow_add_eq_or_of_lt h1]
  omega

/-! ### Renormalization (R106) -/

/-- `k` turns that the bits at hand suffice for: `range` and `bits_left` move, nothing is fetched. -/
theorem renormTurn_iterate_of_le (k : Nat) (h : k ≤ r.bitsLeft.toNat) :
    (Reader.renormTurn bs)^[k] r = { r with bitsLeft := r.bitsLeft - BitVec.ofNat 4 k, range := r.range <<< k } := by
  induction k with
  | zero => simp
  | succ k ih =>
    have h0 : r.bitsLeft.toNat < 16 := r.bitsLeft.isLt
    have hb : r.bitsLeft - BitVec.ofNat 4 k ≠ 0 := by
      intro he
      have := congrArg BitVec.toNat he
      rw [BitVec.toNat_sub_of_le (by rw [BitVec.le_def, BitVec.toNat_ofNat]; omega), BitVec.toNat_ofNat] at this
      simp at this
      omega
    rw [Function.iterate_succ_apply', ih (by omega)]
    simp only [Reader.renormTurn, hb, if_false, BitVec.shiftLeft_add]
    congr 1
    apply BitVec.eq_of_toNat_eq
    simp only [BitVec.toNat_sub, BitVec.toNat_ofNat, show (1 : BitVec 4).toNat = 1 from rfl]
    omega

/-- `k` turns that need a fetch: the byte after the cursor comes in, once. -/
theorem renormTurn_iterate_of_lt (k : Nat) (h : r.bitsLeft.toNat < k) (hk : k ≤ r.bitsLeft.toNat + 8) (h7 : r.bitsLeft.toNat ≤ 7) :
    (Reader.renormTurn bs)^[k] r =
      { r.refill bs with bitsLeft := BitVec.ofNat 4 (r.bitsLeft.toNat + 8 - k), range := r.range <<< k } := by
  obtain ⟨j, rfl⟩ := Nat.exists_eq_add_of_lt h
  have h0 : r.bitsLeft.toNat < 16 := r.bitsLeft.isLt
  have e : r.bitsLeft.toNat + j + 1 = j + (r.bitsLeft.toNat + 1) := by omega
  rw [e, Function.iterate_add_apply, Function.iterate_succ_apply', renormTurn_iterate_of_le _ (Nat.le_refl _)]
  have hz : r.bitsLeft - BitVec.ofNat 4 r.bitsLeft.toNat = 0 := by simp
  have hone : Reader.renormTurn bs { r with bitsLeft := r.bitsLeft - BitVec.ofNat 4 r.bitsLeft.toNat, range := r.range <<< r.bitsLeft.toNat } =
      { r.refill bs with bitsLeft := 7, range := r.range <<< (r.bitsLeft.toNat + 1) } := by
    simp only [Reader.renormTurn, hz, if_true, BitVec.shiftLeft_add, Reader.refill, Reader.fetchByte, Reader.fetchCursor]
    congr 1
  rw [hone, renormTurn_iterate_of_le j (by show j ≤ 7; omega), ← BitVec.shiftLeft_add]
  congr 1
  · congr 1; omega
  · apply BitVec.eq_of_toNat_eq
    simp [BitVec.toNat_sub, BitVec.toNat_ofNat]
    omega

/-- Renormalization is the number of turns that brings `range` to 128..255. -/
theorem renormTurns_eq_iterate {fuel : Nat} (k : Nat) (hk : k ≤ fuel) (hl : 128 ≤ r.range.toNat * 2 ^ k)
    (hu : ∀ j < k, r.range.toNat * 2 ^ j < 128) : r.renormTurns bs fuel = (Reader.renormTurn bs)^[k] r := by
  induction fuel generalizing r k with
  | zero => obtain rfl : k = 0 := by omega
            rfl
  | succ fuel ih =>
    cases k with
    | zero =>
      have : ¬ r.range.toNat < 128 := by simpa using hl
      simp [Reader.renormTurns, this]
    | succ k =>
      have h0 : r.range.toNat < 128 := by simpa using hu 0 (by omega)
      have h1 : (r.renormTurn bs).range.toNat = r.range.toNat * 2 := by
        have : (r.renormTurn bs).range = r.range <<< 1 := by unfold Reader.renormTurn; split <;> rfl
        rw [this, BitVec.toNat_shiftLeft, Nat.shiftLeft_eq]
        omega
      simp only [Reader.renormTurns, h0, if_true, Function.iterate_succ_apply]
      refine ih k (by omega) ?_ fun j hj => ?_
      · rw [h1, Nat.mul_assoc, ← Nat.pow_succ']; exact hl
      · rw [h1, Nat.mul_assoc, ← Nat.pow_succ']; exact hu (j + 1) (by omega)

/-- The number of turns of a nonzero `range` (R106). -/
theorem exists_turns {n : Nat} (h1 : 1 ≤ n) (h2 : n < 256) :
    ∃ k ≤ 7, 128 ≤ n * 2 ^ k ∧ n * 2 ^ k < 256 ∧ k = 7 - Nat.log2 n ∧ ∀ j < k, n * 2 ^ j < 128 := by
  have : ∀ n : Fin 256, 1 ≤ n.val → (7 - Nat.log2 n.val ≤ 7 ∧ 128 ≤ n.val * 2 ^ (7 - Nat.log2 n.val) ∧
      n.val * 2 ^ (7 - Nat.log2 n.val) < 256 ∧ ∀ j < 7 - Nat.log2 n.val, n.val * 2 ^ j < 128) := by
    decide +kernel
  obtain ⟨a, b, c, d⟩ := this ⟨n, h2⟩ h1
  exact ⟨_, a, b, c, rfl, d⟩

/-- `Renormalize` in closed form: with `k` turns, either the bits at hand suffice or one byte is fetched. -/
theorem renormalize_eq (h1 : 1 ≤ r.range.toNat) (h7 : r.bitsLeft.toNat ≤ 7) :
    (7 - Nat.log2 r.range.toNat ≤ r.bitsLeft.toNat →
      r.renormalize bs =
        { r with
          bitsLeft := BitVec.ofNat 4 (r.bitsLeft.toNat - (7 - Nat.log2 r.range.toNat))
          range := r.range <<< (7 - Nat.log2 r.range.toNat) }) ∧
    (r.bitsLeft.toNat < 7 - Nat.log2 r.range.toNat →
      r.renormalize bs =
        { r.refill bs with
          bitsLeft := BitVec.ofNat 4 (r.bitsLeft.toNat + 8 - (7 - Nat.log2 r.range.toNat))
          range := r.range <<< (7 - Nat.log2 r.range.toNat) }) := by
  obtain ⟨k, hk, hl, -, rfl, hj⟩ := exists_turns h1 r.range.isLt
  have e := renormTurns_eq_iterate (bs := bs) _ hk hl hj
  constructor
  · intro h
    rw [Reader.renormalize, e, renormTurn_iterate_of_le _ h]
    congr 1
    apply BitVec.eq_of_toNat_eq
    rw [BitVec.toNat_sub_of_le (by rw [BitVec.le_def, BitVec.toNat_ofNat]; omega), BitVec.toNat_ofNat, BitVec.toNat_ofNat]
    omega
  · intro h
    rw [Reader.renormalize, e, renormTurn_iterate_of_lt _ h (by omega) h7]

/-- The fields after `Renormalize`, as numbers. -/
theorem renormalize_fields (h1 : 1 ≤ r.range.toNat) (h7 : r.bitsLeft.toNat ≤ 7) :
    ∃ k ≤ 7, k = 7 - Nat.log2 r.range.toNat ∧ 128 ≤ r.range.toNat * 2 ^ k ∧
      (r.renormalize bs).range.toNat = r.range.toNat * 2 ^ k ∧
      (r.renormalize bs).bound = r.bound ∧ (r.renormalize bs).valid = r.valid ∧
      (k ≤ r.bitsLeft.toNat → (r.renormalize bs).value = r.value ∧
        (r.renormalize bs).bitsLeft.toNat = r.bitsLeft.toNat - k ∧ (r.renormalize bs).cursor = r.cursor) ∧
      (r.bitsLeft.toNat < k →
        (r.renormalize bs).value.toNat = (r.value.toNat * 256 + (r.fetchByte bs).toNat) % 2 ^ 32 ∧
        (r.renormalize bs).bitsLeft.toNat = r.bitsLeft.toNat + 8 - k ∧ (r.renormalize bs).cursor = r.fetchCursor) := by
  obtain ⟨k, hk, hl, hu, rfl, -⟩ := exists_turns h1 r.range.isLt
  obtain ⟨ha, hb⟩ := renormalize_eq (bs := bs) h1 h7
  have hr : (r.range <<< (7 - Nat.log2 r.range.toNat)).toNat = r.range.toNat * 2 ^ (7 - Nat.log2 r.range.toNat) := by
    rw [BitVec.toNat_shiftLeft, Nat.shiftLeft_eq, Nat.mod_eq_of_lt hu]
  refine ⟨_, hk, rfl, hl, ?_⟩
  rcases Nat.lt_or_ge r.bitsLeft.toNat (7 - Nat.log2 r.range.toNat) with h | h
  · rw [hb h]
    refine ⟨hr, rfl, rfl, fun h' => absurd h' (by omega), fun _ => ⟨refill_value bs r, ?_, rfl⟩⟩
    exact (BitVec.toNat_ofNat ..).trans (Nat.mod_eq_of_lt (by omega))
  · rw [ha h]
    refine ⟨hr, rfl, rfl, fun _ => ⟨rfl, ?_, rfl⟩, fun h' => absurd h' (by omega)⟩
    exact (BitVec.toNat_ofNat ..).trans (Nat.mod_eq_of_lt (by omega))

@[simp] theorem renormTurns_bound (bs : Nat → Byte) (k : Nat) (r : Reader) : (r.renormTurns bs k).bound = r.bound := by
  induction k generalizing r with
  | zero => rfl
  | succ k ih =>
    unfold Reader.renormTurns
    split
    · rw [ih]; unfold Reader.renormTurn; split <;> rfl
    · rfl

@[simp] theorem renormTurns_valid (bs : Nat → Byte) (k : Nat) (r : Reader) : (r.renormTurns bs k).valid = r.valid := by
  induction k generalizing r with
  | zero => rfl
  | succ k ih =>
    unfold Reader.renormTurns
    split
    · rw [ih]; unfold Reader.renormTurn; split <;> rfl
    · rfl

@[simp] theorem afterBit_bound (bs : Nat → Byte) (prob : Nat) (r : Reader) : (r.afterBit bs prob).bound = r.bound := by
  simp [Reader.afterBit, Reader.renormalize]

@[simp] theorem afterBit_valid (bs : Nat → Byte) (prob : Nat) (r : Reader) : (r.afterBit bs prob).valid = r.valid := by
  simp [Reader.afterBit, Reader.renormalize]

@[simp] theorem readBits_valid (bs : Nat → Byte) (n acc : Nat) (r : Reader) : (r.readBits bs n acc).2.valid = r.valid := by
  induction n generalizing acc r with
  | zero => rfl
  | succ n ih => exact (ih _ _).trans (afterBit_valid bs 128 r)

/-- `n` decoded bits are a number below `2^n` (R110). -/
theorem readBits_lt (bs : Nat → Byte) (n acc : Nat) (r : Reader) : (r.readBits bs n acc).1 < (acc + 1) * 2 ^ n := by
  induction n generalizing acc r with
  | zero => simp [Reader.readBits]
  | succ n ih =>
    refine Nat.lt_of_lt_of_le (ih _ _) ?_
    have hb : (r.bit 128).toNat ≤ 1 := Bool.toNat_le _
    rw [Nat.pow_succ, ← Nat.mul_assoc, Nat.mul_right_comm]
    exact Nat.mul_le_mul_right _ (by omega)

/-- The fields after `GetBit`, as numbers, in terms of the reader after the branch. -/
theorem afterBit_fields (h2 : 2 ≤ r.range.toNat) (hp : prob ≤ 255) (h7 : r.bitsLeft.toNat ≤ 7) :
    ∃ k ≤ 7, k = 7 - Nat.log2 (r.branch prob).range.toNat ∧ 128 ≤ (r.branch prob).range.toNat * 2 ^ k ∧
      (r.afterBit bs prob).range.toNat = (r.branch prob).range.toNat * 2 ^ k ∧
      (r.afterBit bs prob).bound = r.bound ∧ (r.afterBit bs prob).valid = r.valid ∧
      (k ≤ r.bitsLeft.toNat → (r.afterBit bs prob).value = (r.branch prob).value ∧
        (r.afterBit bs prob).bitsLeft.toNat = r.bitsLeft.toNat - k ∧ (r.afterBit bs prob).cursor = r.cursor) ∧
      (r.bitsLeft.toNat < k →
        (r.afterBit bs prob).value.toNat = ((r.branch prob).value.toNat * 256 + (r.fetchByte bs).toNat) % 2 ^ 32 ∧
        (r.afterBit bs prob).bitsLeft.toNat = r.bitsLeft.toNat + 8 - k ∧
        (r.afterBit bs prob).cursor = r.fetchCursor) := by
  have h := renormalize_fields (bs := bs) (branch_range_pos h2 hp) (r := r.branch prob) (by simpa using h7)
  have hf : (r.branch prob).fetchByte bs = r.fetchByte bs := by simp [Reader.fetchByte]
  have hc : (r.branch prob).fetchCursor = r.fetchCursor := by simp [Reader.fetchCursor]
  simpa only [Reader.afterBit, branch_bitsLeft, branch_cursor, branch_bound, branch_valid, hf, hc] using h

/-! ### Legal readers (spec/10_state.md R21; R112) -/

theorem renormalize_legal {p : Params} (h1 : 1 ≤ r.range.toNat) (h7 : r.bitsLeft.toNat ≤ 7)
    (hc : r.cursor.toNat ≤ p.bsSize) (hb : r.bound.toNat ≤ p.bsSize) : (r.renormalize bs).legal p := by
  obtain ⟨k, hk, -, hl, hr, hbd, -, hle, hlt⟩ := renormalize_fields (bs := bs) h1 h7
  rcases Nat.lt_or_ge r.bitsLeft.toNat k with h | h
  · obtain ⟨-, e2, e3⟩ := hlt h
    refine ⟨by omega, by omega, ?_, by rw [hbd]; exact hb⟩
    rw [e3]
    exact fetchCursor_le hc hb
  · obtain ⟨-, e2, e3⟩ := hle h
    exact ⟨by omega, by omega, by rw [e3]; exact hc, by rw [hbd]; exact hb⟩

theorem afterBit_legal {p : Params} (h : r.legal p) (hp : prob ≤ 255) : (r.afterBit bs prob).legal p := by
  obtain ⟨h1, h2, h3, h4⟩ := h
  refine renormalize_legal (branch_range_pos (by omega) hp) ?_ ?_ ?_
  · rw [branch_bitsLeft]; exact h2
  · rw [branch_cursor]; exact h3
  · rw [branch_bound]; exact h4

theorem readBits_legal {p : Params} (n acc : Nat) (h : r.legal p) : (r.readBits bs n acc).2.legal p := by
  induction n generalizing r acc with
  | zero => exact h
  | succ n ih => exact ih _ (afterBit_legal h (by omega))

theorem readSigned_legal {p : Params} (n : Nat) (h : r.legal p) : (r.readSigned bs n).2.legal p :=
  afterBit_legal (readBits_legal n 0 h) (by omega)

theorem start_legal {p : Params} (a : Word) (h : r.legal p) (ha : a.toNat ≤ p.bsSize) : (r.start bs a).legal p := by
  refine ⟨(by decide : 128 ≤ (255 : Byte).toNat), (by decide : (0 : BitVec 4).toNat ≤ 7), ?_, h.2.2.2⟩
  exact fetchCursor_le (r := { r with cursor := a }) ha h.2.2.2

theorem reset_legal (p : Params) : Reader.reset.legal p := by
  refine ⟨by decide, by decide, ?_, ?_⟩
  · exact Nat.zero_le _
  · exact Nat.zero_le _

end Sys2Proof.Machine
end

