-- ==== Sys2Proof/Tests/Slice0.lean ====
section
/-! SUPPORT. The model's own tests: what WellFormed refuses, a word of every command written out from
spec/30_encoding.md R72 and R73, one small step per command with the values of spec/95_test_vectors.md, and for every
statement with hypotheses a state and operands that meet them. -/

namespace Sys2Proof.Tests

-- One theorem after another: many kernel evaluations waiting for each other would each hold a thread.
set_option Elab.async false

open Sys2Proof.Machine Sys2Proof.Claims

/-! ### WellFormed refuses (R72) -/

theorem test_rid_nine_refused :
    (Instr.brSetend 9 0).wellFormed = false ∧ (Instr.brStart 15 0).wellFormed = false ∧
      (Instr.brGetbit 9 128).wellFormed = false ∧ (Instr.brBool 10).wellFormed = false ∧
      (Instr.brValue 9 1).wellFormed = false ∧ (Instr.brSigned 9 1).wellFormed = false := by decide

theorem test_count_refused :
    (Instr.brValue 0 0).wellFormed = false ∧ (Instr.brValue 0 25).wellFormed = false ∧
      (Instr.brSigned 0 0).wellFormed = false ∧ (Instr.brSigned 0 31).wellFormed = false := by decide

theorem test_edges_of_the_ranges_accepted :
    (Instr.brValue 8 24).wellFormed = true ∧ (Instr.brSigned 8 1).wellFormed = true ∧
      (Instr.brSetend 8 0).wellFormed = true := by decide

/-! ### Decoding: a word of every command, its bits written out from R72 and R73 -/

theorem test_decode_nop : decode 0x0000000000000000 = .ok .nop := by decide
theorem test_decode_sysReset : decode 0x0100000000000000 = .ok .sysReset := by decide
theorem test_decode_sysRdc : decode 0x0200ABCD00000000 = .ok (.sysRdc 0xABCD) := by decide
theorem test_decode_sysWrc : decode 0x0300ABCD12345678 = .ok (.sysWrc 0xABCD 0x12345678) := by decide
theorem test_decode_memLdb : decode 0x0800000089ABCDEF = .ok (.memLdb 0x89ABCDEF) := by decide
theorem test_decode_memStb : decode 0x090000A589ABCDEF = .ok (.memStb 0xA5 0x89ABCDEF) := by decide
theorem test_decode_memLdc : decode 0x0A00000089ABCDEF = .ok (.memLdc 0x89ABCDEF) := by decide
theorem test_decode_memStc : decode 0x0B00FFFD00000180 = .ok (.memStc 0xFFFD 384) := by decide
theorem test_decode_brSetend : decode 0x1080000000010000 = .ok (.brSetend 8 65536) := by decide
theorem test_decode_brStart : decode 0x1150000089ABCDEF = .ok (.brStart 5 0x89ABCDEF) := by decide
theorem test_decode_brGetbit : decode 0x1230009100000000 = .ok (.brGetbit 3 145) := by decide
theorem test_decode_brBool : decode 0x1370000000000000 = .ok (.brBool 7) := by decide
theorem test_decode_brValue : decode 0x1460001800000000 = .ok (.brValue 6 24) := by decide
theorem test_decode_brSigned : decode 0x1510000400000000 = .ok (.brSigned 1 4) := by decide
theorem test_decode_xfIwht : decode 0x2000018089ABCDEF = .ok (.xfIwht 384 0x89ABCDEF) := by decide
theorem test_decode_xfIdctadd : decode 0x2100001000000048 = .ok (.xfIdctadd 16 0x48) := by decide
theorem test_decode_ip4 :
    decode 0x3000000089ABCDEF = .ok (.ip4Dc 0x89ABCDEF) ∧ decode 0x3010000000000028 = .ok (.ip4Tm 40) ∧
      decode 0x3020000000000028 = .ok (.ip4Ve 40) ∧ decode 0x3030000000000028 = .ok (.ip4He 40) ∧
      decode 0x3040000000000028 = .ok (.ip4Ld 40) ∧ decode 0x3050000000000028 = .ok (.ip4Rd 40) ∧
      decode 0x3060000000000028 = .ok (.ip4Vr 40) ∧ decode 0x3070000000000028 = .ok (.ip4Vl 40) ∧
      decode 0x3080000000000028 = .ok (.ip4Hd 40) ∧ decode 0x3090000000000028 = .ok (.ip4Hu 40) := by decide
theorem test_decode_ip16 :
    decode 0x3101000000000028 = .ok (.ip16Dc true false 40) ∧ decode 0x3102000000000028 = .ok (.ip16Dc false true 40) ∧
      decode 0x3110000000000028 = .ok (.ip16V 40) ∧ decode 0x3120000000000028 = .ok (.ip16H 40) ∧
      decode 0x3130000000000028 = .ok (.ip16Tm 40) := by decide
theorem test_decode_ip8 :
    decode 0x3203000000000248 = .ok (.ip8Dc true true 584) ∧ decode 0x3210000000000248 = .ok (.ip8V 584) ∧
      decode 0x3220000000000248 = .ok (.ip8H 584) ∧ decode 0x3230000000000248 = .ok (.ip8Tm 584) := by decide
theorem test_decode_lfSetup : decode 0x4000073F00000000 = .ok (.lfSetup 63 7) := by decide
theorem test_decode_lfSmb : decode 0x4101000000000258 = .ok (.lfSmb .horizontal 600) := by decide
theorem test_decode_lfSin : decode 0x4200000000000258 = .ok (.lfSin .vertical 600) := by decide
theorem test_decode_lfNmb : decode 0x4303000000000258 = .ok (.lfNmb .horizontal .eight 600) := by decide
theorem test_decode_lfNin : decode 0x4402000000000258 = .ok (.lfNin .vertical .eight 600) := by decide

/-- V100: undefined `op` values. -/
theorem test_illegal_opcodes :
    decode 0x0400000000000000 = .error .illegalOpcode ∧ decode 0x1600000000000000 = .error .illegalOpcode ∧
      decode 0x3300000000000028 = .error .illegalOpcode ∧ decode 0xFFFFFFFFFFFFFFFF = .error .illegalOpcode := by decide

/-- V100: nonzero must-be-zero bits and fields out of range. -/
theorem test_reserved_fields :
    decode 0x0010000000000000 = .error .reservedField ∧ decode 0x0200000500000001 = .error .reservedField ∧
      decode 0x0900010000000000 = .error .reservedField ∧ decode 0x1090000000000000 = .error .reservedField ∧
      decode 0x1200010000000000 = .error .reservedField ∧ decode 0x1400000000000000 = .error .reservedField ∧
      decode 0x1400001900000000 = .error .reservedField ∧ decode 0x30A0000000000028 = .error .reservedField ∧
      decode 0x3111000000000028 = .error .reservedField ∧ decode 0x3140000000000028 = .error .reservedField ∧
      decode 0x4000004000000000 = .error .reservedField ∧ decode 0x4102000000000040 = .error .reservedField := by decide

/-! ### States for the tests -/

/-- What a command answers and leaves, read by `f`. -/
def after {α : Type} (i : Instr) (s : State) (f : State → α) : Option α :=
  match exec i s with
  | .next t => some (f t)
  | _ => none

/-- The response of a command. -/
def answer (i : Instr) (s : State) : Option Response := (after i s State.resp).join

/-- Samples given as runs: an address and the values from there on. -/
def cells {w : Nat} (runs : List (Nat × List Nat)) : Mem w :=
  Mem.setAll [] (runs.flatMap fun r => r.2.zipIdx.map fun x => (r.1 + x.2, BitVec.ofNat w x.1))

/-- Reset with the given samples and `LFP`. -/
def onSamples (lfp : Word) (runs : List (Nat × List Nat)) : State :=
  { State.reset with sm := cells runs, lfp := Lfp.ofWord lfp }

/-- Reset with the given bitstream and reader 0. -/
def onStream (bytes : List Nat) (r : Reader) : State :=
  { State.reset with bs := cells [(0, bytes)], readers := State.reset.readers.set 0 r }

/-- A reader on V2's stream B2 7B 3E 00, as `BR.START 0, 0` leaves it (V1). -/
def started : Reader := { value := 178, range := 255, bitsLeft := 0, cursor := 1, bound := 4, valid := true }

def v2 : State := onStream [0xB2, 0x7B, 0x3E, 0x00] started

/-- `n` values from address `a` on, as numbers. -/
def samples (t : State) (a n : Nat) : List Nat := (List.range n).map fun k => (t.smByte (a + k)).toNat

/-! ### FE unit (V91, V92, V93) -/

theorem test_nop : answer .nop v2 = some (.ok 0) ∧ after .nop v2 (fun t => (t.res, t.stride)) = some (0, 32) := by decide

theorem test_sysReset :
    after .sysReset { v2 with stride := 64, err := true, cause := 1, res := 1, sm := cells [(5, [9])] }
      (fun t => (t.stride, t.err, t.cause, t.res, (t.readers[0]).valid, t.smByte 5)) =
    some (32, false, 0, 0, false, 9) := by decide

theorem test_sysRdc_stride : answer (.sysRdc 5) { State.reset with stride := 65535 } = some (.ok 65535) := by decide

theorem test_sysRdc_lfp :
    answer (.sysRdc 6) (onSamples 0x33FFF []) = some (.ok 0x33FFF) ∧
      answer (.sysRdc 7) State.reset = some (.err .controlRegister) := by decide

theorem test_sysWrc_stride :
    after (.sysWrc 5 16) State.reset (fun t => (t.stride, t.resp)) = some (16, some (.ok 0)) ∧
      answer (.sysWrc 5 0) State.reset = some (.err .controlRegister) := by decide

theorem test_sysWrc_lfp :
    after (.sysWrc 6 0x12060) State.reset (fun t => (t.lfp.limit, t.lfp.inner, t.lfp.hev)) = some (96, 32, 1) ∧
      answer (.sysWrc 6 0x4000) State.reset = some (.err .controlRegister) := by decide

theorem test_memLdb :
    answer (.memLdb 65535) (onSamples 0 [(65535, [255])]) = some (.ok 255) ∧
      answer (.memLdb 65536) State.reset = some (.err .addressRange) := by decide

theorem test_memStb :
    after (.memStb 127 39) (onSamples 0 [(38, [1, 2, 3])]) (fun t => samples t 38 3) = some [1, 127, 3] := by decide

theorem test_memLdc :
    answer (.memLdc 511) { State.reset with cm := cells [(511, [0x8000])] } = some (.ok 0xFFFF8000) ∧
      answer (.memLdc 512) State.reset = some (.err .addressRange) := by decide

theorem test_memStc :
    after (.memStc 0xFFFD 384) State.reset (fun t => (t.cmElem 384).toInt) = some (-3) := by decide

/-! ### BR unit (V1 to V5, V13, V16) -/

theorem test_brSetend :
    after (.brSetend 0 4) State.reset (fun t => ((t.readers[0]).bound, (t.readers[0]).valid, (t.readers[1]).bound)) =
      some (4, false, 0) ∧ answer (.brSetend 8 65537) State.reset = some (.err .addressRange) := by decide

theorem test_brStart :
    after (.brStart 0 0) { v2 with readers := v2.readers.set 0 { Reader.reset with bound := 4 } } (fun t => t.readers[0]) =
      some started := by decide

theorem test_brStart_empty_span :
    after (.brStart 3 2) State.reset (fun t => t.readers[3]) =
      some { value := 0, range := 255, bitsLeft := 0, cursor := 2, bound := 0, valid := true } := by decide

theorem test_brGetbit :
    after (.brGetbit 0 145) (onStream [0xBB, 0x1F, 0xDA, 0x60] { started with value := 187 })
      (fun t => (t.resp, t.readers[0])) =
    some (some (.ok 1), { value := 11039, range := 222, bitsLeft := 7, cursor := 2, bound := 4, valid := true }) := by
  decide +kernel

theorem test_brGetbit_zero_probability :
    after (.brGetbit 0 0) (onStream [0x00, 0xFF] { started with value := 0, bound := 2 }) (fun t => (t.resp, t.readers[0])) =
      some (some (.ok 0), { value := 255, range := 128, bitsLeft := 1, cursor := 2, bound := 2, valid := true }) := by
  decide +kernel

theorem test_brBool :
    after (.brBool 0) v2 (fun t => (t.resp, t.readers[0])) =
      some (some (.ok 1), { started with value := 12923, range := 254, bitsLeft := 7, cursor := 2 }) := by decide +kernel

theorem test_brBool_never_started : answer (.brBool 1) v2 = some (.err .readerInvalid) := by decide

theorem test_brValue :
    after (.brValue 0 3) v2 (fun t => (t.resp, t.readers[0])) =
      some (some (.ok 5), { started with value := 4795, range := 254, bitsLeft := 5, cursor := 2 }) := by decide +kernel

theorem test_brSigned :
    after (.brSigned 0 4) (onStream [0x5F, 0x82, 0x60, 0x00] { started with value := 0x5F }) (fun t => (t.resp, t.readers[0])) =
      some (some (.ok 0xFFFFFFFB), { started with value := 1922, range := 128, bitsLeft := 4, cursor := 2 }) := by
  decide +kernel

/-! ### XF unit (V31, V37) -/

/-- Signed values as CM elements. -/
def coeffCells (a : Nat) (vs : List Int) : Mem 16 := Mem.setAll [] (vs.zipIdx.map fun x => (a + x.2, BitVec.ofInt 16 x.1))

def v31 : List Int := [64, -24, 8, 0, 16, -8, 0, 0, -32, 0, 8, 0, 4, 0, 0, -4]

theorem test_xfIwht :
    after (.xfIwht 384 0) { State.reset with cm := coeffCells 384 v31 }
      (fun t => (List.range 16).map fun k => (t.cmElem (16 * k)).toInt) =
    some [4, 1, 8, 13, 10, 9, 18, 17, 8, 9, 12, 13, 2, -3, 2, 5] := by decide +kernel

/-- The four rows of a 4×4 block at 40 with pitch 32. -/
def rows (t : State) : List (List Nat) := (List.range 4).map fun y => samples t (40 + 32 * y) 4

theorem test_xfIdctadd :
    after (.xfIdctadd 16 40)
      { onSamples 0 [(40, [250, 252, 254, 255]), (72, [3, 2, 1, 0]), (104, [128, 128, 128, 128]), (136, [0, 255, 0, 255])] with
        cm := coeffCells 16 [120, -45, 12, 0, 30, -10, 0, 0, -8, 4, 0, 0, 0, 0, 0, 2] }
      rows =
    some [[255, 255, 255, 255], [13, 15, 21, 29], [137, 137, 144, 151], [6, 255, 9, 255]] := by decide +kernel

/-! ### IP unit (V40, V43, V47) -/

/-- V40's context. -/
def v40 : State := onSamples 0 [(7, [50, 60, 72, 85, 99, 120, 140, 165, 200]), (39, [45]), (71, [38]), (103, [30]), (135, [25])]

theorem test_ip4Dc : after (.ip4Dc 40) v40 rows = some (List.replicate 4 [57, 57, 57, 57]) := by decide +kernel
theorem test_ip4Tm :
    after (.ip4Tm 40) v40 rows = some [[55, 67, 80, 94], [48, 60, 73, 87], [40, 52, 65, 79], [35, 47, 60, 74]] := by
  decide +kernel
theorem test_ip4Ve : after (.ip4Ve 40) v40 rows = some (List.replicate 4 [61, 72, 85, 101]) := by decide +kernel
theorem test_ip4He :
    after (.ip4He 40) v40 rows = some [[45, 45, 45, 45], [38, 38, 38, 38], [31, 31, 31, 31], [26, 26, 26, 26]] := by
  decide +kernel
theorem test_ip4Ld :
    after (.ip4Ld 40) v40 rows =
      some [[72, 85, 101, 120], [85, 101, 120, 141], [101, 120, 141, 168], [120, 141, 168, 191]] := by decide +kernel
theorem test_ip4Rd :
    after (.ip4Rd 40) v40 rows = some [[51, 61, 72, 85], [45, 51, 61, 72], [38, 45, 51, 61], [31, 38, 45, 51]] := by
  decide +kernel
theorem test_ip4Vr :
    after (.ip4Vr 40) v40 rows = some [[55, 66, 79, 92], [51, 61, 72, 85], [45, 55, 66, 79], [38, 51, 61, 72]] := by
  decide +kernel
theorem test_ip4Vl :
    after (.ip4Vl 40) v40 rows = some [[66, 79, 92, 110], [72, 85, 101, 120], [79, 92, 110, 141], [85, 101, 120, 168]] := by
  decide +kernel
theorem test_ip4Hd :
    after (.ip4Hd 40) v40 rows = some [[48, 51, 61, 72], [42, 45, 48, 51], [34, 38, 42, 45], [28, 31, 34, 38]] := by
  decide +kernel
theorem test_ip4Hu :
    after (.ip4Hu 40) v40 rows = some [[42, 38, 34, 31], [34, 31, 28, 26], [28, 26, 25, 25], [25, 25, 25, 25]] := by
  decide +kernel

/-- The left column of V43 and V47. -/
def leftColumn : List Nat := [47, 100, 153, 206, 79, 132, 185, 58, 111, 164, 217, 90, 143, 196, 69, 122]

/-- V43's context, which holds V47's. -/
def v43 : State :=
  onSamples 0 ((7, [90, 31, 68, 105, 142, 179, 216, 53, 90, 127, 164, 201, 38, 75, 112, 149, 186]) ::
    leftColumn.zipIdx.map fun x => (39 + 32 * x.2, [x.1]))

theorem test_ip16Dc :
    after (.ip16Dc false false 40) v43 (fun t => samples t 40 1) = some [125] ∧
      after (.ip16Dc true false 40) v43 (fun t => samples t 40 1) = some [130] := by decide +kernel
theorem test_ip16Dc_edges :
    after (.ip16Dc false true 40) v43 (fun t => samples t 40 1) = some [121] ∧
      after (.ip16Dc true true 40) v43 (fun t => samples t 40 1) = some [128] := by decide +kernel
theorem test_ip16V : after (.ip16V 40) v43 (fun t => samples t 40 4) = some [31, 68, 105, 142] := by decide +kernel
theorem test_ip16H : after (.ip16H 40) v43 (fun t => samples t 72 2) = some [100, 100] := by decide +kernel
theorem test_ip16Tm :
    after (.ip16Tm 40) v43 (fun t => samples t 40 6) = some [0, 25, 62, 99, 136, 173] := by decide +kernel
theorem test_ip8Dc :
    after (.ip8Dc false false 40) v43 (fun t => samples t 40 2) = some [115, 115] ∧
      after (.ip8Dc true false 40) v43 (fun t => samples t 40 2) = some [120, 120] := by decide +kernel
theorem test_ip8Dc_edges :
    after (.ip8Dc false true 40) v43 (fun t => samples t 270 2) = some [111, 111] ∧
      after (.ip8Dc true true 40) v43 (fun t => samples t 270 2) = some [128, 128] := by decide +kernel
theorem test_ip8V : after (.ip8V 40) v43 (fun t => samples t 264 4) = some [31, 68, 105, 142] := by decide +kernel
theorem test_ip8H : after (.ip8H 40) v43 (fun t => samples t 270 2) = some [58, 58] := by decide +kernel
theorem test_ip8Tm : after (.ip8Tm 40) v43 (fun t => samples t 264 4) = some [0, 36, 73, 110] := by decide +kernel

/-! ### LF unit (V70, V71, V72, V73, V76) -/

theorem test_lfSetup :
    (after (.lfSetup 32 3) State.reset fun t => t.lfp.word) = some 0x10646 ∧
      (after (.lfSetup 14 7) State.reset fun t => t.lfp.word) = some 0x0021E := by decide +kernel
theorem test_lfSetup_zero : (after (.lfSetup 0 5) (onSamples 0x33FFF []) fun t => t.lfp.word) = some 0 := by decide +kernel

/-- Sixteen lines with the same eight taps, along rows of pitch 32 (`dir = H`, A = 4). -/
def lines (lfp : Word) (taps : List Nat) : State := onSamples lfp ((List.range 16).map fun i => (32 * i, taps))

/-- The first and the last line of that edge. -/
def firstAndLast (t : State) : List Nat × List Nat := (samples t 0 8, samples t 480 8)

theorem test_lfSmb :
    after (.lfSmb .horizontal 4) (lines 0x12060 [50, 50, 60, 80, 70, 40, 50, 50]) firstAndLast =
      some ([50, 50, 60, 79, 71, 40, 50, 50], [50, 50, 60, 79, 71, 40, 50, 50]) := by decide +kernel
theorem test_lfSin :
    after (.lfSin .horizontal 4) (lines 0x00E2A [9, 9, 90, 100, 104, 140, 9, 9]) firstAndLast =
      some ([9, 9, 90, 95, 109, 140, 9, 9], [9, 9, 90, 95, 109, 140, 9, 9]) := by decide +kernel
theorem test_lfNin :
    after (.lfNin .horizontal .sixteen 4) (lines 0x22878 [100, 100, 100, 100, 140, 140, 140, 140]) firstAndLast =
      some ([100, 100, 108, 115, 125, 132, 140, 140], [100, 100, 108, 115, 125, 132, 140, 140]) := by decide +kernel
theorem test_lfNin_eight :
    after (.lfNin .horizontal .eight 4) (lines 0x12060 [90, 92, 96, 100, 110, 111, 112, 113]) firstAndLast =
      some ([90, 92, 96, 102, 108, 111, 112, 113], [90, 92, 96, 100, 110, 111, 112, 113]) := by decide +kernel
theorem test_lfNmb :
    after (.lfNmb .horizontal .sixteen 4) (lines 0x22878 [100, 100, 100, 100, 140, 140, 140, 140]) firstAndLast =
      some ([100, 106, 111, 117, 123, 129, 134, 140], [100, 106, 111, 117, 123, 129, 134, 140]) := by decide +kernel
theorem test_lf_footprints :
    answer (.lfSmb .vertical 63) State.reset = some (.err .addressRange) ∧
      answer (.lfNmb .vertical .sixteen 65425) State.reset = some (.err .addressRange) ∧
      answer (.lfNmb .vertical .sixteen 65424) State.reset = some (.ok 0) ∧
      answer (.lfNin .horizontal .sixteen 3) State.reset = some (.err .addressRange) := by decide

/-! ### Faults and the step (V101, V102) -/

/-- The first fault is recorded, the second only answered. -/
theorem test_first_fault_is_kept :
    after (.memLdb 65536) { State.reset with err := true, cause := 3, einfo := 0x0300000500000000 }
      (fun t => (t.resp, t.cause, t.einfo)) = some (some (.err .addressRange), 3, 0x0300000500000000) := by decide

theorem test_step_runs_the_word :
    (match step (State.reset.withFetchWord 64 0x0300000500000010) with
      | .next t => some (t.stride, t.inbox)
      | _ => none) = some (16, []) := by decide

/-! ## Witnesses: for every statement with hypotheses, a concrete state and operands that meet them all together, and
for a statement of several clauses one of each clause, at the ends of its range -/

/-! ### Encoding -/

theorem witness_DecodeOfEncodeIsTheCommand : (Instr.brSigned 8 24).wellFormed = true := by decide

theorem witness_EncodeOfDecodeIsTheWord : decode 0x1580001800000000 = .ok (.brSigned 8 24) := by decide

theorem witness_UndefinedOpcodesAreIllegal :
    (0x45FFFFFFFFFFFFFF : Command).toNat / 2 ^ 56 ∉ definedOps ∧ (0x44FFFFFFFFFFFFFF : Command).toNat / 2 ^ 56 ∈ definedOps := by
  decide

/-- A word of the `BR.VALUE` row, with both operands at their upper ends. -/
theorem witness_DecoderIsTheOpcodeTable_row :
    (⟨"BR.VALUE", 0x1400000000000000, 0xFF00000000000000, 0x000FFFE0FFFFFFFF, true, true⟩ : Row) ∈ opcodeTable ∧
      (⟨"BR.VALUE", 0x1400000000000000, 0xFF00000000000000, 0x000FFFE0FFFFFFFF, true, true⟩ : Row).accepts
        0x1480001800000000 := by
  refine ⟨?_, ?_⟩
  · simp [opcodeTable, tableBrXf]
  · unfold Row.accepts; decide

theorem witness_DecoderIsTheOpcodeTable_decodes : decode 0x1480001800000000 = .ok (.brValue 8 24) := by decide

/-- A word of a defined `op` that no row accepts: `BR.VALUE` with `n` 25. -/
theorem witness_DecoderIsTheOpcodeTable_reserved :
    (0x1480001900000000 : Command).toNat / 2 ^ 56 ∈ definedOps ∧
      ∀ row ∈ opcodeTable, ¬ row.accepts 0x1480001900000000 := by
  refine ⟨by decide, fun row hr => ?_⟩
  unfold Row.accepts
  have h : opcodeTable.all (fun row => !decide ((0x1480001900000000 : Command) &&& BitVec.ofNat 64 row.mask =
      BitVec.ofNat 64 row.pattern) || row.count) = true := by decide
  have h' := List.all_eq_true.1 h row hr
  simp only [Bool.or_eq_true, Bool.not_eq_true', decide_eq_false_iff_not] at h'
  rintro ⟨h1, -, -, h2⟩
  rcases h' with h' | h'
  · exact h' h1
  · exact absurd (h2 h') (by decide)

/-! ### The step -/

/-- Reset with things presented. -/
def presented (inbox : List HostInput) : State := { State.reset with inbox := inbox }

theorem witness_StepRunsTheDecodedCommand :
    (presented [.command 0x0200000500000000]).inbox = .command 0x0200000500000000 :: [] ∧
      decode 0x0200000500000000 = .ok (.sysRdc 5) := by decide

theorem witness_StepFaultsOnAWordOfNoCommand :
    (presented [.command 0x0400000000000000]).inbox = .command 0x0400000000000000 :: [] ∧
      decode 0x0400000000000000 = .error .illegalOpcode ∧
      (presented [.command 0x0000000000000001]).inbox = .command 0x0000000000000001 :: [] ∧
      decode 0x0000000000000001 = .error .reservedField := by decide

theorem witness_EveryCommandWordAnswers :
    (presented [.command 0xFFFFFFFFFFFFFFFF, .hardReset]).inbox = .command 0xFFFFFFFFFFFFFFFF :: [.hardReset] := by decide

/-- Nothing presented, and a host write that ends at BS_SIZE. -/
theorem witness_HostWritesBsBetweenCommands :
    State.reset.inbox = [] ∧ (presented [.writeBs 65533 [1, 2, 3]]).inbox = .writeBs 65533 [1, 2, 3] :: [] ∧
      65533 + ([1, 2, 3] : List Byte).length ≤ (presented [.writeBs 65533 [1, 2, 3]]).params.bsSize := by decide

theorem witness_HardwareResetGivesTheResetValues : (presented [.hardReset]).inbox = .hardReset :: [] := by decide

/-! ### Words of one `op` (the hypotheses of `encodedAs`) -/

/-- The word has this `op`, no must-be-zero bit set and every field in range. -/
def accepted (op zeros : Nat) (ok : BitVec 4 → Half → Bool) (w : Command) : Bool :=
  w.toNat / 2 ^ 56 == op && w &&& BitVec.ofNat 64 zeros == 0 &&
    ok (BitVec.ofNat 4 (w.toNat / 2 ^ 52)) (BitVec.ofNat 16 (w.toNat / 2 ^ 32))

/-- The word has this `op` and a must-be-zero bit set. -/
def hasSetBit (op zeros : Nat) (w : Command) : Bool := w.toNat / 2 ^ 56 == op && w &&& BitVec.ofNat 64 zeros != 0

/-- The word has this `op` and a field out of its range. -/
def outOfRange (op : Nat) (ok : BitVec 4 → Half → Bool) (w : Command) : Bool :=
  w.toNat / 2 ^ 56 == op && !ok (BitVec.ofNat 4 (w.toNat / 2 ^ 52)) (BitVec.ofNat 16 (w.toNat / 2 ^ 32))

theorem witness_NopChangesNothing_words :
    accepted 0x00 0x00FFFFFFFFFFFFFF anyFields 0 = true ∧ hasSetBit 0x00 0x00FFFFFFFFFFFFFF 1 = true := by decide

theorem witness_SysResetResetsTheRegistersOnly_words :
    accepted 0x01 0x00FFFFFFFFFFFFFF anyFields 0x0100000000000000 = true ∧
      hasSetBit 0x01 0x00FFFFFFFFFFFFFF 0x0180000000000000 = true := by decide

theorem witness_SysRdcReadsTheRegisterMap_words :
    accepted 0x02 0x00FF0000FFFFFFFF anyFields 0x0200FFFF00000000 = true ∧
      hasSetBit 0x02 0x00FF0000FFFFFFFF 0x0200000580000000 = true := by decide

theorem witness_SysWrcWritesStrideAndLfp_words :
    accepted 0x03 0x00FF000000000000 anyFields 0x0300FFFFFFFFFFFF = true ∧
      hasSetBit 0x03 0x00FF000000000000 0x0301000500000020 = true := by decide

theorem witness_SamplesAreLoadedAndStored_words :
    accepted 0x08 0x00FFFFFF00000000 anyFields 0x08000000FFFFFFFF = true ∧
      hasSetBit 0x08 0x00FFFFFF00000000 0x0800000100000000 = true ∧
      accepted 0x09 0x00FFFF0000000000 anyFields 0x090000FFFFFFFFFF = true ∧
      hasSetBit 0x09 0x00FFFF0000000000 0x0900010000000000 = true := by decide

theorem witness_CoefficientsAreLoadedAndStored_words :
    accepted 0x0A 0x00FFFFFF00000000 anyFields 0x0A000000FFFFFFFF = true ∧
      hasSetBit 0x0A 0x00FFFFFF00000000 0x0A00800000000000 = true ∧
      accepted 0x0B 0x00FF000000000000 anyFields 0x0B00FFFFFFFFFFFF = true ∧
      hasSetBit 0x0B 0x00FF000000000000 0x0B10000000000000 = true := by decide

theorem witness_BrSetendSetsTheEnd_words :
    accepted 0x10 0x000FFFFF00000000 ridField 0x10800000FFFFFFFF = true ∧
      hasSetBit 0x10 0x000FFFFF00000000 0x1080000100000000 = true ∧
      outOfRange 0x10 ridField 0x1090000000000000 = true := by decide

theorem witness_BrBoolIsGetbit128_words :
    accepted 0x13 0x000FFFFFFFFFFFFF ridField 0x1380000000000000 = true ∧
      hasSetBit 0x13 0x000FFFFFFFFFFFFF 0x1380000000000001 = true ∧
      outOfRange 0x13 ridField 0x1390000000000000 = true := by decide

theorem witness_BrValueIsRepeatedBool_words :
    accepted 0x14 0x000FFFE0FFFFFFFF ridCountFields 0x1480001800000000 = true ∧
      hasSetBit 0x14 0x000FFFE0FFFFFFFF 0x1480002000000000 = true ∧
      outOfRange 0x14 ridCountFields 0x1490000100000000 = true ∧
      outOfRange 0x14 ridCountFields 0x1400000000000000 = true ∧
      outOfRange 0x14 ridCountFields 0x1400001900000000 = true := by decide

theorem witness_BrSignedIsMagnitudeThenSign_words :
    accepted 0x15 0x000FFFE0FFFFFFFF ridCountFields 0x1580000100000000 = true ∧
      hasSetBit 0x15 0x000FFFE0FFFFFFFF 0x1580002000000000 = true ∧
      outOfRange 0x15 ridCountFields 0x1590000100000000 = true ∧
      outOfRange 0x15 ridCountFields 0x1500000000000000 = true ∧
      outOfRange 0x15 ridCountFields 0x1500001900000000 = true := by decide

/-! ### FE unit -/

/-- A state with every register away from its reset value. -/
def used : State := { v2 with stride := 64, err := true, cause := 1, einfo := 0x0400000000000000, res := 1, lfp := Lfp.ofWord 0x12060 }

theorem witness_SysResetResetsTheRegistersOnly :
    (Instr.nop ≠ .sysReset) ∧ exec .nop used = .next (used.respond 0) ∧ used.err = true :=
  ⟨by decide, rfl, by decide⟩

theorem witness_SysResetForgetsTheRegisters :
    v2.bs = used.bs ∧ v2.cm = used.cm ∧ v2.sm = used.sm ∧ v2.epoch = used.epoch ∧ v2.params = used.params ∧
      v2.inbox = used.inbox := ⟨rfl, rfl, rfl, rfl, rfl, rfl⟩

/-- Numbers at the ends of the gaps of the register map. -/
theorem witness_SysRdcReadsTheRegisterMap :
    (∀ n ∈ ([7, 0xF, 0x16, 0x17, 0x56, 0x57, 0x58, 0xFFFF] : List Half),
      (7 ≤ n.toNat ∧ n.toNat < 0x10) ∨ (0x10 ≤ n.toNat ∧ 6 ≤ n.toNat % 8) ∨ 0x58 ≤ n.toNat) := by simp

/-- Values at the ends of each clause, and the numbers beside 5 and 6. -/
theorem witness_SysWrcWritesStrideAndLfp :
    (∀ v ∈ ([1, 65535] : List Word), 1 ≤ v.toNat ∧ v.toNat ≤ 65535) ∧
      (∀ v ∈ ([0, 0x00033FFF] : List Word), v &&& ~~~0x00033FFF#32 = 0) ∧
      (∀ v ∈ ([0, 65536, 0xFFFFFFFF] : List Word), v.toNat = 0 ∨ 65535 < v.toNat) ∧
      (∀ v ∈ ([0x4000, 0x40000, 0x80000000] : List Word), v &&& ~~~0x00033FFF#32 ≠ 0) ∧
      ∀ n ∈ ([4, 7] : List Half), n ≠ 5 ∧ n ≠ 6 := by simp

theorem witness_SamplesAreLoadedAndStored :
    (0 : Word).toNat < State.reset.params.smSize ∧ (65535 : Word).toNat < State.reset.params.smSize ∧
      State.reset.params.smSize ≤ (65536 : Word).toNat := by decide

theorem witness_CoefficientsAreLoadedAndStored :
    (0 : Word).toNat < State.reset.params.cmWords ∧ (511 : Word).toNat < State.reset.params.cmWords ∧
      State.reset.params.cmWords ≤ (512 : Word).toNat := by decide

/-! ### BR unit -/

theorem witness_BrSetendSetsTheEnd :
    (8 : BitVec 4).toNat < 9 ∧ (65536 : Word).toNat ≤ State.reset.params.bsSize ∧
      State.reset.params.bsSize < (65537 : Word).toNat := by decide

/-- A start inside the span, at its end and above BS_SIZE. -/
theorem witness_BrStartPrimesTheReader :
    (0 : BitVec 4).toNat < 9 ∧ (3 : Word).toNat ≤ v2.params.bsSize ∧ (3 : Word).toNat < (v2.readers[0]).bound.toNat ∧
      (65536 : Word).toNat ≤ v2.params.bsSize ∧ ¬ (65536 : Word).toNat < (v2.readers[0]).bound.toNat ∧
      v2.params.bsSize < (65537 : Word).toNat := by decide

/-- A reader with seven bits below the window and no byte left. -/
def lastBit : State := onStream [0xB2] { started with range := 128, bitsLeft := 7, bound := 1 }

/-- A started reader; on `v2` the window (178) reaches the split (128), with `prob` 255 it does not reach 254; the
second state has no byte left. -/
theorem witness_BrGetbitDecodesOneBit :
    (v2.readers[0]).valid = true ∧ 128 ≤ (v2.readers[0]).range.toNat ∧ (v2.readers[0]).bitsLeft.toNat ≤ 7 ∧
      split 255 128 ≤ (v2.readers[0]).window ∧ ¬ split 255 255 ≤ (v2.readers[0]).window ∧
      (lastBit.readers[0]).valid = true ∧ 128 ≤ (lastBit.readers[0]).range.toNat ∧
      (lastBit.readers[0]).bitsLeft.toNat ≤ 7 ∧ (lastBit.readers[0]).bound.toNat ≤ (lastBit.readers[0]).cursor.toNat := by
  decide

theorem witness_SplitStaysInsideTheRange :
    (128 ≤ 128 ∧ 128 ≤ 255 ∧ 0 ≤ 255) ∧ (128 ≤ 255 ∧ 255 ≤ 255 ∧ 255 ≤ 255) := by decide

/-- Windows 0, `range − 1` and between. -/
theorem witness_ExtremeProbabilities :
    ∀ v ∈ ([0, 178, 254] : List Word),
      let s := onStream [0, 0] { started with value := v, bound := 2 }
      (s.readers[0]).valid = true ∧ 128 ≤ (s.readers[0]).range.toNat ∧ (s.readers[0]).bitsLeft.toNat ≤ 7 ∧
        (s.readers[0]).window < (s.readers[0]).range.toNat := by
  intro v hv
  simp only [List.mem_cons, List.not_mem_nil, or_false] at hv
  rcases hv with rfl | rfl | rfl <;> decide

theorem witness_BrBoolIsGetbit128 :
    (0 : BitVec 4).toNat < 9 ∧ (v2.readers[0]).valid = true ∧ (v2.readers[1]).valid = false := by decide

theorem witness_BrValueIsRepeatedBool :
    (v2.readers[0]).valid = true ∧ (v2.readers[1]).valid = false ∧ 1 ≤ (1 : BitVec 5).toNat ∧ (1 : BitVec 5).toNat ≤ 24 ∧ 1 ≤ (24 : BitVec 5).toNat ∧
      (24 : BitVec 5).toNat ≤ 24 := by decide

theorem witness_BrSignedIsMagnitudeThenSign :
    (v2.readers[0]).valid = true ∧ (v2.readers[1]).valid = false ∧ 1 ≤ (1 : BitVec 5).toNat ∧ (1 : BitVec 5).toNat ≤ 24 ∧ 1 ≤ (24 : BitVec 5).toNat ∧
      (24 : BitVec 5).toNat ≤ 24 := by decide

theorem witness_DecodeNeedsAStartedReader :
    ((8 : BitVec 4).toNat < 9 ∧ (State.reset.readers[8]).valid = false ∧ 1 ≤ (24 : BitVec 5).toNat ∧ (24 : BitVec 5).toNat ≤ 24) ∧
      (0 : BitVec 5).toNat = 0 ∧ 24 < (25 : BitVec 5).toNat ∧ 9 ≤ (9 : BitVec 4).toNat := by decide

/-- A span whose first byte is 0xFE; a reader whose window is one below `range`. -/
theorem witness_NormalRegimeIsKept :
    let s := onStream [0xFE] { Reader.reset with bound := 1 }
    let t := onStream [0xFE] { started with value := 254, bound := 1 }
    ((0 : Word).toNat ≤ s.params.bsSize ∧ (0 : Word).toNat < (s.readers[0]).bound.toNat ∧ s.bsByte (0 : Word).toNat ≠ 0xFF) ∧
      (t.readers[0]).valid = true ∧ (t.readers[0]).legal t.params ∧ (t.readers[0]).normal := by decide +kernel

theorem witness_OnlyByteFFDecodesOnes :
    let s := onStream [0xFF] { Reader.reset with bound := 1 }
    let t := onStream [0xFF] { started with value := 255, bound := 1 }
    ((0 : Word).toNat < s.params.bsSize ∧ (s.readers[0]).bound.toNat = (0 : Word).toNat + 1 ∧
        s.bsByte (0 : Word).toNat = 0xFF) ∧
      (t.readers[0]).valid = true ∧ (t.readers[0]).legal t.params ∧
      (t.readers[0]).value.toNat = (t.readers[0]).range.toNat * 2 ^ (t.readers[0]).bitsLeft.toNat ∧
      (t.readers[0]).bound.toNat ≤ (t.readers[0]).cursor.toNat := by decide +kernel

/-- Two states that share reader 0, the sizes and BS, and differ elsewhere. -/
theorem witness_ReadersAreIndependent :
    readerNamed (.brBool 0) = some 0 ∧ used.readers[0] = v2.readers[0] ∧ used.params = v2.params ∧
      (∀ a, used.bsByte a = v2.bsByte a) ∧ (∃ t, exec (.brBool 0) v2 = .next t) ∧ ∃ t, exec (.brBool 0) used = .next t :=
  ⟨rfl, rfl, rfl, fun _ => rfl, ⟨_, rfl⟩, ⟨_, rfl⟩⟩

theorem witness_DoublingReaderDecodesTheSameBits :
    (0 : BitVec 4).toNat < 9 ∧ (0 : Word).toNat ≤ v2.params.bsSize ∧
      spanByte v2.bsByte (0 : Word).toNat (v2.readers[0]).bound.toNat 0 ≠ 255 := by decide

/-! ### XF unit -/

theorem witness_XfIwhtStoresTheHadamardSums :
    ((496 : Half).toNat + 15 < State.reset.params.cmWords ∧ (271 : Word).toNat + 240 < State.reset.params.cmWords) ∧
      State.reset.params.cmWords ≤ (497 : Half).toNat + 15 ∧ State.reset.params.cmWords ≤ (272 : Word).toNat + 240 := by decide

/-- A first input alone, and inputs at both ends of 16 bits. -/
theorem witness_IwhtBroadcastAndRange :
    (∀ k, 1 ≤ k → k < 16 → (fun k : Nat => if k = 0 then (100 : Int) else 0) k = 0) ∧
      ∀ k < 16, -32768 ≤ (fun k : Nat => if k % 2 = 0 then (-32768 : Int) else 32767) k ∧
        (fun k : Nat => if k % 2 = 0 then (-32768 : Int) else 32767) k ≤ 32767 := by
  refine ⟨fun k h _ => ?_, by decide⟩
  have : k ≠ 0 := by omega
  simp [this]

theorem witness_XfIdctaddAddsTheResidual :
    ((496 : Half).toNat + 15 < State.reset.params.cmWords ∧
      (65436 : Word).toNat + 3 * State.reset.stride.toNat + 3 < State.reset.params.smSize) ∧
      State.reset.params.cmWords ≤ (497 : Half).toNat + 15 ∧
      State.reset.params.smSize ≤ (65437 : Word).toNat + 3 * State.reset.stride.toNat + 3 := by decide

theorem witness_IdctOfOneCoefficientIsFlat :
    (∀ k, 1 ≤ k → k < 16 → (fun k : Nat => if k = 0 then (0 : Int) else 0) k = 0) ∧
      (fun k : Nat => if k = 0 then (0 : Int) else 0) 0 = 0 := by simp

/-! ### IP unit: footprints at both ends of SM, for the three sizes (V52) -/

theorem witness_Ip4_fits : predictionFits 4 7 33 State.reset ∧ predictionFits 4 7 65436 State.reset := by
  unfold predictionFits; decide +kernel

theorem witness_Ip4_does_not_fit : ¬ predictionFits 4 7 32 State.reset ∧ ¬ predictionFits 4 7 65437 State.reset := by
  unfold predictionFits; decide +kernel

theorem witness_Ip16_fits : predictionFits 16 15 33 State.reset ∧ predictionFits 16 15 65040 State.reset := by
  unfold predictionFits; decide +kernel

theorem witness_Ip16_does_not_fit : ¬ predictionFits 16 15 32 State.reset ∧ ¬ predictionFits 16 15 65041 State.reset := by
  unfold predictionFits; decide +kernel

theorem witness_Ip8_fits : predictionFits 8 7 33 State.reset ∧ predictionFits 8 7 65304 State.reset := by
  unfold predictionFits; decide +kernel

theorem witness_Ip8_does_not_fit : ¬ predictionFits 8 7 32 State.reset ∧ ¬ predictionFits 8 7 65305 State.reset := by
  unfold predictionFits; decide +kernel

/-! ### LF unit -/

theorem witness_LfSetupComputesLfp :
    (0 : BitVec 6).toNat = 0 ∧ (1 : BitVec 6).toNat ≠ 0 ∧ (63 : BitVec 6).toNat ≠ 0 := by decide

/-- Edges that just fit and just do not, with the filter off (V76). -/
theorem witness_EdgeRangeIsCheckedFirst :
    (¬ edgeFits 2 16 .vertical 63 State.reset ∧ ¬ edgeFits 4 (positions .eight) .vertical 65433 State.reset) ∧
      (State.reset.lfp.limit = 0 ∧ edgeFits 2 16 .vertical 64 State.reset) ∧
      State.reset.lfp.limit = 0 ∧ edgeFits 4 (positions .eight) .vertical 65432 State.reset := by
  unfold edgeFits; decide

/-- The filter on, at the lowest edge that fits, one for each test that a line may pass or fail. -/
theorem witness_SimpleFilterOnBothEdges :
    let s := lines 0x12060 [50, 50, 60, 80, 70, 40, 50, 50]
    s.stride ≠ 0 ∧ edgeFits 2 16 .horizontal 2 s ∧ s.lfp.limit ≠ 0 := by
  unfold edgeFits; decide

theorem witness_NormalFilterOnMacroblockEdges :
    let s := lines 0x12060 [90, 92, 96, 100, 110, 111, 112, 113]
    s.stride ≠ 0 ∧ edgeFits 4 (positions .sixteen) .horizontal 4 s ∧ edgeFits 4 (positions .eight) .vertical 128 s ∧
      s.lfp.limit ≠ 0 := by
  unfold edgeFits; decide

theorem witness_NormalFilterOnInnerEdges :
    let s := lines 0x12060 [90, 92, 96, 100, 110, 111, 112, 113]
    s.stride ≠ 0 ∧ edgeFits 4 (positions .sixteen) .horizontal 4 s ∧ edgeFits 4 (positions .eight) .vertical 128 s ∧
      s.lfp.limit ≠ 0 := by
  unfold edgeFits; decide

theorem passesNormal_of_values :
    passesNormal 96 32 (fun j => [90, 92, 96, 100, 110, 111, 112, 113].getD (j + 4).toNat 0) ∧
      highVariance 1 (fun j => [90, 92, 96, 100, 110, 111, 112, 113].getD (j + 4).toNat 0) ∧
      passesNormal 96 32 (fun j => [100, 100, 100, 100, 110, 110, 110, 110].getD (j + 4).toNat 0) ∧
      ¬ highVariance 1 (fun j => [100, 100, 100, 100, 110, 110, 110, 110].getD (j + 4).toNat 0) ∧
      ¬ passesNormal 96 32 (fun j => [100, 100, 100, 100, 110, 110, 110, 150].getD (j + 4).toNat 0) := by
  simp only [passesNormal, passesSimple, highVariance, abs_eq_max_neg]
  decide

/-- Edge commands that complete with `{OK, 0}`, with the filter on. -/
theorem witness_EdgeCommandsStayNearTheEdge :
    answer (.lfSmb .horizontal 4) (lines 0x12060 [50, 50, 60, 80, 70, 40, 50, 50]) = some (.ok 0) ∧
      answer (.lfNin .horizontal .eight 4) (lines 0x12060 [50, 50, 60, 80, 70, 40, 50, 50]) = some (.ok 0) ∧
      answer (.lfNmb .horizontal .sixteen 4) (lines 0x12060 [50, 50, 60, 80, 70, 40, 50, 50]) = some (.ok 0) := by decide

/-- Samples that all hold 7, with `STRIDE` 1 and the filter on. -/
def flat : State := { onSamples 0x12060 [(0, List.replicate 24 7)] with stride := 1 }

theorem flat_sample (a : Int) (h0 : 0 ≤ a) (h1 : a < 24) : smAt flat a = 7 := by
  have h : ∀ k : Fin 24, smAt flat ((k : Nat) : Int) = 7 := by unfold smAt; decide +kernel
  have e := h ⟨a.toNat, by omega⟩
  rwa [show ((a.toNat : Nat) : Int) = a by omega] at e

theorem witness_FlatLinesAreUnchanged :
    (edgeFits 2 16 .vertical 2 flat ∧ flatEdge (-2) 1 16 .vertical 2 flat) ∧
      edgeFits 4 (positions .sixteen) .horizontal 4 flat ∧ flatEdge (-4) 3 (positions .sixteen) .horizontal 4 flat := by
  refine ⟨⟨by unfold edgeFits; decide, ?_⟩, by unfold edgeFits; decide, ?_⟩
  · intro i hi j k h1 h2 h3 h4
    have e : flat.stride.toNat = 1 := rfl
    have e2 : ((2 : Word).toNat : Int) = 2 := rfl
    rw [flat_sample, flat_sample] <;> simp only [tapAt, e, e2] <;> omega
  · intro i hi j k h1 h2 h3 h4
    have e : flat.stride.toNat = 1 := rfl
    have e2 : ((4 : Word).toNat : Int) = 4 := rfl
    have hp : positions .sixteen = 16 := rfl
    rw [flat_sample, flat_sample] <;> simp only [tapAt, e, e2] <;> omega

/-! ### The whole machine -/

/-- A command that answers `ERR`, before and after a first fault. -/
theorem witness_FaultingCommandChangesOnlyTheRecord :
    answer (.memLdb 65536) State.reset = some (.err .addressRange) ∧ answer (.brBool 9) used = some (.err .reservedField) := by
  decide

theorem witness_FaultRecordIsFirstFaultAndSticky :
    (Instr.memLdb 65536 ≠ .sysReset ∧ used.err = true ∧ answer (.memLdb 65536) used = some (.err .addressRange)) ∧
      State.reset.err = false ∧ answer (.memLdb 65536) State.reset = some (.err .addressRange) := by decide

theorem witness_CausesFollowTheCommandTable :
    answer (.sysRdc 7) State.reset = some (.err .controlRegister) ∧
      answer (.brBool 0) State.reset = some (.err .readerInvalid) := by decide

/-- Two states with the sizes, `STRIDE` and `valid` bits alike and other contents. -/
theorem witness_NoFaultDependsOnData :
    v43.params = State.reset.params ∧ v43.stride = State.reset.stride ∧
      (∀ r : Fin 9, (v43.readers[r]).valid = (State.reset.readers[r]).valid) ∧
      answer (.ip16Dc true true 65041) State.reset = some (.err .addressRange) := by decide +kernel

theorem witness_ResHoldsTheLastAnswer :
    (answersData (.sysRdc 5) = true ∧ answer (.sysRdc 5) State.reset = some (.ok 32)) ∧
      (answersData .nop = false ∧ Instr.nop ≠ .sysReset ∧ answer .nop State.reset = some (.ok 0)) ∧
      answer (.sysRdc 7) State.reset = some (.err .controlRegister) := by decide

/-- A command outside every exception of the statement. -/
theorem witness_CommandsChangeOnlyTheirState :
    (∀ n v, Instr.nop ≠ .sysWrc n v) ∧ (∀ l h, Instr.nop ≠ .lfSetup l h) ∧ Instr.nop ≠ .sysReset ∧
      readerNamed .nop = none ∧ (∀ v k, Instr.nop ≠ .memStc v k) ∧ (∀ a b, Instr.nop ≠ .xfIwht a b) ∧
      storesSamples .nop = false ∧ exec .nop used = .next (used.respond 0) :=
  ⟨nofun, nofun, nofun, rfl, nofun, nofun, rfl, rfl⟩

theorem reset_inv : State.reset.Inv := by decide

theorem witness_EveryStepKeepsTheInvariant :
    (presented [.command 0x0300000500000010]).Inv ∧ ∃ t, step (presented [.command 0x0300000500000010]) = .next t :=
  ⟨by decide, ⟨_, rfl⟩⟩

end Sys2Proof.Tests
end

section
/-! What every step keeps: the invariant `State.Inv` through each state operation, each shared operation of the
meanings, each command and each host input; and what one step runs. -/

namespace Sys2Proof.Machine

variable {s t : State} {w : Command}

/-! ### The invariant through the state operations -/

/-- The invariant does not speak of what the host has presented. -/
theorem State.inv_with_inbox (rest : List HostInput) : State.Inv { s with inbox := rest } ↔ s.Inv := Iff.rfl

@[simp] theorem State.inv_respond (d : Word) : (s.respond d).Inv ↔ s.Inv := Iff.rfl

@[simp] theorem State.inv_answer (v : Word) : (s.answer v).Inv ↔ s.Inv := Iff.rfl

@[simp] theorem State.inv_setLfp (v : Lfp) : (s.setLfp v).Inv ↔ s.Inv := Iff.rfl

theorem State.legal_reader (hs : s.Inv) (r : Fin 9) : (s.reader r).legal s.params := by
  obtain ⟨-, -, -, hreaders, -⟩ := hs
  exact hreaders r

theorem State.inv_setStride {v : Half} (hs : s.Inv) (hv : v ≠ 0) : (s.setStride v).Inv := by
  obtain ⟨hparams, -, hrest⟩ := hs
  exact ⟨hparams, hv, hrest⟩

theorem State.inv_setReader {r : Fin 9} {b : Reader} (hs : s.Inv) (hb : b.legal s.params) : (s.setReader r b).Inv := by
  obtain ⟨hparams, hstride, hrecord, hreaders, hmem⟩ := hs
  refine ⟨hparams, hstride, hrecord, fun q => ?_, hmem⟩
  by_cases hq : q = r
  · subst hq
    rwa [State.reader_setReader_self]
  · rw [State.reader_setReader_ne s r q b hq]
    exact hreaders q

theorem State.inv_loadBs {addr : Nat} {bytes : List Byte} (hs : s.Inv) (hb : addr + bytes.length ≤ s.params.bsSize) :
    (s.loadBs addr bytes).Inv := by
  obtain ⟨hparams, hstride, hrecord, hreaders, ⟨hwf, hin⟩, hcm, hsm⟩ := hs
  exact ⟨hparams, hstride, hrecord, hreaders, ⟨State.wf_loadBs addr bytes hwf, State.inside_loadBs hin hb⟩, hcm, hsm⟩

theorem State.inv_setCm {i : Nat} {v : Half} (hs : s.Inv) (hi : i < s.params.cmWords) : (s.setCm i v).Inv := by
  obtain ⟨hparams, hstride, hrecord, hreaders, hbs, ⟨hwf, hin⟩, hsm⟩ := hs
  exact ⟨hparams, hstride, hrecord, hreaders, hbs, ⟨Mem.wf_set i v hwf, Mem.inside_set v hin hi⟩, hsm⟩

theorem State.inv_writeCoeffs {ws : List (Nat × Int)} (hs : s.Inv) (hw : ∀ x ∈ ws, x.1 < s.params.cmWords) :
    (s.writeCoeffs ws).Inv := by
  obtain ⟨hparams, hstride, hrecord, hreaders, hbs, ⟨hwf, hin⟩, hsm⟩ := hs
  exact ⟨hparams, hstride, hrecord, hreaders, hbs,
    ⟨State.wf_writeCoeffs ws hwf, State.inside_writeCoeffs ws hin hw⟩, hsm⟩

theorem State.inv_setSm {a : Nat} {v : Byte} (hs : s.Inv) (ha : a < s.params.smSize) : (s.setSm a v).Inv := by
  obtain ⟨hparams, hstride, hrecord, hreaders, hbs, hcm, hwf, hin⟩ := hs
  exact ⟨hparams, hstride, hrecord, hreaders, hbs, hcm, Mem.wf_set a v hwf, Mem.inside_set v hin ha⟩

theorem State.inv_writeSamples {ws : List (Int × Int)} (hs : s.Inv) (hw : ∀ x ∈ ws, 0 ≤ x.1 ∧ x.1 < s.params.smSize) :
    (s.writeSamples ws).Inv := by
  obtain ⟨hparams, hstride, hrecord, hreaders, hbs, hcm, hwf, hin⟩ := hs
  exact ⟨hparams, hstride, hrecord, hreaders, hbs, hcm,
    State.wf_writeSamples ws hwf, State.inside_writeSamples ws hin hw⟩

/-- The five codes of R241. -/
theorem Cause.code_range (c : Cause) : 1 ≤ c.code.toNat ∧ c.code.toNat ≤ 5 := by
  cases c <;> decide

/-- The record holds a legal code after every fault: the first fault's own, or the one it held (R243, R244). -/
theorem recordLegal_raise (c : Cause) (w : Command) (h : s.recordLegal) : (raise c w s).recordLegal := by
  refine ⟨fun herr => absurd herr (by simp), fun _ => ?_⟩
  rw [raise_cause]
  split
  · next herr => exact h.2 herr
  · exact c.code_range

theorem inv_raise (c : Cause) (w : Command) (hs : s.Inv) : (raise c w s).Inv := by
  obtain ⟨hparams, hstride, hrecord, hreaders, hbs, hcm, hsm⟩ := hs
  simp only [State.Inv, raise_params, raise_stride, raise_bs, raise_cm, raise_sm,
    State.reader_congr (raise_readers c w s)]
  exact ⟨hparams, hstride, recordLegal_raise c w hrecord, hreaders, hbs, hcm, hsm⟩

/-- Reset registers meet the invariant whatever they held before: it then rests on the sizes and the memories only. -/
theorem State.inv_resetRegisters (hparams : s.params.ok) (hbs : Mem.wf s.bs ∧ Mem.inside s.bs s.params.bsSize)
    (hcm : Mem.wf s.cm ∧ Mem.inside s.cm s.params.cmWords) (hsm : Mem.wf s.sm ∧ Mem.inside s.sm s.params.smSize) :
    s.resetRegisters.Inv := by
  refine ⟨hparams, (by decide : (32 : Half) ≠ 0), ⟨fun _ => ⟨rfl, rfl⟩, nofun⟩, fun r => ?_, hbs, hcm, hsm⟩
  rw [State.reader_resetRegisters]
  exact reset_legal s.params

/-- A memory that nothing has written is canonical and inside every space. -/
theorem Mem.legal_nil (width size : Nat) : Mem.wf ([] : Mem width) ∧ Mem.inside ([] : Mem width) size :=
  ⟨.nil, nofun⟩

/-- The hardware reset meets the invariant from any state of legal sizes: nothing else of the state survives it. -/
theorem State.inv_hardReset (hparams : s.params.ok) : s.hardReset.Inv :=
  State.inv_resetRegisters (s := { s with bs := [], cm := [], sm := [], epoch := s.epoch + 1, resp := none })
    hparams (Mem.legal_nil ..) (Mem.legal_nil ..) (Mem.legal_nil ..)

/-! ### The invariant through the shared operations -/

/-- The footprint of an IP command contains its block (R132), so the block's writes stay inside SM. -/
theorem predictBlock_keeps_inv {n wd : Nat} {p : Predictor} {A : Int} (hs : s.Inv)
    (h : predictBlock n wd p A w s = .next t) : t.Inv := by
  rcases predictBlock_cases h with ⟨hfits, rfl⟩ | ⟨-, rfl⟩
  · refine (State.inv_respond 0).2 (State.inv_writeSamples hs fun x hx => ?_)
    obtain ⟨q, hq, rfl⟩ := List.mem_map.1 hx
    obtain ⟨hcol, hrow⟩ := mem_raster.1 hq
    refine (inSpace_iff _ _).1 hfits _ (mem_ipFootprint.2 (.inr ⟨q.2, hrow, q.1 + 1, by omega, ?_⟩))
    simp only [blockAddr]
    omega
  · exact inv_raise _ _ hs

theorem transformCoeffs_keeps_inv {f : (Nat → Int) → Nat → Int} {src dst : Nat} (hs : s.Inv)
    (h : transformCoeffs f src dst w s = .next t) : t.Inv := by
  rcases transformCoeffs_cases h with ⟨⟨-, hdst⟩, rfl⟩ | ⟨-, rfl⟩
  · refine (State.inv_respond 0).2 (State.inv_writeCoeffs hs fun x hx => ?_)
    obtain ⟨k, hk, rfl⟩ := List.mem_map.1 hx
    have := List.mem_range.1 hk
    show dst + 16 * k < s.params.cmWords
    omega
  · exact inv_raise _ _ hs

/-- No sample of a 4×4 block lies above its last one. -/
theorem blockAddr_le_last {A S : Int} {x y : Nat} (hS : 0 ≤ S) (hx : x < 4) (hy : y < 4) :
    A ≤ blockAddr A S x y ∧ blockAddr A S x y ≤ blockAddr A S 3 3 := by
  have hlow : 0 ≤ (y : Int) * S := Int.mul_nonneg (by omega) hS
  have hhigh : (y : Int) * S ≤ (3 : Nat) * S := Int.mul_le_mul_of_nonneg_right (by omega) hS
  unfold blockAddr
  omega

theorem addResidual_keeps_inv {f : (Nat → Int) → Nat → Int} {src : Nat} {A : Int} (hs : s.Inv) (hA : 0 ≤ A)
    (h : addResidual f src A w s = .next t) : t.Inv := by
  rcases addResidual_cases h with ⟨⟨-, hlast⟩, rfl⟩ | ⟨-, rfl⟩
  · refine (State.inv_respond 0).2 (State.inv_writeSamples hs fun x hx => ?_)
    obtain ⟨q, hq, rfl⟩ := List.mem_map.1 hx
    obtain ⟨hcol, hrow⟩ := mem_raster.1 hq
    obtain ⟨hlow, hhigh⟩ := blockAddr_le_last (A := A) (pitch_nonneg s) hcol hrow
    exact ⟨hA.trans hlow, hhigh.trans_lt hlast⟩
  · exact inv_raise _ _ hs

/-- One position of an edge that passed its range check writes inside SM (R194). -/
theorem filterPosition_keeps_inv {reach n i : Nat} {line : LineFilter} {dir : Dir} {A lo hi : Int} (hs : s.Inv)
    (hfits : edgeInSpace reach n dir A s.pitch s.params.smSize = true) (hi_lt : i < n)
    (hline : writesWithin line lo hi) (hlo : -reach ≤ lo) (hhi : hi < reach) :
    (s.filterPosition line dir A i).Inv := by
  refine State.inv_writeSamples hs fun x hx => ?_
  obtain ⟨y, hy, rfl⟩ := List.mem_map.1 hx
  obtain ⟨hylo, hyhi⟩ := hline _ y hy
  exact tapAddr_inside (pitch_nonneg s) hfits hi_lt (hlo.trans hylo) (hyhi.trans_lt hhi)

/-- Each position leaves the sizes and `STRIDE`, so the range check made once holds at every position. -/
theorem filterEdge_keeps_inv {reach n : Nat} {line : LineFilter} {dir : Dir} {A lo hi : Int} (hs : s.Inv)
    (h : filterEdge reach n line dir A w s = .next t) (hline : writesWithin line lo hi) (hlo : -reach ≤ lo)
    (hhi : hi < reach) : t.Inv := by
  rcases filterEdge_cases h with ⟨-, -, rfl⟩ | ⟨hfits, -, rfl⟩ | ⟨-, rfl⟩
  · exact (State.inv_respond 0).2 hs
  · have hall := filterPositions_induction (line := line)
      (P := fun u => u.Inv ∧ edgeInSpace reach n dir A u.pitch u.params.smSize = true) ⟨hs, hfits⟩
      fun k hk u ⟨hu, hufits⟩ => ⟨filterPosition_keeps_inv hu hufits hk hline hlo hhi, hufits⟩
    exact (State.inv_respond 0).2 hall.1
  · exact inv_raise _ _ hs

theorem openReader_keeps_inv {rid : BitVec 4} {addr : Word} {f : Reader → Reader} (hs : s.Inv)
    (h : openReader rid addr w f s = .next t)
    (hf : ∀ r : Reader, r.legal s.params → addr.toNat ≤ s.params.bsSize → (f r).legal s.params) : t.Inv := by
  rcases openReader_cases h with ⟨hr, haddr, rfl⟩ | ⟨-, rfl⟩ | ⟨-, -, rfl⟩
  · exact (State.inv_respond 0).2 (State.inv_setReader hs (hf _ (State.legal_reader hs _) haddr))
  · exact inv_raise _ _ hs
  · exact inv_raise _ _ hs

theorem decodeWith_keeps_inv {rid : BitVec 4} {ok : Bool} {f : Reader → Word × Reader} (hs : s.Inv)
    (h : decodeWith rid ok w f s = .next t) (hf : ∀ r : Reader, r.legal s.params → (f r).2.legal s.params) :
    t.Inv := by
  rcases decodeWith_cases h with ⟨hr, -, -, rfl⟩ | ⟨-, rfl⟩ | ⟨-, -, -, rfl⟩
  · exact (State.inv_answer _).2 (State.inv_setReader hs (hf _ (State.legal_reader hs _)))
  · exact inv_raise _ _ hs
  · exact inv_raise _ _ hs

/-! ### The invariant through the commands of the FE unit -/

theorem execSysReset_keeps_inv (hs : s.Inv) (h : execSysReset s = .next t) : t.Inv := by
  obtain ⟨hparams, -, -, -, hbs, hcm, hsm⟩ := hs
  cases h
  exact (State.inv_respond 0).2 (State.inv_resetRegisters hparams hbs hcm hsm)

theorem execSysRdc_keeps_inv {n : Half} (hs : s.Inv) (h : execSysRdc n s = .next t) : t.Inv := by
  rcases execSysRdc_cases h with ⟨c, -, rfl⟩ | ⟨-, rfl⟩
  · exact (State.inv_answer _).2 hs
  · exact inv_raise _ _ hs

/-- A `STRIDE` value that `SYS.WRC` accepts is not 0 in its 16 bits (R223, R25). -/
theorem setWidth_stride_ne_zero {v : Word} (h1 : 1 ≤ v.toNat) (h2 : v.toNat ≤ 65535) : v.setWidth 16 ≠ 0 := by
  bv_omega

theorem execSysWrc_keeps_inv {n : Half} {v : Word} (hs : s.Inv) (h : execSysWrc n v s = .next t) : t.Inv := by
  rcases execSysWrc_cases h with ⟨u, hu, rfl⟩ | ⟨-, rfl⟩
  · rw [State.inv_respond]
    rcases writeControlReg_cases hu with ⟨-, h1, h2, rfl⟩ | ⟨-, -, rfl⟩
    · exact State.inv_setStride hs (setWidth_stride_ne_zero h1 h2)
    · exact (State.inv_setLfp _).2 hs
  · exact inv_raise _ _ hs

theorem execMemLdb_keeps_inv {a : Word} (hs : s.Inv) (h : execMemLdb a s = .next t) : t.Inv := by
  rcases execMemLdb_cases h with ⟨-, rfl⟩ | ⟨-, rfl⟩
  · exact (State.inv_answer _).2 hs
  · exact inv_raise _ _ hs

theorem execMemStb_keeps_inv {v : Byte} {a : Word} (hs : s.Inv) (h : execMemStb v a s = .next t) : t.Inv := by
  rcases execMemStb_cases h with ⟨ha, rfl⟩ | ⟨-, rfl⟩
  · exact (State.inv_respond 0).2 (State.inv_setSm hs ha)
  · exact inv_raise _ _ hs

theorem execMemLdc_keeps_inv {i : Word} (hs : s.Inv) (h : execMemLdc i s = .next t) : t.Inv := by
  rcases execMemLdc_cases h with ⟨-, rfl⟩ | ⟨-, rfl⟩
  · exact (State.inv_answer _).2 hs
  · exact inv_raise _ _ hs

theorem execMemStc_keeps_inv {v : Half} {i : Word} (hs : s.Inv) (h : execMemStc v i s = .next t) : t.Inv := by
  rcases execMemStc_cases h with ⟨hi, rfl⟩ | ⟨-, rfl⟩
  · exact (State.inv_respond 0).2 (State.inv_setCm hs hi)
  · exact inv_raise _ _ hs

/-! ### The invariant through every command -/

/-- Every command keeps the invariant: its family's shared operation does. -/
theorem exec_keeps_inv (i : Instr) (hs : s.Inv) (h : exec i s = .next t) : t.Inv := by
  unfold exec at h
  cases i with
  | nop => cases h; exact (State.inv_respond 0).2 hs
  | sysReset => exact execSysReset_keeps_inv hs h
  | sysRdc n => exact execSysRdc_keeps_inv hs h
  | sysWrc n v => exact execSysWrc_keeps_inv hs h
  | memLdb addr => exact execMemLdb_keeps_inv hs h
  | memStb v addr => exact execMemStb_keeps_inv hs h
  | memLdc idx => exact execMemLdc_keeps_inv hs h
  | memStc v idx => exact execMemStc_keeps_inv hs h
  | brSetend rid bound =>
    exact openReader_keeps_inv hs h (fun _ ⟨hrange, hbits, hcursor, _⟩ hb => ⟨hrange, hbits, hcursor, hb⟩)
  | brStart rid start => exact openReader_keeps_inv hs h (fun _ hr hstart => start_legal start hr hstart)
  | brGetbit rid prob => exact decodeWith_keeps_inv hs h (fun _ hr => afterBit_legal hr (by omega))
  | brBool rid => exact decodeWith_keeps_inv hs h (fun _ hr => afterBit_legal hr (by omega))
  | brValue rid n => exact decodeWith_keeps_inv hs h (fun _ hr => readBits_legal n.toNat 0 hr)
  | brSigned rid n => exact decodeWith_keeps_inv hs h (fun _ hr => readSigned_legal n.toNat hr)
  | xfIwht src dst => exact transformCoeffs_keeps_inv hs h
  | xfIdctadd src A => exact addResidual_keeps_inv hs (Int.natCast_nonneg A.toNat) h
  | ip4Dc A | ip4Tm A | ip4Ve A | ip4He A | ip4Ld A | ip4Rd A | ip4Vr A | ip4Vl A | ip4Hd A | ip4Hu A =>
    exact predictBlock_keeps_inv hs h
  | ip16Dc notop noleft A | ip16V A | ip16H A | ip16Tm A => exact predictBlock_keeps_inv hs h
  | ip8Dc notop noleft A | ip8V A | ip8H A | ip8Tm A => exact predictBlock_keeps_inv hs h
  | lfSetup level sharpness => cases h; exact (State.inv_respond 0).2 ((State.inv_setLfp _).2 hs)
  | lfSmb dir A | lfSin dir A => exact filterEdge_keeps_inv hs h (simpleLine_within _) (by omega) (by omega)
  | lfNmb dir n A => exact filterEdge_keeps_inv hs h (normalMbLine_within _ _ _) (by omega) (by omega)
  | lfNin dir n A => exact filterEdge_keeps_inv hs h (normalInnerLine_within _ _ _) (by omega) (by omega)

/-! ### One step -/

/-- A presented command word is taken and run (R31, R231). -/
theorem step_of_command {rest : List HostInput} (h : s.inbox = .command w :: rest) :
    step s = runCommand w { s with inbox := rest } := by
  simp only [step, h]

theorem runCommand_of_decode_ok {i : Instr} (h : decode w = .ok i) : runCommand w s = exec i s := by
  simp only [runCommand, h]

theorem runCommand_of_decode_error {e : DecodeError} (h : decode w = .error e) :
    runCommand w s = raised (decodeCause e) w s := by
  simp only [runCommand, h]

/-- Everything a step that answers a next state can be: idle, a command word run, a host write inside BS, or the
hardware reset. -/
theorem step_cases (h : step s = .next t) :
    (s.inbox = [] ∧ t = s) ∨
    (∃ w rest, s.inbox = .command w :: rest ∧ runCommand w { s with inbox := rest } = .next t) ∨
    (∃ addr bytes rest, s.inbox = .writeBs addr bytes :: rest ∧ addr + bytes.length ≤ s.params.bsSize ∧
      t = State.loadBs { s with inbox := rest } addr bytes) ∨
    (∃ rest, s.inbox = .hardReset :: rest ∧ t = State.hardReset { s with inbox := rest }) := by
  unfold step at h
  split at h
  · next hin => exact .inl ⟨hin, by cases h; rfl⟩
  · next w rest hin => exact .inr (.inl ⟨w, rest, hin, h⟩)
  · next addr bytes rest hin =>
    split at h
    · next hb => exact .inr (.inr (.inl ⟨addr, bytes, rest, hin, hb, by cases h; rfl⟩))
    · cases h
  · next rest hin => exact .inr (.inr (.inr ⟨rest, hin, by cases h; rfl⟩))

/-- A command word keeps the invariant whether it decodes or not. -/
theorem runCommand_keeps_inv (hs : s.Inv) (h : runCommand w s = .next t) : t.Inv := by
  cases hd : decode w with
  | error e =>
    rw [runCommand_of_decode_error hd, raised_eq_next] at h
    exact h ▸ inv_raise _ _ hs
  | ok i => exact exec_keeps_inv i hs ((runCommand_of_decode_ok hd).symm.trans h)

/-- Settles O57: each input the host can present keeps the invariant. -/
theorem everyStepKeepsTheInvariant : Obligations.EveryStepKeepsTheInvariant := by
  intro s t hs h
  rcases step_cases h with ⟨-, rfl⟩ | ⟨w, rest, -, hrun⟩ | ⟨addr, bytes, rest, -, hb, rfl⟩ | ⟨rest, -, rfl⟩
  · exact hs
  · exact runCommand_keeps_inv ((State.inv_with_inbox rest).2 hs) hrun
  · exact State.inv_loadBs ((State.inv_with_inbox rest).2 hs) hb
  · obtain ⟨hparams, -⟩ := hs
    exact State.inv_hardReset hparams

/-- Settles O6: the word is taken, and a word that decodes is executed. -/
theorem stepRunsTheDecodedCommand : Obligations.StepRunsTheDecodedCommand := fun _ _ _ _ hin hd =>
  (step_of_command hin).trans (runCommand_of_decode_ok hd)

/-- Settles O56: at reset every register has its reset value, the sizes are the test vectors' and no memory is
written, so resetting the registers once more gives the same state. -/
theorem resetMeetsTheInvariant : Obligations.ResetMeetsTheInvariant :=
  State.inv_resetRegisters (s := State.reset) (by decide) (Mem.legal_nil ..) (Mem.legal_nil ..) (Mem.legal_nil ..)

end Sys2Proof.Machine
end

section
/-! What a command can do to the state, said once for all 39 commands as `CommandEffect`, and what follows: which
commands change which part of the state, what `RES` holds, that the readers do not see each other, and the reset
values. -/

namespace Sys2Proof.Machine

open Sys2Proof.Claims

variable {s t s' t' : State} {w : Command} {i : Instr} {rid : BitVec 4}

/-! ### The effect of a command -/

/-- Every next state the command `i` can reach from `s`: a fault, or what its kind of command does. New contents are
left open; what stays of `s` is not. -/
inductive CommandEffect (s : State) : Instr → State → Prop
  | fault {i : Instr} (c : Cause) : CommandEffect s i (raise c (encode i) s)
  | nop : CommandEffect s .nop (s.respond 0)
  | reset : CommandEffect s .sysReset (s.resetRegisters.respond 0)
  | answer {i : Instr} (v : Word) (hdata : answersData i = true) : CommandEffect s i (s.answer v)
  | writeStride (n : Half) (v : Word) (x : Half) : CommandEffect s (.sysWrc n v) ((s.setStride x).respond 0)
  | writeLfp (n : Half) (v : Word) (x : Lfp) : CommandEffect s (.sysWrc n v) ((s.setLfp x).respond 0)
  | setupLfp (level : BitVec 6) (sharpness : BitVec 3) (x : Lfp) :
      CommandEffect s (.lfSetup level sharpness) ((s.setLfp x).respond 0)
  | storeCoeff (v : Half) (idx : Word) : CommandEffect s (.memStc v idx) ((s.setCm idx.toNat v).respond 0)
  | storeCoeffs (src : Half) (dst : Word) (ws : List (Nat × Int)) :
      CommandEffect s (.xfIwht src dst) ((s.writeCoeffs ws).respond 0)
  | storeSamples {i : Instr} (m : Mem 8) (hstores : storesSamples i = true) :
      CommandEffect s i (State.respond { s with sm := m } 0)
  | openContext {i : Instr} {rid : BitVec 4} (hr : rid.toNat < 9) (b : Reader) (hrid : readerNamed i = some rid)
      (hdata : answersData i = false) : CommandEffect s i ((s.setReader ⟨rid.toNat, hr⟩ b).respond 0)
  | decodeContext {i : Instr} {rid : BitVec 4} (hr : rid.toNat < 9) (b : Reader) (v : Word)
      (hrid : readerNamed i = some rid) (hdata : answersData i = true) :
      CommandEffect s i ((s.setReader ⟨rid.toNat, hr⟩ b).answer v)

theorem predictBlock_effect {n wd : Nat} {p : Predictor} {A : Int} (hstores : storesSamples i = true)
    (h : predictBlock n wd p A (encode i) s = .next t) : CommandEffect s i t := by
  rcases predictBlock_cases h with ⟨-, rfl⟩ | ⟨-, rfl⟩
  · exact .storeSamples _ hstores
  · exact .fault _

theorem addResidual_effect {f : (Nat → Int) → Nat → Int} {src : Nat} {A : Int} (hstores : storesSamples i = true)
    (h : addResidual f src A (encode i) s = .next t) : CommandEffect s i t := by
  rcases addResidual_cases h with ⟨-, rfl⟩ | ⟨-, rfl⟩
  · exact .storeSamples _ hstores
  · exact .fault _

/-- With `LFP.limit` 0 the samples stored are those that were there. -/
theorem filterEdge_effect {reach n : Nat} {line : LineFilter} {dir : Dir} {A : Int} (hstores : storesSamples i = true)
    (h : filterEdge reach n line dir A (encode i) s = .next t) : CommandEffect s i t := by
  rcases filterEdge_cases h with ⟨-, -, rfl⟩ | ⟨-, -, rfl⟩ | ⟨-, rfl⟩
  · exact .storeSamples s.sm hstores
  · rw [filterPositions_eq]
    exact .storeSamples _ hstores
  · exact .fault _

theorem openReader_effect {addr : Word} {f : Reader → Reader} (hrid : readerNamed i = some rid)
    (hdata : answersData i = false) (h : openReader rid addr (encode i) f s = .next t) : CommandEffect s i t := by
  rcases openReader_cases h with ⟨hr, -, rfl⟩ | ⟨-, rfl⟩ | ⟨-, -, rfl⟩
  · exact .openContext hr _ hrid hdata
  · exact .fault _
  · exact .fault _

theorem decodeWith_effect {ok : Bool} {f : Reader → Word × Reader} (hrid : readerNamed i = some rid)
    (hdata : answersData i = true) (h : decodeWith rid ok (encode i) f s = .next t) : CommandEffect s i t := by
  rcases decodeWith_cases h with ⟨hr, -, -, rfl⟩ | ⟨-, rfl⟩ | ⟨-, -, -, rfl⟩
  · exact .decodeContext hr _ _ hrid hdata
  · exact .fault _
  · exact .fault _

theorem execXfIwht_effect {src : Half} {dst : Word} (h : execXfIwht src dst s = .next t) :
    CommandEffect s (.xfIwht src dst) t := by
  rcases transformCoeffs_cases h with ⟨-, rfl⟩ | ⟨-, rfl⟩
  · exact .storeCoeffs src dst _
  · exact .fault _

theorem execSysRdc_effect {n : Half} (h : execSysRdc n s = .next t) : CommandEffect s (.sysRdc n) t := by
  rcases execSysRdc_cases h with ⟨c, -, rfl⟩ | ⟨-, rfl⟩
  · exact .answer _ rfl
  · exact .fault _

theorem execSysWrc_effect {n : Half} {v : Word} (h : execSysWrc n v s = .next t) : CommandEffect s (.sysWrc n v) t := by
  rcases execSysWrc_cases h with ⟨u, hu, rfl⟩ | ⟨-, rfl⟩
  · rcases writeControlReg_cases hu with ⟨-, -, -, rfl⟩ | ⟨-, -, rfl⟩
    · exact .writeStride n v _
    · exact .writeLfp n v _
  · exact .fault _

theorem execMemLdb_effect {addr : Word} (h : execMemLdb addr s = .next t) : CommandEffect s (.memLdb addr) t := by
  rcases execMemLdb_cases h with ⟨-, rfl⟩ | ⟨-, rfl⟩
  · exact .answer _ rfl
  · exact .fault _

theorem execMemStb_effect {v : Byte} {addr : Word} (h : execMemStb v addr s = .next t) :
    CommandEffect s (.memStb v addr) t := by
  rcases execMemStb_cases h with ⟨-, rfl⟩ | ⟨-, rfl⟩
  · exact .storeSamples _ rfl
  · exact .fault _

theorem execMemLdc_effect {idx : Word} (h : execMemLdc idx s = .next t) : CommandEffect s (.memLdc idx) t := by
  rcases execMemLdc_cases h with ⟨-, rfl⟩ | ⟨-, rfl⟩
  · exact .answer _ rfl
  · exact .fault _

theorem execMemStc_effect {v : Half} {idx : Word} (h : execMemStc v idx s = .next t) :
    CommandEffect s (.memStc v idx) t := by
  rcases execMemStc_cases h with ⟨-, rfl⟩ | ⟨-, rfl⟩
  · exact .storeCoeff v idx
  · exact .fault _

/-- A command reaches a next state in one of the ways of `CommandEffect` only. -/
theorem exec_effect (h : exec i s = .next t) : CommandEffect s i t := by
  unfold exec at h
  cases i with
  | nop => cases h; exact .nop
  | sysReset => cases h; exact .reset
  | sysRdc n => exact execSysRdc_effect h
  | sysWrc n v => exact execSysWrc_effect h
  | memLdb addr => exact execMemLdb_effect h
  | memStb v addr => exact execMemStb_effect h
  | memLdc idx => exact execMemLdc_effect h
  | memStc v idx => exact execMemStc_effect h
  | brSetend rid bound | brStart rid start => exact openReader_effect rfl rfl h
  | brGetbit rid prob | brBool rid | brValue rid n | brSigned rid n => exact decodeWith_effect rfl rfl h
  | xfIwht src dst => exact execXfIwht_effect h
  | xfIdctadd src A => exact addResidual_effect rfl h
  | ip4Dc A | ip4Tm A | ip4Ve A | ip4He A | ip4Ld A | ip4Rd A | ip4Vr A | ip4Vl A | ip4Hd A | ip4Hu A =>
    exact predictBlock_effect rfl h
  | ip16Dc notop noleft A | ip16V A | ip16H A | ip16Tm A => exact predictBlock_effect rfl h
  | ip8Dc notop noleft A | ip8V A | ip8H A | ip8Tm A => exact predictBlock_effect rfl h
  | lfSetup level sharpness => cases h; exact .setupLfp level sharpness _
  | lfSmb dir A | lfSin dir A => exact filterEdge_effect rfl h
  | lfNmb dir n A | lfNin dir n A => exact filterEdge_effect rfl h

/-! ### What each kind of command changes (R20, R50, R51) -/

/-- No command changes BS, the sizes, the epoch or what the host has presented. -/
theorem CommandEffect.host_side (h : CommandEffect s i t) :
    t.bs = s.bs ∧ t.params = s.params ∧ t.epoch = s.epoch ∧ t.inbox = s.inbox := by
  cases h with
  | fault c => exact ⟨raise_bs .., raise_params .., raise_epoch .., raise_inbox ..⟩
  | _ => exact ⟨rfl, rfl, rfl, rfl⟩

theorem CommandEffect.stride (h : CommandEffect s i t) (hwrc : ∀ n v, i ≠ .sysWrc n v) (hreset : i ≠ .sysReset) :
    t.stride = s.stride := by
  cases h with
  | fault c => exact raise_stride ..
  | reset => exact absurd rfl hreset
  | writeStride n v x => exact absurd rfl (hwrc n v)
  | _ => rfl

theorem CommandEffect.lfp (h : CommandEffect s i t) (hwrc : ∀ n v, i ≠ .sysWrc n v)
    (hsetup : ∀ l k, i ≠ .lfSetup l k) (hreset : i ≠ .sysReset) : t.lfp = s.lfp := by
  cases h with
  | fault c => exact raise_lfp ..
  | reset => exact absurd rfl hreset
  | writeLfp n v x => exact absurd rfl (hwrc n v)
  | setupLfp l k x => exact absurd rfl (hsetup l k)
  | _ => rfl

theorem CommandEffect.readers (h : CommandEffect s i t) (hnone : readerNamed i = none) (hreset : i ≠ .sysReset) :
    t.readers = s.readers := by
  cases h with
  | fault c => exact raise_readers ..
  | reset => exact absurd rfl hreset
  | openContext hr b hrid hdata | decodeContext hr b v hrid hdata => simp [hrid] at hnone
  | _ => rfl

theorem CommandEffect.cm (h : CommandEffect s i t) (hstc : ∀ v k, i ≠ .memStc v k) (hiwht : ∀ a b, i ≠ .xfIwht a b) :
    t.cm = s.cm := by
  cases h with
  | fault c => exact raise_cm ..
  | storeCoeff v idx => exact absurd rfl (hstc v idx)
  | storeCoeffs src dst ws => exact absurd rfl (hiwht src dst)
  | _ => rfl

theorem CommandEffect.sm (h : CommandEffect s i t) (hsamples : storesSamples i = false) : t.sm = s.sm := by
  cases h with
  | fault c => exact raise_sm ..
  | storeSamples m hstores => simp [hstores] at hsamples
  | _ => rfl

/-- Settles O55: each part of the state, through the effect of the command. -/
theorem commandsChangeOnlyTheirState : Obligations.CommandsChangeOnlyTheirState := by
  intro i s t h
  have he := exec_effect h
  exact ⟨he.host_side, he.stride, he.lfp, he.readers, he.cm, he.sm⟩

/-! ### `RES` and the response (R23, R76) -/

/-- A command that may store samples answers no data. -/
theorem answersData_of_storesSamples (h : storesSamples i = true) : answersData i = false := by
  cases i <;> simp [storesSamples, answersData] at h ⊢

/-- A command faults, leaving `RES`; or answers data, the word that `RES` then holds; or answers 0, leaving `RES` if
it is not `SYS.RESET`. -/
theorem CommandEffect.res_resp (h : CommandEffect s i t) :
    (t.res = s.res ∧ ∃ c, t.resp = some (.err c)) ∨
    (answersData i = true ∧ t.resp = some (.ok t.res)) ∨
    (answersData i = false ∧ (i ≠ .sysReset → t.res = s.res) ∧ t.resp = some (.ok 0)) := by
  cases h with
  | fault c => exact .inl ⟨raise_res .., c, raise_resp ..⟩
  | answer v hdata | decodeContext hr b v hrid hdata => exact .inr (.inl ⟨hdata, rfl⟩)
  | reset => exact .inr (.inr ⟨rfl, fun hreset => absurd rfl hreset, rfl⟩)
  | openContext hr b hrid hdata => exact .inr (.inr ⟨hdata, fun _ => rfl, rfl⟩)
  | storeSamples m hstores => exact .inr (.inr ⟨answersData_of_storesSamples hstores, fun _ => rfl, rfl⟩)
  | _ => exact .inr (.inr ⟨rfl, fun _ => rfl, rfl⟩)

/-- Settles O54: a fault, an answer with data and an answer without, each with what it leaves in `RES`. -/
theorem resHoldsTheLastAnswer : Obligations.ResHoldsTheLastAnswer := by
  intro i s t h
  rcases (exec_effect h).res_resp with ⟨hres, c, hresp⟩ | ⟨hdata, hresp⟩ | ⟨hdata, hres, hresp⟩
  · simp [hres, hresp]
  · simp [hdata, hresp]
  · simpa [hdata, hresp] using hres

/-! ### The readers do not see each other (R21, R100) -/

/-- A command on one context leaves the others. -/
theorem CommandEffect.reader_of_ne (h : CommandEffect s i t) (hrid : readerNamed i = some rid) {q : Fin 9}
    (hq : (q : Nat) ≠ rid.toNat) : t.reader q = s.reader q := by
  cases h with
  | fault c => exact State.reader_congr (raise_readers ..) q
  | reset => cases hrid
  | openContext hr b hrid' hdata | decodeContext hr b v hrid' hdata =>
    obtain rfl := Option.some.inj (hrid'.symm.trans hrid)
    exact State.reader_setReader_ne s _ q b fun h => hq (congrArg Fin.val h)
  | _ => rfl

/-- What a command on context `r` shows of its result: the response, and that context afterwards. -/
def State.readerView (s : State) (r : Fin 9) : Option Response × Reader := (s.resp, s.reader r)

@[simp] theorem State.readerView_raise (c : Cause) (w : Command) (s : State) (r : Fin 9) :
    (raise c w s).readerView r = (some (.err c), s.reader r) := by
  simp [State.readerView, State.reader]

@[simp] theorem State.readerView_setReader_respond (s : State) (r : Fin 9) (b : Reader) (d : Word) :
    ((s.setReader r b).respond d).readerView r = (some (.ok d), b) :=
  congrArg (Prod.mk _) (State.reader_setReader_self s r b)

@[simp] theorem State.readerView_setReader_answer (s : State) (r : Fin 9) (b : Reader) (v : Word) :
    ((s.setReader r b).answer v).readerView r = (some (.ok v), b) :=
  congrArg (Prod.mk _) (State.reader_setReader_self s r b)

/-- `openReader` shows a function of the sizes and of the context it names. -/
theorem openReader_readerView {addr : Word} {f : Reader → Reader} (hr : rid.toNat < 9)
    (h : openReader rid addr w f s = .next t) :
    t.readerView ⟨rid.toNat, hr⟩ =
      if addr.toNat ≤ s.params.bsSize then (some (.ok 0), f (s.reader ⟨rid.toNat, hr⟩))
      else (some (.err .addressRange), s.reader ⟨rid.toNat, hr⟩) := by
  rcases openReader_cases h with ⟨-, haddr, rfl⟩ | ⟨hle, -⟩ | ⟨-, haddr, rfl⟩
  · simp [haddr]
  · omega
  · simp [Nat.not_le.2 haddr]

/-- `decodeWith` shows a function of the context it names. -/
theorem decodeWith_readerView {ok : Bool} {f : Reader → Word × Reader} (hr : rid.toNat < 9)
    (h : decodeWith rid ok w f s = .next t) :
    t.readerView ⟨rid.toNat, hr⟩ =
      if ok = false then (some (.err .reservedField), s.reader ⟨rid.toNat, hr⟩)
      else if (s.reader ⟨rid.toNat, hr⟩).valid then
        (some (.ok (f (s.reader ⟨rid.toNat, hr⟩)).1), (f (s.reader ⟨rid.toNat, hr⟩)).2)
      else (some (.err .readerInvalid), s.reader ⟨rid.toNat, hr⟩) := by
  rcases decodeWith_cases h with ⟨_, hok, hvalid, rfl⟩ | ⟨hbad, rfl⟩ | ⟨_, hok, hvalid, rfl⟩
  · simp [hok, hvalid]
  · have hok : ok = false := hbad.resolve_left (by omega)
    simp [hok]
  · simp [hok, hvalid]

theorem openReader_agree {addr : Word} {f f' : Reader → Reader} (hr : rid.toNat < 9)
    (hreader : s'.reader ⟨rid.toNat, hr⟩ = s.reader ⟨rid.toNat, hr⟩) (hparams : s'.params = s.params)
    (h : openReader rid addr w f s = .next t) (h' : openReader rid addr w f' s' = .next t') (hf : f' = f) :
    t'.readerView ⟨rid.toNat, hr⟩ = t.readerView ⟨rid.toNat, hr⟩ := by
  rw [openReader_readerView hr h', openReader_readerView hr h, hreader, hparams, hf]

theorem decodeWith_agree {ok : Bool} {f f' : Reader → Word × Reader} (hr : rid.toNat < 9)
    (hreader : s'.reader ⟨rid.toNat, hr⟩ = s.reader ⟨rid.toNat, hr⟩)
    (h : decodeWith rid ok w f s = .next t) (h' : decodeWith rid ok w f' s' = .next t') (hf : f' = f) :
    t'.readerView ⟨rid.toNat, hr⟩ = t.readerView ⟨rid.toNat, hr⟩ := by
  rw [decodeWith_readerView hr h', decodeWith_readerView hr h, hreader, hf]

/-- Two states with the same context, sizes and BS show the same result of a command on that context. -/
theorem exec_readerView_agree (hr : rid.toNat < 9) (hrid : readerNamed i = some rid)
    (hreader : s'.reader ⟨rid.toNat, hr⟩ = s.reader ⟨rid.toNat, hr⟩) (hparams : s'.params = s.params)
    (hbs : s'.bsByte = s.bsByte) (h : exec i s = .next t) (h' : exec i s' = .next t') :
    t'.readerView ⟨rid.toNat, hr⟩ = t.readerView ⟨rid.toNat, hr⟩ := by
  unfold exec at h h'
  cases i with
  | brSetend rid bound => cases hrid; exact openReader_agree hr hreader hparams h h' rfl
  | brStart rid start => cases hrid; exact openReader_agree hr hreader hparams h h' (by rw [hbs])
  | brGetbit rid prob | brBool rid | brValue rid n | brSigned rid n =>
    cases hrid; exact decodeWith_agree hr hreader h h' (by rw [hbs])
  | _ => cases hrid

/-- Settles O29: the other contexts stay, and the result is a function of the one named, the sizes and BS. -/
theorem readersAreIndependent : Obligations.ReadersAreIndependent := by
  intro i rid hr hrid
  refine ⟨fun s t h q hq => (exec_effect h).reader_of_ne hrid hq, ?_⟩
  intro s s' t t' hreader hparams hbs h h'
  exact Prod.mk.inj (exec_readerView_agree hr hrid hreader hparams (funext hbs) h h')

/-! ### Reset values (R35, R260) -/

/-- `SYS.RESET`'s part of every reset gives each register its reset value. -/
theorem registersReset_resetRegisters (s : State) : registersReset s.resetRegisters := by
  refine ⟨rfl, rfl, rfl, rfl, rfl, ⟨rfl, rfl, rfl⟩, fun r => ?_⟩
  rw [show s.resetRegisters.readers[r] = Reader.reset from State.reader_resetRegisters s r]
  exact ⟨rfl, rfl, rfl, rfl, rfl, rfl⟩

theorem registersReset_hardReset (s : State) : registersReset s.hardReset :=
  registersReset_resetRegisters { s with bs := [], cm := [], sm := [], epoch := s.epoch + 1, resp := none }

/-- A presented hardware reset is taken (R260). -/
theorem step_of_hardReset {rest : List HostInput} (h : s.inbox = .hardReset :: rest) :
    step s = .next (State.hardReset { s with inbox := rest }) := by
  simp only [step, h]

/-- Settles O10: the state a run starts from is its own reset, and the hardware reset resets the registers and
forgets the memories. -/
theorem hardwareResetGivesTheResetValues : Obligations.HardwareResetGivesTheResetValues := by
  refine ⟨⟨registersReset_resetRegisters State.reset, rfl, rfl, rfl⟩, fun s rest hin => ?_⟩
  exact ⟨_, step_of_hardReset hin, registersReset_hardReset _, rfl, rfl, rfl, rfl, rfl, rfl, rfl⟩

end Sys2Proof.Machine
end

section
/-! Host writes to BS (spec/20_memory.md R51, R64): what a list of writes to distinct locations leaves, the bytes of BS
after a host write, and the step that takes one. -/

namespace Sys2Proof.Machine

variable {s : State}

/-- Where no two writes of the list name one location, each of them stands afterwards. -/
theorem Mem.get?_setAll_of_mem {width : Nat} (m : Mem width) {ws : List (Nat × BitVec width)} {a : Nat}
    {v : BitVec width} (hmem : (a, v) ∈ ws) (hd : ws.Pairwise fun x y => x.1 ≠ y.1) :
    Mem.get? (Mem.setAll m ws) a = some v := by
  obtain ⟨before, after, rfl⟩ := List.append_of_mem hmem
  have hafter := (List.pairwise_cons.1 (List.pairwise_append.1 hd).2.1).1
  exact Mem.get?_setAll_last m before after a v fun x hx => (hafter x hx).symm

/-- The writes of consecutive bytes name distinct locations. -/
theorem pairwise_ne_byteWrites (a : Nat) (bytes : List Byte) :
    (bytes.zipIdx.map fun x => (a + x.2, x.1)).Pairwise fun x y => x.1 ≠ y.1 := by
  have hidx : (bytes.zipIdx.map Prod.snd).Nodup := by
    rw [List.zipIdx_map_snd]
    exact List.nodup_range'
  exact List.pairwise_map.2 ((List.pairwise_map.1 hidx).imp fun hne => by simpa using hne)

/-- A host write puts its byte number `k` at `a + k`. -/
theorem State.bsByte_loadBs_add (s : State) (a : Nat) {bytes : List Byte} {k : Nat} (hk : k < bytes.length) :
    (s.loadBs a bytes).bsByte (a + k) = bytes[k] := by
  have hmem : (a + k, bytes[k]) ∈ bytes.zipIdx.map fun x => (a + x.2, x.1) :=
    List.mem_map.2 ⟨(bytes[k], k), List.mem_zipIdx_iff_getElem?.2 (List.getElem?_eq_getElem hk), rfl⟩
  simp [State.bsByte, Mem.get?_setAll_of_mem s.bs hmem (pairwise_ne_byteWrites a bytes)]

/-- A host write leaves every byte of BS outside the ones it names. -/
theorem State.bsByte_loadBs_outside (s : State) {a b : Nat} {bytes : List Byte} (h : b < a ∨ a + bytes.length ≤ b) :
    (s.loadBs a bytes).bsByte b = s.bsByte b := by
  have hne : ∀ x ∈ bytes.zipIdx.map (fun x => (a + x.2, x.1)), x.1 ≠ b := by
    intro x hx
    obtain ⟨y, hy, rfl⟩ := List.mem_map.1 hx
    have hlt := List.snd_lt_of_mem_zipIdx hy
    show a + y.2 ≠ b
    omega
  simp [State.bsByte, Mem.get?_setAll_of_forall_ne _ _ _ hne]

/-- With nothing presented the block is idle (R255). -/
theorem step_of_idle (h : s.inbox = []) : step s = .next s := by
  simp only [step, h]

/-- A presented host write that stays inside BS is taken (R51, R228). -/
theorem step_of_writeBs {a : Nat} {bytes : List Byte} {rest : List HostInput} (h : s.inbox = .writeBs a bytes :: rest)
    (hfits : a + bytes.length ≤ s.params.bsSize) :
    step s = .next (State.loadBs { s with inbox := rest } a bytes) := by
  simp only [step, h, if_pos hfits]

/-- Settles O9: an idle step answers the same state, and a host write is `State.loadBs`, which writes each of its
bytes and no other. -/
theorem hostWritesBsBetweenCommands : Obligations.HostWritesBsBetweenCommands := by
  refine ⟨fun s hidle => step_of_idle hidle, fun s a bytes rest hin hfits => ?_⟩
  exact ⟨(s.loadBs a bytes).bs, step_of_writeBs hin hfits, fun k hk => s.bsByte_loadBs_add a hk,
    fun b hb => s.bsByte_loadBs_outside hb⟩

end Sys2Proof.Machine
end

section
/-! Command words by their fields (spec/30_encoding.md R70): a word is its five fields, a mask acts on each of them by
itself, and a field is a quotient of the word as a number. -/

namespace Sys2Proof

variable {w : Command}

/-- A word is packed from the fields it has, and from no others. -/
theorem packFields_eq_iff {op : BitVec 8} {a b : BitVec 4} {c : Half} {imm : Word} :
    packFields op a b c imm = w ↔
      fieldOp w = op ∧ fieldA w = a ∧ fieldB w = b ∧ fieldC w = c ∧ fieldImm w = imm := by
  constructor
  · rintro rfl
    simp
  · rintro ⟨rfl, rfl, rfl, rfl, rfl⟩
    exact packFields_fields w

/-- A masked word reads as `p` where each of its fields does. -/
theorem and_eq_iff_fields {m p : Command} :
    w &&& m = p ↔
      fieldOp w &&& fieldOp m = fieldOp p ∧ fieldA w &&& fieldA m = fieldA p ∧ fieldB w &&& fieldB m = fieldB p ∧
        fieldC w &&& fieldC m = fieldC p ∧ fieldImm w &&& fieldImm m = fieldImm p := by
  rw [← packFields_fields p, eq_comm, packFields_eq_iff]
  simp only [fieldOp_pack, fieldA_pack, fieldB_pack, fieldC_pack, fieldImm_pack]
  simp only [fieldOp, fieldA, fieldB, fieldC, fieldImm, BitVec.extractLsb'_and]

theorem fieldOp_ofNat (n : Nat) : fieldOp (BitVec.ofNat 64 n) = BitVec.ofNat 8 (n / 2 ^ 56) := by
  apply BitVec.eq_of_toNat_eq
  simp only [fieldOp, BitVec.extractLsb'_toNat, BitVec.toNat_ofNat, Nat.shiftRight_eq_div_pow]
  omega

theorem fieldA_ofNat (n : Nat) : fieldA (BitVec.ofNat 64 n) = BitVec.ofNat 4 (n / 2 ^ 52) := by
  apply BitVec.eq_of_toNat_eq
  simp only [fieldA, BitVec.extractLsb'_toNat, BitVec.toNat_ofNat, Nat.shiftRight_eq_div_pow]
  omega

theorem fieldB_ofNat (n : Nat) : fieldB (BitVec.ofNat 64 n) = BitVec.ofNat 4 (n / 2 ^ 48) := by
  apply BitVec.eq_of_toNat_eq
  simp only [fieldB, BitVec.extractLsb'_toNat, BitVec.toNat_ofNat, Nat.shiftRight_eq_div_pow]
  omega

theorem fieldC_ofNat (n : Nat) : fieldC (BitVec.ofNat 64 n) = BitVec.ofNat 16 (n / 2 ^ 32) := by
  apply BitVec.eq_of_toNat_eq
  simp only [fieldC, BitVec.extractLsb'_toNat, BitVec.toNat_ofNat, Nat.shiftRight_eq_div_pow]
  omega

theorem fieldImm_ofNat (n : Nat) : fieldImm (BitVec.ofNat 64 n) = BitVec.ofNat 32 n := by
  apply BitVec.eq_of_toNat_eq
  simp only [fieldImm, BitVec.extractLsb'_toNat, BitVec.toNat_ofNat, Nat.shiftRight_eq_div_pow]
  omega

theorem fieldOp_toNat (w : Command) : (fieldOp w).toNat = w.toNat / 2 ^ 56 := by
  have hlt := w.isLt
  simp only [fieldOp, BitVec.extractLsb'_toNat, Nat.shiftRight_eq_div_pow]
  omega

/-! ### Masks within one field -/

/-- The bits from `k` on are zero exactly in the numbers below `2 ^ k`. -/
theorem and_eq_zero_iff_toNat_lt {n k : Nat} {m : BitVec n} (hm : ∀ i < n, m.getLsbD i = decide (k ≤ i))
    (x : BitVec n) : x &&& m = 0#n ↔ x.toNat < 2 ^ k := by
  constructor
  · intro h
    refine Nat.lt_pow_two_of_testBit _ fun i hi => ?_
    change x.getLsbD i = false
    rcases Nat.lt_or_ge i n with hin | hin
    · have hbit : (x &&& m).getLsbD i = false := by simp [h]
      rwa [BitVec.getLsbD_and, hm i hin, decide_eq_true hi, Bool.and_true] at hbit
    · exact BitVec.getLsbD_of_ge x i hin
  · intro h
    refine BitVec.eq_of_getLsbD_eq fun i hin => ?_
    rw [BitVec.getLsbD_and, hm i hin, BitVec.getLsbD_zero]
    rcases Nat.lt_or_ge i k with hi | hi
    · simp [hi]
    · have hlt : x.toNat < 2 ^ i := Nat.lt_of_lt_of_le h (Nat.pow_le_pow_right (by omega) hi)
      rw [show x.getLsbD i = false from Nat.testBit_lt_two_pow hlt, Bool.false_and]

@[simp] theorem and_0xF (x : BitVec 4) : x &&& 0xF#4 = x := BitVec.and_allOnes
@[simp] theorem and_0xFF (x : Byte) : x &&& 0xFF#8 = x := BitVec.and_allOnes
@[simp] theorem and_0xFFFF (x : Half) : x &&& 0xFFFF#16 = x := BitVec.and_allOnes
@[simp] theorem and_0xFFFFFFFF (x : Word) : x &&& 0xFFFFFFFF#32 = x := BitVec.and_allOnes

@[simp] theorem and_0xE_eq_zero (b : BitVec 4) : b &&& 0xE#4 = 0#4 ↔ b.toNat < 2 :=
  and_eq_zero_iff_toNat_lt (k := 1) (by decide) b
@[simp] theorem and_0xC_eq_zero (b : BitVec 4) : b &&& 0xC#4 = 0#4 ↔ b.toNat < 4 :=
  and_eq_zero_iff_toNat_lt (k := 2) (by decide) b
@[simp] theorem and_0xFFE0_eq_zero (c : Half) : c &&& 0xFFE0#16 = 0#16 ↔ c.toNat < 32 :=
  and_eq_zero_iff_toNat_lt (k := 5) (by decide) c
@[simp] theorem and_0xFF00_eq_zero (c : Half) : c &&& 0xFF00#16 = 0#16 ↔ c.toNat < 256 :=
  and_eq_zero_iff_toNat_lt (k := 8) (by decide) c

end Sys2Proof
end

section
/-! The decoder and the encoder are inverse to each other, and the decoder's IllegalOpcode is the undefined `op`
(spec/30_encoding.md R70 to R77). -/

namespace Sys2Proof

open Claims

variable {w : Command} {i j : Instr} {op : BitVec 8} {a b mode : BitVec 4} {c : Half} {imm A : Word} {ok zero : Bool}

/-! ### Decode of encode -/

/-- The round trip of every command, from the lemma of its constructor. -/
theorem decode_encode : ∀ i : Instr, Laws.DecodeEncode.Statement i
  | .nop => Laws.DecodeEncode.nop
  | .sysReset => Laws.DecodeEncode.sysReset
  | .sysRdc n => Laws.DecodeEncode.sysRdc n
  | .sysWrc n v => Laws.DecodeEncode.sysWrc n v
  | .memLdb addr => Laws.DecodeEncode.memLdb addr
  | .memStb v addr => Laws.DecodeEncode.memStb v addr
  | .memLdc idx => Laws.DecodeEncode.memLdc idx
  | .memStc v idx => Laws.DecodeEncode.memStc v idx
  | .brSetend rid bound => Laws.DecodeEncode.brSetend rid bound
  | .brStart rid start => Laws.DecodeEncode.brStart rid start
  | .brGetbit rid prob => Laws.DecodeEncode.brGetbit rid prob
  | .brBool rid => Laws.DecodeEncode.brBool rid
  | .brValue rid n => Laws.DecodeEncode.brValue rid n
  | .brSigned rid n => Laws.DecodeEncode.brSigned rid n
  | .xfIwht src dst => Laws.DecodeEncode.xfIwht src dst
  | .xfIdctadd src A => Laws.DecodeEncode.xfIdctadd src A
  | .ip4Dc A => Laws.DecodeEncode.ip4Dc A
  | .ip4Tm A => Laws.DecodeEncode.ip4Tm A
  | .ip4Ve A => Laws.DecodeEncode.ip4Ve A
  | .ip4He A => Laws.DecodeEncode.ip4He A
  | .ip4Ld A => Laws.DecodeEncode.ip4Ld A
  | .ip4Rd A => Laws.DecodeEncode.ip4Rd A
  | .ip4Vr A => Laws.DecodeEncode.ip4Vr A
  | .ip4Vl A => Laws.DecodeEncode.ip4Vl A
  | .ip4Hd A => Laws.DecodeEncode.ip4Hd A
  | .ip4Hu A => Laws.DecodeEncode.ip4Hu A
  | .ip16Dc notop noleft A => Laws.DecodeEncode.ip16Dc notop noleft A
  | .ip16V A => Laws.DecodeEncode.ip16V A
  | .ip16H A => Laws.DecodeEncode.ip16H A
  | .ip16Tm A => Laws.DecodeEncode.ip16Tm A
  | .ip8Dc notop noleft A => Laws.DecodeEncode.ip8Dc notop noleft A
  | .ip8V A => Laws.DecodeEncode.ip8V A
  | .ip8H A => Laws.DecodeEncode.ip8H A
  | .ip8Tm A => Laws.DecodeEncode.ip8Tm A
  | .lfSetup level sharpness => Laws.DecodeEncode.lfSetup level sharpness
  | .lfSmb dir A => Laws.DecodeEncode.lfSmb dir A
  | .lfSin dir A => Laws.DecodeEncode.lfSin dir A
  | .lfNmb dir n A => Laws.DecodeEncode.lfNmb dir n A
  | .lfNin dir n A => Laws.DecodeEncode.lfNin dir n A

/-- Settles O1: the decoder reads each command's word back, constructor by constructor. -/
theorem decodeOfEncodeIsTheCommand : Obligations.DecodeOfEncodeIsTheCommand := decode_encode

/-- Settles O5: each of the words is the word of its command, so it decodes to it. -/
theorem exampleWordsDecode : Obligations.ExampleWordsDecode :=
  ⟨decode_encode .nop rfl, decode_encode (.brSetend 0 4) rfl, decode_encode (.brStart 0 0) rfl,
    decode_encode (.brGetbit 3 145) rfl, decode_encode (.brValue 0 7) rfl, decode_encode (.brSigned 1 4) rfl,
    decode_encode (.memStc 0xFFFD 384) rfl, decode_encode (.xfIwht 384 0) rfl, decode_encode (.xfIdctadd 16 0x48) rfl,
    decode_encode (.ip4Tm 0x48) rfl, decode_encode (.ip16Dc true false 40) rfl, decode_encode (.ip8Tm 584) rfl,
    decode_encode (.lfSetup 32 0) rfl, decode_encode (.lfNmb .horizontal .eight 600) rfl,
    decode_encode (.sysWrc 5 32) rfl⟩

/-! ### Encode of decode -/

/-- The word of a 4×4 mode has the mode in `a` (R73). -/
theorem word_of_decodeIp4 (h : decodeIp4 mode A zero = .ok i) :
    zero = true ∧ i.wellFormed = true ∧ encode i = packFields 0x30 mode 0 0 A := by
  unfold decodeIp4 at h
  split at h
  case h_11 => cases h
  all_goals
    next hmode =>
    obtain ⟨hzero, rfl⟩ := unlessReserved_eq_ok.1 h
    obtain ⟨-, rfl⟩ := BitVec.toNat_eq_nat.1 hmode
    exact ⟨hzero, rfl, rfl⟩

/-- The word of a 16×16 mode has the mode in `a`, and its flags, if it has any, in `b` (R73). -/
theorem word_of_decodeIp16 (h : decodeIp16 mode b A zero = .ok i) :
    zero = true ∧ i.wellFormed = true ∧ encode i = packFields 0x31 mode b 0 A := by
  unfold decodeIp16 at h
  split at h
  case h_1 hmode =>
    obtain ⟨hok, rfl⟩ := unlessReserved_eq_ok.1 h
    obtain ⟨-, rfl⟩ := BitVec.toNat_eq_nat.1 hmode
    obtain ⟨hzero, hb⟩ : zero = true ∧ b.toNat < 4 := by simpa using hok
    exact ⟨hzero, rfl, congrArg (packFields _ _ · _ _) (flagBits_of_lt_four b hb)⟩
  case h_2 hmode | h_3 hmode | h_4 hmode =>
    obtain ⟨hok, rfl⟩ := unlessReserved_eq_ok.1 h
    obtain ⟨-, rfl⟩ := BitVec.toNat_eq_nat.1 hmode
    obtain ⟨hzero, rfl⟩ : zero = true ∧ b = 0 := by simpa using hok
    exact ⟨hzero, rfl, rfl⟩
  case h_5 => cases h

/-- The word of an 8×8 mode, with its fields as for 16×16 (R73). -/
theorem word_of_decodeIp8 (h : decodeIp8 mode b A zero = .ok i) :
    zero = true ∧ i.wellFormed = true ∧ encode i = packFields 0x32 mode b 0 A := by
  unfold decodeIp8 at h
  split at h
  case h_1 hmode =>
    obtain ⟨hok, rfl⟩ := unlessReserved_eq_ok.1 h
    obtain ⟨-, rfl⟩ := BitVec.toNat_eq_nat.1 hmode
    obtain ⟨hzero, hb⟩ : zero = true ∧ b.toNat < 4 := by simpa using hok
    exact ⟨hzero, rfl, congrArg (packFields _ _ · _ _) (flagBits_of_lt_four b hb)⟩
  case h_2 hmode | h_3 hmode | h_4 hmode =>
    obtain ⟨hok, rfl⟩ := unlessReserved_eq_ok.1 h
    obtain ⟨-, rfl⟩ := BitVec.toNat_eq_nat.1 hmode
    obtain ⟨hzero, rfl⟩ : zero = true ∧ b = 0 := by simpa using hok
    exact ⟨hzero, rfl, rfl⟩
  case h_5 => cases h

/-- An arm of the decoder with one command: the word is that command's where the arm's check makes it so. -/
theorem word_of_unlessReserved {n : Nat} (hop : op.toNat = n) (h : unlessReserved ok j = .ok i)
    (hj : ok = true → j.wellFormed = true ∧ encode j = packFields (BitVec.ofNat 8 n) a b c imm) :
    i.wellFormed = true ∧ encode i = packFields op a b c imm := by
  obtain ⟨hok, rfl⟩ := unlessReserved_eq_ok.1 h
  obtain ⟨-, rfl⟩ := BitVec.toNat_eq_nat.1 hop
  exact hj hok

/-- The arms of the decoder, by what their command's word holds besides whole fields: nothing, a byte, a bit count,
the sub-fields of `LF.SETUP`, one flag, two flags, a mode. -/
theorem word_of_decode_packFields (h : decode (packFields op a b c imm) = .ok i) :
    i.wellFormed = true ∧ encode i = packFields op a b c imm := by
  simp only [decode, fieldOp_pack, fieldA_pack, fieldB_pack, fieldC_pack, fieldImm_pack] at h
  split at h
  case h_1 hop | h_2 hop | h_3 hop | h_4 hop | h_5 hop | h_7 hop | h_8 hop | h_9 hop | h_10 hop | h_12 hop | h_15 hop
      | h_16 hop =>
    exact word_of_unlessReserved hop h fun hok => by simp_all [encode, Instr.wellFormed]
  case h_6 hop | h_11 hop =>
    exact word_of_unlessReserved hop h fun hok => by simp_all [encode, Instr.wellFormed, setWidth_lowByte]
  case h_13 hop | h_14 hop =>
    exact word_of_unlessReserved hop h fun hok => by simp_all [encode, Instr.wellFormed, setWidth_lowCount]
  case h_20 hop =>
    exact word_of_unlessReserved hop h fun hok => by simp_all [encode, Instr.wellFormed, setupField_of_reserved]
  case h_21 hop | h_22 hop =>
    exact word_of_unlessReserved hop h fun hok => by
      simp_all [encode, Instr.wellFormed, flagBits_of_lt_two, -BitVec.getLsbD_eq_getElem]
  case h_23 hop | h_24 hop =>
    exact word_of_unlessReserved hop h fun hok => by
      simp_all [encode, Instr.wellFormed, flagBits_of_lt_four, -BitVec.getLsbD_eq_getElem]
  case h_17 hop =>
    obtain ⟨-, rfl⟩ := BitVec.toNat_eq_nat.1 hop
    obtain ⟨hzero, hword⟩ := word_of_decodeIp4 h
    obtain ⟨rfl, rfl⟩ : b = 0 ∧ c = 0 := by simpa using hzero
    exact hword
  case h_18 hop =>
    obtain ⟨-, rfl⟩ := BitVec.toNat_eq_nat.1 hop
    obtain ⟨hzero, hword⟩ := word_of_decodeIp16 h
    obtain rfl : c = 0 := by simpa using hzero
    exact hword
  case h_19 hop =>
    obtain ⟨-, rfl⟩ := BitVec.toNat_eq_nat.1 hop
    obtain ⟨hzero, hword⟩ := word_of_decodeIp8 h
    obtain rfl : c = 0 := by simpa using hzero
    exact hword
  case h_25 => cases h

/-- A word that decodes is the word of a well-formed command. -/
theorem word_of_decode (h : decode w = .ok i) : i.wellFormed = true ∧ encode i = w := by
  rw [← packFields_fields w] at h ⊢
  exact word_of_decode_packFields h

/-- Settles O2: every arm of the decoder checks all the bits its command does not hold. -/
theorem encodeOfDecodeIsTheWord : Obligations.EncodeOfDecodeIsTheWord := fun _ _ => word_of_decode

/-! ### IllegalOpcode (R75(a)) -/

theorem unlessReserved_ne_illegalOpcode : unlessReserved ok i ≠ .error .illegalOpcode := by
  unfold unlessReserved
  split <;> simp

theorem decodeIp4_ne_illegalOpcode : decodeIp4 mode A zero ≠ .error .illegalOpcode := by
  unfold decodeIp4
  split
  case h_11 => simp
  all_goals exact unlessReserved_ne_illegalOpcode

theorem decodeIp16_ne_illegalOpcode : decodeIp16 mode b A zero ≠ .error .illegalOpcode := by
  unfold decodeIp16
  split
  case h_5 => simp
  all_goals exact unlessReserved_ne_illegalOpcode

theorem decodeIp8_ne_illegalOpcode : decodeIp8 mode b A zero ≠ .error .illegalOpcode := by
  unfold decodeIp8
  split
  case h_5 => simp
  all_goals exact unlessReserved_ne_illegalOpcode

/-- The arms of the 24 values of `op` never answer IllegalOpcode, and the arm of all others always does. -/
theorem decode_eq_illegalOpcode_iff : decode w = .error .illegalOpcode ↔ (fieldOp w).toNat ∉ definedOps := by
  unfold decode
  split
  case h_17 hop => simp [hop, definedOps, decodeIp4_ne_illegalOpcode]
  case h_18 hop => simp [hop, definedOps, decodeIp16_ne_illegalOpcode]
  case h_19 hop => simp [hop, definedOps, decodeIp8_ne_illegalOpcode]
  case h_25 => simp_all [definedOps]
  all_goals
    next hop => simp [hop, definedOps, unlessReserved_ne_illegalOpcode]

/-- Settles O3: `op` is bits 63..56 of the word, and the decoder branches on it first. -/
theorem undefinedOpcodesAreIllegal : Obligations.UndefinedOpcodesAreIllegal := by
  intro w
  rw [decode_eq_illegalOpcode_iff, fieldOp_toNat]

end Sys2Proof
end

section
/-! The decoder against the rows of spec/opcode_table.json: a row accepts exactly the words of its command. -/

namespace Sys2Proof.Claims

variable {w : Command} {i : Instr} {row : Row}

/-- What a row asks of a word, field by field. -/
theorem Row.accepts_iff_fields (row : Row) (w : Command) :
    row.accepts w ↔
      (fieldOp w &&& BitVec.ofNat 8 (row.mask / 2 ^ 56) = BitVec.ofNat 8 (row.pattern / 2 ^ 56) ∧
        fieldA w &&& BitVec.ofNat 4 (row.mask / 2 ^ 52) = BitVec.ofNat 4 (row.pattern / 2 ^ 52) ∧
        fieldB w &&& BitVec.ofNat 4 (row.mask / 2 ^ 48) = BitVec.ofNat 4 (row.pattern / 2 ^ 48) ∧
        fieldC w &&& BitVec.ofNat 16 (row.mask / 2 ^ 32) = BitVec.ofNat 16 (row.pattern / 2 ^ 32) ∧
        fieldImm w &&& BitVec.ofNat 32 row.mask = BitVec.ofNat 32 row.pattern) ∧
      (fieldOp w &&& BitVec.ofNat 8 (row.zero / 2 ^ 56) = 0 ∧ fieldA w &&& BitVec.ofNat 4 (row.zero / 2 ^ 52) = 0 ∧
        fieldB w &&& BitVec.ofNat 4 (row.zero / 2 ^ 48) = 0 ∧ fieldC w &&& BitVec.ofNat 16 (row.zero / 2 ^ 32) = 0 ∧
        fieldImm w &&& BitVec.ofNat 32 row.zero = 0) ∧
      (row.rid = true → ridOk (fieldA w) = true) ∧
      (row.count = true → countOk ((fieldC w).extractLsb' 0 5) = true) := by
  have hrid : w.toNat / 2 ^ 52 % 16 ≤ 8 ↔ ridOk (fieldA w) = true := by
    simp [ridOk, fieldA, Nat.shiftRight_eq_div_pow]
  have hcount : 1 ≤ w.toNat / 2 ^ 32 % 32 ∧ w.toNat / 2 ^ 32 % 32 ≤ 24 ↔
      countOk ((fieldC w).extractLsb' 0 5) = true := by
    simp [countOk, fieldC, BitVec.extractLsb'_toNat, Nat.shiftRight_eq_div_pow]
  rw [Row.accepts, hrid, hcount, and_eq_iff_fields, show (0 : Command) = BitVec.ofNat 64 0 from rfl, and_eq_iff_fields]
  simp only [fieldOp_ofNat, fieldA_ofNat, fieldB_ofNat, fieldC_ofNat, fieldImm_ofNat]
  rfl

/-- A word of a row decodes, to a command of its mnemonic: what the row asks of the fields is what the arm of its `op`
checks. -/
theorem decode_of_accepts (hrow : row ∈ opcodeTable) (h : row.accepts w) :
    ∃ i, decode w = .ok i ∧ mnemonic i = row.name := by
  rw [Row.accepts_iff_fields] at h
  simp only [opcodeTable, tableFe, tableBrXf, tableIp, tableLf, List.cons_append, List.nil_append] at hrow
  fin_cases hrow
  all_goals simp_all [decode, decodeIp4, decodeIp16, decodeIp8, mnemonic]

/-! ### The row of a command -/

theorem ctorIdx_lt_length (i : Instr) : i.ctorIdx < opcodeTable.length := by
  cases i <;> simp [opcodeTable, tableFe, tableBrXf, tableIp, tableLf, Instr.ctorIdx]

/-- The row of a command: the constructors of `Instr` stand in the order of the table, so the default is not reached
(`rowOf_mem`). -/
def rowOf (i : Instr) : Row := opcodeTable.getD i.ctorIdx ⟨"", 0, 0, 0, false, false⟩

theorem rowOf_mem (i : Instr) : rowOf i ∈ opcodeTable := by
  rw [rowOf, List.getD_eq_getElem _ _ (ctorIdx_lt_length i)]
  exact List.getElem_mem _

theorem rowOf_name (i : Instr) : (rowOf i).name = mnemonic i := by
  cases i <;> rfl

/-- The row of a well-formed command accepts the command's word. -/
theorem rowOf_accepts_encode (h : i.wellFormed = true) : (rowOf i).accepts (encode i) := by
  rw [Row.accepts_iff_fields]
  cases i
  all_goals
    simp_all [rowOf, opcodeTable, tableFe, tableBrXf, tableIp, tableLf, Instr.ctorIdx, encode, Instr.wellFormed]

/-- A word that decodes is a word of its command's row. -/
theorem rowOf_accepts_of_decode (h : decode w = .ok i) : (rowOf i).accepts w := by
  obtain ⟨hwf, rfl⟩ := word_of_decode h
  exact rowOf_accepts_encode hwf

/-- Settles O4: the words of the rows decode, a word that decodes is a word of its command's row, and of the two
errors a word with a defined `op` can only get ReservedField. -/
theorem decoderIsTheOpcodeTable : Obligations.DecoderIsTheOpcodeTable := by
  refine ⟨fun w row => decode_of_accepts,
    fun w i h => ⟨rowOf i, rowOf_mem i, rowOf_accepts_of_decode h, rowOf_name i⟩, fun w hop hnone => ?_⟩
  cases hd : decode w with
  | ok i => exact absurd (rowOf_accepts_of_decode hd) (hnone _ (rowOf_mem i))
  | error e =>
    cases e with
    | illegalOpcode => exact absurd hop ((undefinedOpcodesAreIllegal w).1 hd)
    | reservedField => rfl

end Sys2Proof.Claims
end

section
/-! What a step answers to a command word (spec/30_encoding.md R75, R76; spec/60_exceptions.md R243): every command and
every decode error completes with one response. -/

namespace Sys2Proof.Machine

open Sys2Proof.Claims

variable {s : State} {w : Command}

/-- `raise` answers the state R243 describes. -/
theorem raise_eq_faulted (c : Cause) (w : Command) (s : State) : raise c w s = faulted s c w := by
  have hcode : BitVec.ofNat 8 (codeNumber c) = c.code := by cases c <;> rfl
  cases herr : s.err <;> simp [raise, faulted, herr, hcode]

theorem step_of_decode_error {rest : List HostInput} {e : DecodeError} (hin : s.inbox = .command w :: rest)
    (hd : decode w = .error e) : step s = .next (faulted { s with inbox := rest } (decodeCause e) w) := by
  rw [step_of_command hin, runCommand_of_decode_error hd, raised, raise_eq_faulted]

/-- Settles O7: the word is taken, and its decode error raised. -/
theorem stepFaultsOnAWordOfNoCommand : Obligations.StepFaultsOnAWordOfNoCommand := fun _ _ _ hin =>
  ⟨step_of_decode_error hin, step_of_decode_error hin⟩

/-- Every command answers a next state: its family's shared operation does. -/
theorem exec_total (i : Instr) (s : State) : ∃ t, exec i s = .next t := by
  unfold exec
  cases i with
  | nop | sysReset | lfSetup level sharpness => exact ⟨_, rfl⟩
  | sysRdc n | sysWrc n v | memLdb addr | memStb v addr | memLdc idx | memStc v idx =>
    simp only [execSysRdc, execSysWrc, execMemLdb, execMemStb, execMemLdc, execMemStc]
    split <;> exact ⟨_, rfl⟩
  | brSetend rid bound | brStart rid start => exact openReader_total ..
  | brGetbit rid prob | brBool rid | brValue rid n | brSigned rid n => exact decodeWith_total ..
  | xfIwht src dst => exact transformCoeffs_total ..
  | xfIdctadd src A => exact addResidual_total ..
  | ip4Dc A | ip4Tm A | ip4Ve A | ip4He A | ip4Ld A | ip4Rd A | ip4Vr A | ip4Vl A | ip4Hd A | ip4Hu A =>
    exact predictBlock_total ..
  | ip16Dc notop noleft A | ip16V A | ip16H A | ip16Tm A => exact predictBlock_total ..
  | ip8Dc notop noleft A | ip8V A | ip8H A | ip8Tm A => exact predictBlock_total ..
  | lfSmb dir A | lfSin dir A | lfNmb dir n A | lfNin dir n A => exact filterEdge_total ..

/-- A command leaves a response in the port. -/
theorem CommandEffect.responds {t : State} {i : Instr} (h : CommandEffect s i t) : ∃ r, t.resp = some r := by
  rcases h.res_resp with ⟨-, c, hresp⟩ | ⟨-, hresp⟩ | ⟨-, -, hresp⟩
  all_goals exact ⟨_, hresp⟩

/-- A command word, whether it decodes or not, is answered, and takes nothing more of what the host has presented. -/
theorem runCommand_answers (w : Command) (s : State) :
    ∃ t r, runCommand w s = .next t ∧ t.resp = some r ∧ t.inbox = s.inbox := by
  cases hd : decode w with
  | error e =>
    exact ⟨_, _, runCommand_of_decode_error hd, raise_resp .., raise_inbox ..⟩
  | ok i =>
    obtain ⟨t, ht⟩ := exec_total i s
    have heffect := exec_effect ht
    obtain ⟨r, hr⟩ := heffect.responds
    obtain ⟨-, -, -, hinbox⟩ := heffect.host_side
    exact ⟨t, r, (runCommand_of_decode_ok hd).trans ht, hr, hinbox⟩

theorem step_answers_command {rest : List HostInput} (hin : s.inbox = .command w :: rest) :
    ∃ t r, step s = .next t ∧ t.resp = some r ∧ t.inbox = rest := by
  rw [step_of_command hin]
  exact runCommand_answers w { s with inbox := rest }

/-- A host write that leaves BS stops the run (log entry 6). -/
theorem step_of_writeBs_outside {a : Nat} {bytes : List Byte} {rest : List HostInput}
    (hin : s.inbox = .writeBs a bytes :: rest) (hout : s.params.bsSize < a + bytes.length) :
    step s = .fault .hostWriteOutsideBs := by
  simp only [step, hin, if_neg (Nat.not_le.2 hout)]

/-- Settles O8: what the host presents is a command word, which is answered, or one of its other inputs, of which only
a write outside BS stops the run. -/
theorem everyCommandWordAnswers : Obligations.EveryCommandWordAnswers := by
  refine ⟨fun s w rest => step_answers_command, fun s => ?_⟩
  match hin : s.inbox with
  | [] => exact .inl ⟨_, step_of_idle hin⟩
  | .command w :: rest =>
    obtain ⟨t, -, ht, -⟩ := step_answers_command hin
    exact .inl ⟨t, ht⟩
  | .writeBs a bytes :: rest =>
    rcases Nat.lt_or_ge s.params.bsSize (a + bytes.length) with hout | hfits
    · exact .inr ⟨a, bytes, rest, rfl, hout, step_of_writeBs_outside hin hout⟩
    · exact .inl ⟨_, step_of_writeBs hin hfits⟩
  | .hardReset :: rest => exact .inl ⟨_, step_of_hardReset hin⟩

end Sys2Proof.Machine
end

section
/-! The words of one `op` (spec/30_encoding.md R70, R72, R75): the statements' form `encodedAs`, from what the decoder's
arm does with the fields of a word; and the words of the BR commands that state theirs. -/

namespace Sys2Proof

open Claims

/-- A word has no bit of a mask where each of its fields has none of the mask's field. -/
theorem and_ofNat_eq_zero_iff_fields (w : Command) (n : Nat) :
    w &&& BitVec.ofNat 64 n = 0 ↔
      fieldOp w &&& BitVec.ofNat 8 (n / 2 ^ 56) = 0 ∧ fieldA w &&& BitVec.ofNat 4 (n / 2 ^ 52) = 0 ∧
        fieldB w &&& BitVec.ofNat 4 (n / 2 ^ 48) = 0 ∧ fieldC w &&& BitVec.ofNat 16 (n / 2 ^ 32) = 0 ∧
        fieldImm w &&& BitVec.ofNat 32 n = 0 := by
  rw [show (0 : Command) = BitVec.ofNat 64 0 from rfl, and_eq_iff_fields]
  simp only [fieldOp_ofNat, fieldA_ofNat, fieldB_ofNat, fieldC_ofNat, fieldImm_ofNat]
  rfl

/-- The words of one `op` read as `encodedAs` says where the decoder's arm makes one command of the fields, and its
check `good` accepts exactly the words that have no bit of `zeros` and fields that `ok` admits. -/
theorem encodedAs_of_decode {op zeros : Nat} {ok : BitVec 4 → Half → Bool} {mk : BitVec 4 → Half → Word → Instr}
    (good : Command → Bool)
    (harm : ∀ w, (fieldOp w).toNat = op →
      decode w = unlessReserved (good w) (mk (fieldA w) (fieldC w) (fieldImm w)))
    (hgood : ∀ w, good w = true ↔ w &&& BitVec.ofNat 64 zeros = 0 ∧ ok (fieldA w) (fieldC w) = true) :
    encodedAs op zeros ok mk := by
  intro w hop
  have hA : BitVec.ofNat 4 (w.toNat / 2 ^ 52) = fieldA w := by
    rw [← fieldA_ofNat, BitVec.ofNat_toNat, BitVec.setWidth_eq]
  have hC : BitVec.ofNat 16 (w.toNat / 2 ^ 32) = fieldC w := by
    rw [← fieldC_ofNat, BitVec.ofNat_toNat, BitVec.setWidth_eq]
  have hImm : BitVec.ofNat 32 w.toNat = fieldImm w := by
    rw [← fieldImm_ofNat, BitVec.ofNat_toNat, BitVec.setWidth_eq]
  simp only [hA, hC, hImm, harm w ((fieldOp_toNat w).trans hop)]
  refine ⟨fun hfine => by rw [(hgood w).2 hfine, unlessReserved_true], fun hbad => ?_⟩
  have hrefuse : good w = false := by
    rw [Bool.eq_false_iff, Ne, hgood w, not_and_or, Bool.not_eq_true]
    exact hbad
  rw [hrefuse, unlessReserved, if_neg Bool.false_ne_true]

/-- The two ways of taking a bit count from `c` (R72). -/
theorem ofNat_count (c : Half) : BitVec.ofNat 5 c.toNat = c.extractLsb' 0 5 := by
  apply BitVec.eq_of_toNat_eq
  simp [BitVec.extractLsb'_toNat]

/-- The count check of `BR.VALUE` and `BR.SIGNED`: a `c` field with no bit of 0xFFE0 is its bit count (R72). -/
theorem countOk_lowCount {c : Half} (h : c.toNat < 32) :
    countOk (c.extractLsb' 0 5) = true ↔ 1 ≤ c.toNat ∧ c.toNat ≤ 24 := by
  rw [← ofNat_count]
  simp [countOk, Nat.mod_eq_of_lt h]

/-- What the decoder checks of a BR word that holds a `rid` and a 32-bit operand (R72). -/
def ridImmWord (w : Command) : Bool := ridOk (fieldA w) && fieldB w == 0 && fieldC w == 0

/-- What the decoder checks of a BR word that holds a `rid` only (R72). -/
def ridWord (w : Command) : Bool := ridOk (fieldA w) && fieldB w == 0 && fieldC w == 0 && fieldImm w == 0

/-- What the decoder checks of a BR word that holds a `rid` and a bit count (R72). -/
def ridCountWord (w : Command) : Bool :=
  ridOk (fieldA w) && fieldB w == 0 && (fieldC w).toNat < 32 && countOk ((fieldC w).extractLsb' 0 5) && fieldImm w == 0

theorem ridImmWord_iff (w : Command) :
    ridImmWord w = true ↔ w &&& BitVec.ofNat 64 0x000FFFFF00000000 = 0 ∧ ridField (fieldA w) (fieldC w) = true := by
  rw [and_ofNat_eq_zero_iff_fields]
  simp [ridImmWord, ridField, ridOk, and_comm, and_assoc]

theorem ridWord_iff (w : Command) :
    ridWord w = true ↔ w &&& BitVec.ofNat 64 0x000FFFFFFFFFFFFF = 0 ∧ ridField (fieldA w) (fieldC w) = true := by
  rw [and_ofNat_eq_zero_iff_fields]
  simp [ridWord, ridField, ridOk, and_comm, and_assoc]

theorem ridCountWord_iff (w : Command) :
    ridCountWord w = true ↔
      w &&& BitVec.ofNat 64 0x000FFFE0FFFFFFFF = 0 ∧ ridCountFields (fieldA w) (fieldC w) = true := by
  rw [and_ofNat_eq_zero_iff_fields]
  by_cases hc : (fieldC w).toNat < 32
  · simp [ridCountWord, ridCountFields, ridOk, hc, countOk_lowCount hc, and_comm, and_left_comm, and_assoc]
  · simp [ridCountWord, hc]

/-- The words of `BR.SETEND` (R101). -/
theorem words_brSetend : encodedAs 0x10 0x000FFFFF00000000 ridField (fun a _ imm => .brSetend a imm) :=
  encodedAs_of_decode ridImmWord (fun w hop => by simp only [decode, hop]; rfl) ridImmWord_iff

/-- The words of `BR.BOOL` (R109). -/
theorem words_brBool : encodedAs 0x13 0x000FFFFFFFFFFFFF ridField (fun a _ _ => .brBool a) :=
  encodedAs_of_decode ridWord (fun w hop => by simp only [decode, hop]; rfl) ridWord_iff

/-- The words of `BR.VALUE` (R110). -/
theorem words_brValue :
    encodedAs 0x14 0x000FFFE0FFFFFFFF ridCountFields (fun a c _ => .brValue a (BitVec.ofNat 5 c.toNat)) :=
  encodedAs_of_decode ridCountWord (fun w hop => by simp only [decode, hop, ofNat_count]; rfl) ridCountWord_iff

/-- The words of `BR.SIGNED` (R111). -/
theorem words_brSigned :
    encodedAs 0x15 0x000FFFE0FFFFFFFF ridCountFields (fun a c _ => .brSigned a (BitVec.ofNat 5 c.toNat)) :=
  encodedAs_of_decode ridCountWord (fun w hop => by simp only [decode, hop, ofNat_count]; rfl) ridCountWord_iff

end Sys2Proof
end

section
/-! What a BR command does (spec/40_boolreader.md R101, R102, R108 to R111): its next state where it is accepted and the
fault it raises where it is not, once for each of the two shared operations and once for each command. -/

namespace Sys2Proof.Machine

open Sys2Proof.Claims

variable {s : State} {rid : BitVec 4} {n : BitVec 5}

/-! ### A context (R21) -/

/-- The statements' spelling of a context, and the model's. -/
theorem State.readers_eq_reader (s : State) (hr : rid.toNat < 9) :
    s.readers[rid.toNat] = s.reader ⟨rid.toNat, hr⟩ := rfl

/-- Context `r` replaced twice keeps the second. -/
@[simp] theorem State.setReader_setReader (s : State) (r : Fin 9) (b b' : Reader) :
    (s.setReader r b).setReader r b' = s.setReader r b' := by
  simp [State.setReader]

@[simp] theorem State.setReader_reader (s : State) (r : Fin 9) : s.setReader r (s.reader r) = s := by
  simp [State.setReader, State.reader]

/-- Answering twice keeps the second. -/
@[simp] theorem State.answer_answer (s : State) (v v' : Word) : (s.answer v).answer v' = s.answer v' := rfl

theorem State.answer_setReader (s : State) (r : Fin 9) (b : Reader) (v : Word) :
    (s.answer v).setReader r b = (s.setReader r b).answer v := rfl

@[simp] theorem State.reader_answer (s : State) (r : Fin 9) (v : Word) : (s.answer v).reader r = s.reader r := rfl

@[simp] theorem State.bsByte_answer (s : State) (v : Word) : (s.answer v).bsByte = s.bsByte := rfl

@[simp] theorem State.bsByte_setReader (s : State) (r : Fin 9) (b : Reader) : (s.setReader r b).bsByte = s.bsByte := rfl

/-- The context that an opened or decoded reader is stored to. -/
theorem State.readers_setReader_respond (s : State) (hr : rid.toNat < 9) (b : Reader) (v : Word) :
    ((s.setReader ⟨rid.toNat, hr⟩ b).respond v).readers[rid.toNat] = b :=
  State.reader_setReader_self s ⟨rid.toNat, hr⟩ b

theorem State.readers_setReader_answer (s : State) (hr : rid.toNat < 9) (b : Reader) (v : Word) :
    ((s.setReader ⟨rid.toNat, hr⟩ b).answer v).readers[rid.toNat] = b :=
  State.reader_setReader_self s ⟨rid.toNat, hr⟩ b

/-! ### The two shared operations -/

theorem openReader_of_le {addr : Word} (w : Command) (f : Reader → Reader) (hr : rid.toNat < 9)
    (h : addr.toNat ≤ s.params.bsSize) :
    openReader rid addr w f s =
      .next ((s.setReader ⟨rid.toNat, hr⟩ (f (s.reader ⟨rid.toNat, hr⟩))).respond 0) := by
  simp only [openReader, readerOf_of_lt hr, if_pos h]

theorem openReader_of_lt {addr : Word} (w : Command) (f : Reader → Reader) (hr : rid.toNat < 9)
    (h : s.params.bsSize < addr.toNat) : openReader rid addr w f s = .next (faulted s .addressRange w) := by
  simp only [openReader, readerOf_of_lt hr, if_neg (Nat.not_le.2 h), raised, raise_eq_faulted]

theorem openReader_of_rid (addr : Word) (w : Command) (f : Reader → Reader) (hr : 9 ≤ rid.toNat) :
    openReader rid addr w f s = .next (faulted s .reservedField w) := by
  simp only [openReader, readerOf_of_le hr, raised, raise_eq_faulted]

theorem decodeWith_of_valid (w : Command) (f : Reader → Word × Reader) (hr : rid.toNat < 9)
    (hv : (s.reader ⟨rid.toNat, hr⟩).valid = true) :
    decodeWith rid true w f s =
      .next ((s.setReader ⟨rid.toNat, hr⟩ (f (s.reader ⟨rid.toNat, hr⟩)).2).answer
        (f (s.reader ⟨rid.toNat, hr⟩)).1) := by
  simp only [decodeWith, readerOf_of_lt hr, if_pos, hv]

theorem decodeWith_of_not_valid (w : Command) (f : Reader → Word × Reader) (hr : rid.toNat < 9)
    (hv : (s.reader ⟨rid.toNat, hr⟩).valid = false) :
    decodeWith rid true w f s = .next (faulted s .readerInvalid w) := by
  simp only [decodeWith, readerOf_of_lt hr, if_pos, hv, if_neg Bool.false_ne_true, raised, raise_eq_faulted]

/-- An operand out of range is refused whatever context is named. -/
theorem decodeWith_of_operand (w : Command) (f : Reader → Word × Reader) :
    decodeWith rid false w f s = .next (faulted s .reservedField w) := by
  unfold decodeWith
  split
  all_goals simp only [if_neg Bool.false_ne_true, raised, raise_eq_faulted]

theorem decodeWith_of_rid (ok : Bool) (w : Command) (f : Reader → Word × Reader) (hr : 9 ≤ rid.toNat) :
    decodeWith rid ok w f s = .next (faulted s .reservedField w) := by
  simp only [decodeWith, readerOf_of_le hr, raised, raise_eq_faulted]

/-! ### The commands as calls of the shared operations -/

/-- A decoded bit as a word. -/
def bitWord (b : Bool) : Word := (BitVec.ofBool b).setWidth 32

@[simp] theorem bitWord_toNat (b : Bool) : (bitWord b).toNat = b.toNat := by cases b <;> rfl

theorem bitWord_eq_ite (b : Bool) : bitWord b = if b = true then 1 else 0 := by cases b <;> rfl

theorem bitWord_eq_one_iff {b : Bool} : bitWord b = 1 ↔ b = true := by cases b <;> decide

theorem bitWord_eq_zero_iff {b : Bool} : bitWord b = 0 ↔ b = false := by cases b <;> decide

theorem exec_brSetend_eq (rid : BitVec 4) (bound : Word) (s : State) :
    exec (.brSetend rid bound) s =
      openReader rid bound (encode (.brSetend rid bound)) (fun b => { b with bound := bound }) s := rfl

theorem exec_brStart_eq (rid : BitVec 4) (start : Word) (s : State) :
    exec (.brStart rid start) s =
      openReader rid start (encode (.brStart rid start)) (Reader.start s.bsByte start) s := rfl

theorem exec_brGetbit_eq (rid : BitVec 4) (prob : Byte) (s : State) :
    exec (.brGetbit rid prob) s =
      decodeWith rid true (encode (.brGetbit rid prob))
        (fun b => (bitWord (b.bit prob.toNat), b.afterBit s.bsByte prob.toNat)) s := rfl

theorem exec_brBool_eq (rid : BitVec 4) (s : State) :
    exec (.brBool rid) s =
      decodeWith rid true (encode (.brBool rid)) (fun b => (bitWord (b.bit 128), b.afterBit s.bsByte 128)) s := rfl

theorem exec_brValue_eq (rid : BitVec 4) (n : BitVec 5) (s : State) :
    exec (.brValue rid n) s =
      decodeWith rid (countOk n) (encode (.brValue rid n))
        (fun b => (BitVec.ofNat 32 (b.readBits s.bsByte n.toNat 0).1, (b.readBits s.bsByte n.toNat 0).2)) s := rfl

theorem exec_brSigned_eq (rid : BitVec 4) (n : BitVec 5) (s : State) :
    exec (.brSigned rid n) s =
      decodeWith rid (countOk n) (encode (.brSigned rid n))
        (fun b => (BitVec.ofInt 32 (b.readSigned s.bsByte n.toNat).1, (b.readSigned s.bsByte n.toNat).2)) s := rfl

theorem countOk_iff : countOk n = true ↔ 1 ≤ n.toNat ∧ n.toNat ≤ 24 := by
  simp [countOk]

theorem countOk_eq_false_iff : countOk n = false ↔ n.toNat = 0 ∨ 24 < n.toNat := by
  rw [Bool.eq_false_iff, Ne, countOk_iff]
  omega

/-! ### The commands on a context they accept -/

theorem exec_brSetend {bound : Word} (hr : rid.toNat < 9) (h : bound.toNat ≤ s.params.bsSize) :
    exec (.brSetend rid bound) s =
      .next ((s.setReader ⟨rid.toNat, hr⟩ { s.reader ⟨rid.toNat, hr⟩ with bound := bound }).respond 0) := by
  rw [exec_brSetend_eq, openReader_of_le _ _ hr h]

theorem exec_brStart {start : Word} (hr : rid.toNat < 9) (h : start.toNat ≤ s.params.bsSize) :
    exec (.brStart rid start) s =
      .next ((s.setReader ⟨rid.toNat, hr⟩ ((s.reader ⟨rid.toNat, hr⟩).start s.bsByte start)).respond 0) := by
  rw [exec_brStart_eq, openReader_of_le _ _ hr h]

/-- What `BR.START` leaves, part by part. -/
theorem exists_exec_brStart {start : Word} (hr : rid.toNat < 9) (h : start.toNat ≤ s.params.bsSize) :
    ∃ t, exec (.brStart rid start) s = .next t ∧
      t.reader ⟨rid.toNat, hr⟩ = (s.reader ⟨rid.toNat, hr⟩).start s.bsByte start ∧ t.bsByte = s.bsByte :=
  ⟨_, exec_brStart hr h, State.readers_setReader_respond .., rfl⟩

theorem exec_brGetbit (prob : Byte) (hr : rid.toNat < 9) (hv : (s.reader ⟨rid.toNat, hr⟩).valid = true) :
    exec (.brGetbit rid prob) s =
      .next ((s.setReader ⟨rid.toNat, hr⟩ ((s.reader ⟨rid.toNat, hr⟩).afterBit s.bsByte prob.toNat)).answer
        (bitWord ((s.reader ⟨rid.toNat, hr⟩).bit prob.toNat))) := by
  rw [exec_brGetbit_eq, decodeWith_of_valid _ _ hr hv]

/-- What `BR.GETBIT` leaves, part by part. -/
theorem exists_exec_brGetbit (prob : Byte) (hr : rid.toNat < 9) (hv : (s.reader ⟨rid.toNat, hr⟩).valid = true) :
    ∃ t, exec (.brGetbit rid prob) s = .next t ∧
      t.reader ⟨rid.toNat, hr⟩ = (s.reader ⟨rid.toNat, hr⟩).afterBit s.bsByte prob.toNat ∧
      t.res = bitWord ((s.reader ⟨rid.toNat, hr⟩).bit prob.toNat) ∧ t.bsByte = s.bsByte :=
  ⟨_, exec_brGetbit prob hr hv, State.readers_setReader_answer .., rfl, rfl⟩

theorem exec_brBool (hr : rid.toNat < 9) (hv : (s.reader ⟨rid.toNat, hr⟩).valid = true) :
    exec (.brBool rid) s =
      .next ((s.setReader ⟨rid.toNat, hr⟩ ((s.reader ⟨rid.toNat, hr⟩).afterBit s.bsByte 128)).answer
        (bitWord ((s.reader ⟨rid.toNat, hr⟩).bit 128))) := by
  rw [exec_brBool_eq, decodeWith_of_valid _ _ hr hv]

theorem exec_brValue (hn : countOk n = true) (hr : rid.toNat < 9) (hv : (s.reader ⟨rid.toNat, hr⟩).valid = true) :
    exec (.brValue rid n) s =
      .next ((s.setReader ⟨rid.toNat, hr⟩ ((s.reader ⟨rid.toNat, hr⟩).readBits s.bsByte n.toNat 0).2).answer
        (BitVec.ofNat 32 ((s.reader ⟨rid.toNat, hr⟩).readBits s.bsByte n.toNat 0).1)) := by
  rw [exec_brValue_eq, hn, decodeWith_of_valid _ _ hr hv]

theorem exec_brSigned (hn : countOk n = true) (hr : rid.toNat < 9) (hv : (s.reader ⟨rid.toNat, hr⟩).valid = true) :
    exec (.brSigned rid n) s =
      .next ((s.setReader ⟨rid.toNat, hr⟩ ((s.reader ⟨rid.toNat, hr⟩).readSigned s.bsByte n.toNat).2).answer
        (BitVec.ofInt 32 ((s.reader ⟨rid.toNat, hr⟩).readSigned s.bsByte n.toNat).1)) := by
  rw [exec_brSigned_eq, hn, decodeWith_of_valid _ _ hr hv]

/-! ### The faults -/

theorem raises_brSetend {bound : Word} (hr : rid.toNat < 9) (h : s.params.bsSize < bound.toNat) :
    raises (.brSetend rid bound) .addressRange s := by
  rw [raises, exec_brSetend_eq, openReader_of_lt _ _ hr h]

theorem raises_brStart {start : Word} (hr : rid.toNat < 9) (h : s.params.bsSize < start.toNat) :
    raises (.brStart rid start) .addressRange s := by
  rw [raises, exec_brStart_eq, openReader_of_lt _ _ hr h]

section NeverStarted

variable (hr : rid.toNat < 9) (hv : (s.reader ⟨rid.toNat, hr⟩).valid = false)
include hr hv

theorem raises_brGetbit_of_not_valid (prob : Byte) : raises (.brGetbit rid prob) .readerInvalid s := by
  rw [raises, exec_brGetbit_eq, decodeWith_of_not_valid _ _ hr hv]

theorem raises_brBool_of_not_valid : raises (.brBool rid) .readerInvalid s := by
  rw [raises, exec_brBool_eq, decodeWith_of_not_valid _ _ hr hv]

theorem raises_brValue_of_not_valid (hn : countOk n = true) : raises (.brValue rid n) .readerInvalid s := by
  rw [raises, exec_brValue_eq, hn, decodeWith_of_not_valid _ _ hr hv]

theorem raises_brSigned_of_not_valid (hn : countOk n = true) : raises (.brSigned rid n) .readerInvalid s := by
  rw [raises, exec_brSigned_eq, hn, decodeWith_of_not_valid _ _ hr hv]

end NeverStarted

theorem raises_brValue_of_count (hn : countOk n = false) : raises (.brValue rid n) .reservedField s := by
  rw [raises, exec_brValue_eq, hn, decodeWith_of_operand]

theorem raises_brSigned_of_count (hn : countOk n = false) : raises (.brSigned rid n) .reservedField s := by
  rw [raises, exec_brSigned_eq, hn, decodeWith_of_operand]

/-- The commands that open a reader, with a `rid` above 8. -/
theorem raises_open_of_rid (hr : 9 ≤ rid.toNat) (a : Word) :
    raises (.brSetend rid a) .reservedField s ∧ raises (.brStart rid a) .reservedField s := by
  simp only [raises, exec_brSetend_eq, exec_brStart_eq, openReader_of_rid _ _ _ hr, and_self]

/-- The decode commands, with a `rid` above 8. -/
theorem raises_decode_of_rid (hr : 9 ≤ rid.toNat) (prob : Byte) (n : BitVec 5) :
    raises (.brGetbit rid prob) .reservedField s ∧ raises (.brBool rid) .reservedField s ∧
      raises (.brValue rid n) .reservedField s ∧ raises (.brSigned rid n) .reservedField s := by
  simp only [raises, exec_brGetbit_eq, exec_brBool_eq, exec_brValue_eq, exec_brSigned_eq, decodeWith_of_rid _ _ _ hr,
    and_self]

/-- Settles O26: each fault is one branch of a shared operation. -/
theorem decodeNeedsAStartedReader : Obligations.DecodeNeedsAStartedReader := by
  intro s rid prob n
  refine ⟨fun hr hv => ⟨raises_brGetbit_of_not_valid hr hv prob, raises_brBool_of_not_valid hr hv, fun hn =>
    have hok := countOk_iff.2 hn
    ⟨raises_brValue_of_not_valid hr hv hok, raises_brSigned_of_not_valid hr hv hok⟩⟩, fun hn => ?_, fun hr => ?_⟩
  · have hbad := countOk_eq_false_iff.2 hn
    exact ⟨raises_brValue_of_count hbad, raises_brSigned_of_count hbad⟩
  · obtain ⟨hgetbit, hbool, hvalue, hsigned⟩ := raises_decode_of_rid (s := s) hr prob n
    exact ⟨hgetbit, hbool, hvalue, hsigned, raises_open_of_rid hr⟩

/-- Settles O18: the words, the state with `end` replaced, and the fault above BS_SIZE. -/
theorem brSetendSetsTheEnd : Obligations.BrSetendSetsTheEnd :=
  ⟨words_brSetend, fun _ _ _ hr => ⟨exec_brSetend hr, raises_brSetend hr⟩⟩

/-- `BR.START` in closed form: the first byte of the span, or 0 where the span is empty (R102, R107). -/
theorem Reader.start_eq (bs : Nat → Byte) (start : Word) (b : Reader) :
    b.start bs start =
      if start.toNat < b.bound.toNat then
        { value := BitVec.ofNat 32 (bs start.toNat).toNat, range := 255, bitsLeft := 0,
          cursor := BitVec.ofNat 32 (start.toNat + 1), bound := b.bound, valid := true }
      else { value := 0, range := 255, bitsLeft := 0, cursor := start, bound := b.bound, valid := true } := by
  have hcursor : start + 1 = BitVec.ofNat 32 (start.toNat + 1) := by
    simp [BitVec.ofNat_add]
  have hbyte (x : Byte) : x.setWidth 32 = BitVec.ofNat 32 x.toNat := by
    rw [BitVec.ofNat_toNat]
  simp only [Reader.start, Reader.fetchByte, Reader.fetchCursor]
  split
  · simp only [hcursor, hbyte]
  · rfl

/-- Settles O19: the state with the opened reader in closed form, and the fault above BS_SIZE. -/
theorem brStartPrimesTheReader : Obligations.BrStartPrimesTheReader := by
  intro s rid start hr
  refine ⟨fun hstart => ?_, raises_brStart hr⟩
  rw [exec_brStart hr hstart, Reader.start_eq]
  rfl

/-- Settles O23: `BR.BOOL` and `BR.GETBIT` with 128 are one formula. -/
theorem brBoolIsGetbit128 : Obligations.BrBoolIsGetbit128 := by
  refine ⟨words_brBool, fun s rid hr => ⟨fun hv => ?_, raises_brBool_of_not_valid hr⟩⟩
  refine ⟨_, exec_brBool hr hv, exec_brGetbit 128 hr hv, ?_, rfl⟩
  rw [State.answer_res, bitWord_toNat]
  exact Bool.toNat_le _

/-! ### Several bits (R110, R111) -/

/-- `n` commands `BR.BOOL` spell the number `readBits` reads, and leave the reader it leaves; of what else they leave,
only `RES` and the response differ from `s`. -/
theorem boolRun_eq (hr : rid.toNat < 9) (n acc : Nat) (s : State) (hv : (s.reader ⟨rid.toNat, hr⟩).valid = true) :
    ∃ u, boolRun rid n acc s = some (((s.reader ⟨rid.toNat, hr⟩).readBits s.bsByte n acc).1, u) ∧
      ∀ v, u.answer v =
        (s.setReader ⟨rid.toNat, hr⟩ ((s.reader ⟨rid.toNat, hr⟩).readBits s.bsByte n acc).2).answer v := by
  induction n generalizing acc s with
  | zero => exact ⟨s, rfl, fun v => by simp [Reader.readBits]⟩
  | succ n ih =>
    let t := (s.setReader ⟨rid.toNat, hr⟩ ((s.reader ⟨rid.toNat, hr⟩).afterBit s.bsByte 128)).answer
      (bitWord ((s.reader ⟨rid.toNat, hr⟩).bit 128))
    have ht : t.reader ⟨rid.toNat, hr⟩ = (s.reader ⟨rid.toNat, hr⟩).afterBit s.bsByte 128 :=
      State.reader_setReader_self ..
    obtain ⟨u, hrun, hu⟩ := ih (2 * acc + t.res.toNat) t (by rw [ht, afterBit_valid, hv])
    have hres : t.res.toNat = ((s.reader ⟨rid.toNat, hr⟩).bit 128).toNat := bitWord_toNat _
    have hbs : t.bsByte = s.bsByte := rfl
    rw [ht, hres, hbs] at hrun hu
    refine ⟨u, ?_, fun v => (hu v).trans ?_⟩
    · simp only [boolRun, exec_brBool hr hv]
      exact hres ▸ hrun
    · simp [t, Reader.readBits, State.answer_setReader]

/-- Settles O24: the words; `BR.VALUE` reads the bits that the commands `BR.BOOL` read; and the fault. -/
theorem brValueIsRepeatedBool : Obligations.BrValueIsRepeatedBool := by
  refine ⟨words_brValue, fun s rid n hr h1 h24 => ?_⟩
  have hok := countOk_iff.2 ⟨h1, h24⟩
  refine ⟨fun hv => ?_, fun hv => raises_brValue_of_not_valid hr hv hok⟩
  obtain ⟨u, hrun, hu⟩ := boolRun_eq hr n.toNat 0 s hv
  refine ⟨_, u, hrun, by simpa using readBits_lt s.bsByte n.toNat 0 (s.reader ⟨rid.toNat, hr⟩), ?_⟩
  exact (exec_brValue hok hr hv).trans (congrArg _ (hu _).symm)

/-- Settles O25: the words; `BR.SIGNED` reads the bits that the commands `BR.BOOL` read, and one more for the sign;
and the fault. -/
theorem brSignedIsMagnitudeThenSign : Obligations.BrSignedIsMagnitudeThenSign := by
  refine ⟨words_brSigned, fun s rid n hr h1 h24 => ?_⟩
  have hok := countOk_iff.2 ⟨h1, h24⟩
  refine ⟨fun hv => ?_, fun hv => raises_brSigned_of_not_valid hr hv hok⟩
  obtain ⟨u, hrun, hu⟩ := boolRun_eq hr n.toNat 0 s hv
  have hreader : u.reader ⟨rid.toNat, hr⟩ = ((s.reader ⟨rid.toNat, hr⟩).readBits s.bsByte n.toNat 0).2 := by
    have h := congrArg (State.reader · ⟨rid.toNat, hr⟩) (hu 0)
    simpa using h
  have hbs : u.bsByte = s.bsByte := by
    have h := congrArg State.bsByte (hu 0)
    simpa using h
  refine ⟨_, u, _, hrun, by simpa using readBits_lt s.bsByte n.toNat 0 (s.reader ⟨rid.toNat, hr⟩),
    exec_brBool hr (by rw [hreader, readBits_valid]; exact hv), ?_⟩
  have hstate (b : Reader) (v : Word) :
      (u.setReader ⟨rid.toNat, hr⟩ b).answer v = (s.setReader ⟨rid.toNat, hr⟩ b).answer v := by
    rw [← State.answer_setReader, hu, State.answer_setReader, State.setReader_setReader]
  simp only [hreader, hbs, hstate, State.answer_res, bitWord_eq_one_iff]
  exact exec_brSigned hok hr hv

end Sys2Proof.Machine
end

section
/-! One decode in closed form (spec/40_boolreader.md R104 to R108, R115): the values of the split, `BR.GETBIT` with its
whole result, and the rare bit at the ends of the probability scale. -/

namespace Sys2Proof.Machine

variable {s : State} {rid : BitVec 4} {r : Reader} {bs : Nat → Byte} {range prob : Nat}

/-! ### The split (R104) -/

@[simp] theorem split_zero (range : Nat) : split range 0 = 1 := by simp [split]

/-- Each unit of `range − 1` up to 255 loses less than one part in 256 to `prob = 255`. -/
theorem split_255 (h1 : 2 ≤ range) (h2 : range ≤ 255) : split range 255 = range - 1 := by
  unfold split
  omega

theorem split_128 (range : Nat) : split range 128 = 1 + ((range - 1) >>> 1) := by
  simp only [split, Nat.shiftRight_eq_div_pow]
  omega

theorem split_mono {more : Nat} (h : prob ≤ more) : split range prob ≤ split range more :=
  Nat.add_le_add_left (Nat.div_le_div_right (Nat.mul_le_mul_left _ h)) 1

/-- Settles O21: the bounds on the split are those the decode step rests on. -/
theorem splitStaysInsideTheRange : Obligations.SplitStaysInsideTheRange := by
  refine ⟨fun range prob h128 h255 hprob => ?_, rfl, rfl⟩
  have hlt : split range prob < range := split_lt (by omega) hprob
  refine ⟨?_, one_le_split range prob, by omega, by omega, fun more hmore _ => split_mono hmore, split_zero range,
    split_255 (by omega) h255, split_128 range⟩
  rw [split, Nat.shiftRight_eq_div_pow]

/-! ### `BR.GETBIT` (R105 to R108) -/

theorem bit_eq_true_iff : r.bit prob = true ↔ split r.range.toNat prob ≤ r.window := by
  simp [Reader.bit]

theorem bitWord_bit (r : Reader) (prob : Nat) :
    bitWord (r.bit prob) = if split r.range.toNat prob ≤ r.window then 1 else 0 := by
  simp only [bitWord_eq_ite, bit_eq_true_iff]

/-- Settles O20: the branch and the renormalization, each in closed form. -/
theorem brGetbitDecodesOneBit : Obligations.BrGetbitDecodesOneBit := by
  intro s rid prob hr r hv h128 h7 sp one rng val k bit
  have hprob : prob.toNat ≤ 255 := by omega
  have hrng : (r.branch prob.toNat).range.toNat = rng := branch_range (by omega) hprob
  have hval : (r.branch prob.toNat).value.toNat = val := branch_value r _
  obtain ⟨k', -, hk, -, hrange, hbound, hvalid, hhand, hfetch⟩ :=
    afterBit_fields (bs := s.bsByte) (r := r) (by omega) hprob h7
  rw [hrng] at hk hrange
  obtain rfl : k' = k := hk
  refine ⟨r.afterBit s.bsByte prob.toNat, ?_, hrange, hbound, hvalid.trans hv, fun hle => ?_, fun hlt => ?_⟩
  · have hbit : bitWord (r.bit prob.toNat) = bit := bitWord_bit r _
    rw [← hbit]
    exact exec_brGetbit prob hr hv
  · obtain ⟨hvalue, hbits, hcursor⟩ := hhand hle
    exact ⟨by rw [hvalue, hval], hbits, hcursor⟩
  · obtain ⟨hvalue, hbits, hcursor⟩ := hfetch hlt
    rw [hval] at hvalue
    refine ⟨hbits, fun hin => ?_, fun hend => ?_⟩
    · rw [hvalue, hcursor, fetchCursor_toNat, Reader.fetchByte, if_pos hin, if_pos hin]
      exact ⟨rfl, rfl⟩
    · have hout := Nat.not_lt.2 hend
      rw [hvalue, hcursor, Reader.fetchCursor, Reader.fetchByte, if_neg hout, if_neg hout]
      exact ⟨by simp, rfl⟩

/-! ### The ends of the probability scale (R115) -/

/-- A branch that leaves `range` 1 is followed by seven turns, which bring it to 128 and take seven bits. -/
theorem afterBit_of_branch_range_one (h2 : 2 ≤ r.range.toNat) (hp : prob ≤ 255) (h7 : r.bitsLeft.toNat ≤ 7)
    (hone : (r.branch prob).range.toNat = 1) :
    (r.afterBit bs prob).range = 128 ∧ (r.afterBit bs prob).bitsLeft.toNat = (r.bitsLeft.toNat + 1) % 8 := by
  obtain ⟨k, -, hk, -, hrange, -, -, hhand, hfetch⟩ := afterBit_fields (bs := bs) h2 hp h7
  rw [hone] at hk hrange
  obtain rfl : k = 7 := hk
  refine ⟨BitVec.eq_of_toNat_eq hrange, ?_⟩
  rcases Nat.lt_or_ge r.bitsLeft.toNat 7 with hlt | hge
  · obtain ⟨-, hbits, -⟩ := hfetch hlt
    omega
  · obtain ⟨-, hbits, -⟩ := hhand hge
    omega

/-- With `prob` 0 the split is 1: a 0 is decoded where the window is 0, and leaves `range` 1. -/
theorem bit_zero_iff : r.bit 0 = false ↔ r.window = 0 := by
  rw [Bool.eq_false_iff, Ne, bit_eq_true_iff, split_zero]
  omega

theorem branch_range_of_bit_zero (h2 : 2 ≤ r.range.toNat) (h : r.bit 0 = false) :
    (r.branch 0).range.toNat = 1 := by
  rw [branch_range h2 (Nat.zero_le _), split_zero, if_neg (by have := bit_zero_iff.1 h; omega)]

/-- With `prob` 255 the split is `range − 1`: a 1 is decoded where the window is that, and leaves `range` 1. -/
theorem bit_255_iff (h2 : 2 ≤ r.range.toNat) (hnormal : r.normal) :
    r.bit 255 = true ↔ r.window = r.range.toNat - 1 := by
  have h255 : r.range.toNat < 256 := r.range.isLt
  rw [bit_eq_true_iff, split_255 h2 (by omega)]
  omega

theorem branch_range_of_bit_255 (h2 : 2 ≤ r.range.toNat) (h : r.bit 255 = true) :
    (r.branch 255).range.toNat = 1 := by
  have h255 : r.range.toNat < 256 := r.range.isLt
  rw [branch_range h2 (Nat.le_refl _), if_pos (bit_eq_true_iff.1 h), split_255 h2 (by omega)]
  omega

/-- Settles O22: the rare bit at either end, and the seven turns after it. -/
theorem extremeProbabilities : Obligations.ExtremeProbabilities := by
  intro s rid hr r hv h128 h7
  have h2 : 2 ≤ r.range.toNat := by omega
  obtain ⟨t, ht, hreader, hres, -⟩ := exists_exec_brGetbit 0 hr hv
  obtain ⟨t', ht', hreader', hres', -⟩ := exists_exec_brGetbit 255 hr hv
  refine ⟨⟨t, ht, ?_, fun hrare => ?_⟩, fun hnormal => ⟨t', ht', ?_, fun hrare => ?_⟩⟩
  · rw [hres, bitWord_eq_zero_iff]
    exact bit_zero_iff
  · rw [hres, bitWord_eq_zero_iff] at hrare
    rw [State.readers_eq_reader t hr, hreader]
    exact afterBit_of_branch_range_one h2 (by decide) h7 (branch_range_of_bit_zero h2 hrare)
  · rw [hres', bitWord_eq_one_iff]
    exact bit_255_iff h2 hnormal
  · rw [hres', bitWord_eq_one_iff] at hrare
    rw [State.readers_eq_reader t' hr, hreader']
    exact afterBit_of_branch_range_one h2 (by decide) h7 (branch_range_of_bit_255 h2 hrare)

end Sys2Proof.Machine
end

section
/-! What every decode keeps (spec/40_boolreader.md R112, R116): a property of the reader that the branch and each
renormalization turn keep, every decode keeps: the normal regime is one, and the reader that answers ones
for ever another. -/

namespace Sys2Proof.Machine

variable {r : Reader} {bs : Nat → Byte} {prob : Nat}

/-! ### One renormalization turn (R106) -/

@[simp] theorem renormTurn_bound (bs : Nat → Byte) (r : Reader) : (r.renormTurn bs).bound = r.bound := by
  unfold Reader.renormTurn; split <;> rfl

/-- A turn doubles a `range` below 128. -/
theorem renormTurn_range (h : r.range.toNat < 128) : (r.renormTurn bs).range.toNat = 2 * r.range.toNat := by
  have hrange : (r.renormTurn bs).range = r.range <<< 1 := by unfold Reader.renormTurn; split <;> rfl
  rw [hrange, BitVec.toNat_shiftLeft, Nat.shiftLeft_eq]
  omega

/-- A turn with no bit at hand fetches a byte and takes the first of its bits. -/
theorem renormTurn_of_empty (h : r.bitsLeft.toNat = 0) :
    (r.renormTurn bs).value.toNat = (r.value.toNat * 256 + (r.fetchByte bs).toNat) % 2 ^ 32 ∧
      (r.renormTurn bs).bitsLeft.toNat = 7 ∧ (r.renormTurn bs).cursor = r.fetchCursor := by
  have hzero : r.bitsLeft = 0 := BitVec.eq_of_toNat_eq h
  simp only [Reader.renormTurn, if_pos hzero]
  exact ⟨refill_value bs r, by rw [refill_bitsLeft]; rfl, rfl⟩

/-- A turn with bits at hand takes one of them. -/
theorem renormTurn_of_bits (h : 1 ≤ r.bitsLeft.toNat) :
    (r.renormTurn bs).value = r.value ∧ (r.renormTurn bs).bitsLeft.toNat = r.bitsLeft.toNat - 1 ∧
      (r.renormTurn bs).cursor = r.cursor := by
  have hzero : r.bitsLeft ≠ 0 := fun h0 => by simp [h0] at h
  simp only [Reader.renormTurn, if_neg hzero, true_and, and_true]
  rw [BitVec.toNat_sub_of_le (by rw [BitVec.le_def]; exact h)]
  rfl

/-- What each turn keeps, the turns of a renormalization keep. -/
theorem renormTurns_induction {P : Reader → Prop} (hturn : ∀ r, r.range.toNat < 128 → P r → P (r.renormTurn bs))
    (k : Nat) (h : P r) : P (r.renormTurns bs k) := by
  induction k generalizing r with
  | zero => exact h
  | succ k ih =>
    unfold Reader.renormTurns
    split
    · next hrange => exact ih (hturn r hrange h)
    · exact h

/-- `range` doubles as a bit is taken, so `range << bits_left` stays. -/
theorem two_mul_scale {b : Nat} (n : Nat) (h : 1 ≤ b) : 2 * n * 2 ^ (b - 1) = n * 2 ^ b := by
  obtain ⟨j, rfl⟩ := Nat.exists_eq_add_of_le' h
  rw [Nat.add_sub_cancel, Nat.pow_succ, Nat.mul_comm 2 n, Nat.mul_assoc, Nat.mul_comm 2]

/-! ### The normal regime (R112) -/

/-- The normal regime, between and within decodes: `value` below `range << bits_left`. -/
def Reader.below (r : Reader) : Prop :=
  r.bitsLeft.toNat ≤ 7 ∧ r.value.toNat < r.range.toNat * 2 ^ r.bitsLeft.toNat

theorem Reader.below_iff_normal (h7 : r.bitsLeft.toNat ≤ 7) : r.below ↔ r.normal := by
  unfold Reader.normal
  rw [Reader.below, and_iff_right h7, ← Nat.not_le, ← Nat.not_le, le_window_iff]

theorem Reader.below.normal (h : r.below) : r.normal := (Reader.below_iff_normal h.1).1 h

/-- The largest `range` over the most bits below the window leaves 15 bits of `value`. -/
theorem Reader.below.value_lt (h : r.below) : r.value.toNat < 2 ^ 15 := by
  obtain ⟨h7, hlt⟩ := h
  have h255 : r.range.toNat < 256 := r.range.isLt
  calc r.value.toNat < r.range.toNat * 2 ^ r.bitsLeft.toNat := hlt
    _ ≤ 255 * 2 ^ 7 := Nat.mul_le_mul (by omega) (Nat.pow_le_pow_right (by omega) h7)
    _ < 2 ^ 15 := by omega

theorem renormTurn_below (hrange : r.range.toNat < 128) (h : r.below) : (r.renormTurn bs).below := by
  obtain ⟨h7, hlt⟩ := h
  unfold Reader.below
  rw [renormTurn_range hrange]
  rcases Nat.eq_zero_or_pos r.bitsLeft.toNat with hb | hb
  · obtain ⟨hvalue, hbits, -⟩ := renormTurn_of_empty (bs := bs) hb
    have hbyte : (r.fetchByte bs).toNat < 256 := (r.fetchByte bs).isLt
    rw [hb] at hlt
    rw [hvalue, hbits]
    omega
  · obtain ⟨hvalue, hbits, -⟩ := renormTurn_of_bits (bs := bs) hb
    rw [hvalue, hbits, two_mul_scale _ hb]
    exact ⟨by omega, hlt⟩

/-- Both branches cut `value` and `range << bits_left` by the same amount, or cut the latter to above `value`. -/
theorem branch_below (h2 : 2 ≤ r.range.toNat) (hp : prob ≤ 255) (h : r.below) : (r.branch prob).below := by
  obtain ⟨h7, hlt⟩ := h
  refine ⟨by rwa [branch_bitsLeft], ?_⟩
  rw [branch_range h2 hp, branch_value, branch_bitsLeft]
  by_cases hone : split r.range.toNat prob ≤ r.window
  · have hle := le_window_iff.1 hone
    rw [if_pos hone, if_pos hone, Nat.sub_mul]
    omega
  · rw [if_neg hone, if_neg hone]
    exact Nat.lt_of_not_le fun hle => hone (le_window_iff.2 hle)

theorem afterBit_below (h2 : 2 ≤ r.range.toNat) (hp : prob ≤ 255) (h : r.below) : (r.afterBit bs prob).below :=
  renormTurns_induction (P := Reader.below) (fun _ => renormTurn_below) 7 (branch_below h2 hp h)

/-- A span whose first byte is not 0xFF, or that is empty, opens below. -/
theorem start_below {start : Word} (h : start.toNat < r.bound.toNat → bs start.toNat ≠ 0xFF) :
    (r.start bs start).below := by
  rw [Reader.start_eq]
  split
  · next hin =>
    have hne : (bs start.toNat).toNat ≠ 255 := fun he => h hin (BitVec.eq_of_toNat_eq he)
    have hlt : (bs start.toNat).toNat < 256 := (bs start.toNat).isLt
    refine ⟨Nat.zero_le _, ?_⟩
    show (BitVec.ofNat 32 (bs start.toNat).toNat).toNat < 255 * 2 ^ 0
    rw [BitVec.toNat_ofNat]
    omega
  · exact ⟨Nat.zero_le _, (by decide : (0 : Word).toNat < (255 : Byte).toNat * 2 ^ (0 : BitVec 4).toNat)⟩

/-- Settles O27: the reader opens below, each decode keeps it so, and there `value` has 15 bits. -/
theorem normalRegimeIsKept : Obligations.NormalRegimeIsKept := by
  intro s rid hr
  refine ⟨fun start hstart hbyte => ?_, fun prob hv hlegal hnormal => ?_⟩
  · obtain ⟨t, ht, hreader, -⟩ := exists_exec_brStart hr hstart
    have hbelow : (t.reader ⟨rid.toNat, hr⟩).below := hreader ▸ start_below hbyte
    exact ⟨t, ht, hbelow.normal, hbelow.value_lt⟩
  · obtain ⟨h128, h7, -⟩ := hlegal
    obtain ⟨t, ht, hreader, -⟩ := exists_exec_brGetbit prob hr hv
    have hbelow : (t.reader ⟨rid.toNat, hr⟩).below :=
      hreader ▸ afterBit_below (Nat.le_trans (by omega) h128) (by omega) ((Reader.below_iff_normal h7).2 hnormal)
    exact ⟨t, ht, hbelow.normal, hbelow.value_lt⟩

/-! ### A span of 0xFF (R116(a)) -/

/-- The reader that answers ones for ever: `value` is `range << bits_left`, and no byte is left. -/
def Reader.onlyOnes (r : Reader) : Prop :=
  r.bitsLeft.toNat ≤ 7 ∧ r.value.toNat = r.range.toNat * 2 ^ r.bitsLeft.toNat ∧ r.bound.toNat ≤ r.cursor.toNat

theorem renormTurn_onlyOnes (hrange : r.range.toNat < 128) (h : r.onlyOnes) : (r.renormTurn bs).onlyOnes := by
  obtain ⟨h7, heq, hend⟩ := h
  unfold Reader.onlyOnes
  rw [renormTurn_range hrange, renormTurn_bound]
  rcases Nat.eq_zero_or_pos r.bitsLeft.toNat with hb | hb
  · obtain ⟨hvalue, hbits, hcursor⟩ := renormTurn_of_empty (bs := bs) hb
    have hbyte : (r.fetchByte bs).toNat = 0 := by rw [Reader.fetchByte, if_neg (Nat.not_lt.2 hend)]; rfl
    rw [hb] at heq
    rw [hvalue, hbits, hcursor, fetchCursor_toNat, if_neg (Nat.not_lt.2 hend), hbyte]
    omega
  · obtain ⟨hvalue, hbits, hcursor⟩ := renormTurn_of_bits (bs := bs) hb
    rw [hvalue, hbits, hcursor, two_mul_scale _ hb]
    exact ⟨by omega, heq, hend⟩

/-- The window is `range`, which no split reaches. -/
theorem bit_of_onlyOnes (h2 : 2 ≤ r.range.toNat) (hp : prob ≤ 255) (h : r.onlyOnes) : r.bit prob = true := by
  obtain ⟨-, heq, -⟩ := h
  rw [bit_eq_true_iff, le_window_iff, heq]
  exact Nat.mul_le_mul_right _ (split_lt h2 hp).le

theorem branch_onlyOnes (h2 : 2 ≤ r.range.toNat) (hp : prob ≤ 255) (h : r.onlyOnes) : (r.branch prob).onlyOnes := by
  have hone := bit_eq_true_iff.1 (bit_of_onlyOnes h2 hp h)
  obtain ⟨h7, heq, hend⟩ := h
  unfold Reader.onlyOnes
  rw [branch_range h2 hp, branch_value, branch_bitsLeft, branch_bound, branch_cursor, if_pos hone, if_pos hone, heq,
    Nat.sub_mul]
  exact ⟨h7, rfl, hend⟩

theorem afterBit_onlyOnes (h2 : 2 ≤ r.range.toNat) (hp : prob ≤ 255) (h : r.onlyOnes) :
    (r.afterBit bs prob).onlyOnes :=
  renormTurns_induction (P := Reader.onlyOnes) (fun _ => renormTurn_onlyOnes) 7 (branch_onlyOnes h2 hp h)

theorem start_onlyOnes {start : Word} (hbound : r.bound.toNat = start.toNat + 1) (hbyte : bs start.toNat = 0xFF) :
    (r.start bs start).onlyOnes := by
  have hlt := r.bound.isLt
  rw [Reader.start_eq, if_pos (by omega), hbyte]
  refine ⟨Nat.zero_le _, rfl, ?_⟩
  show r.bound.toNat ≤ (BitVec.ofNat 32 (start.toNat + 1)).toNat
  rw [BitVec.toNat_ofNat]
  omega

/-- Settles O28: the reader opens with `value` at `range`, and each decode answers 1 and keeps it there. -/
theorem onlyByteFFDecodesOnes : Obligations.OnlyByteFFDecodesOnes := by
  intro s rid hr
  refine ⟨fun start hstart hbound hbyte => ?_, fun prob hv hlegal heq hend => ?_⟩
  · obtain ⟨t, ht, hreader, -⟩ := exists_exec_brStart hr hstart.le
    obtain ⟨-, hvalue, hdone⟩ : (t.reader ⟨rid.toNat, hr⟩).onlyOnes := hreader ▸ start_onlyOnes hbound hbyte
    exact ⟨t, ht, hvalue, hdone⟩
  · obtain ⟨h128, h7, -⟩ := hlegal
    have h2 : 2 ≤ (s.readers[rid.toNat]).range.toNat := by omega
    have hp : prob.toNat ≤ 255 := by omega
    have hones : Reader.onlyOnes s.readers[rid.toNat] := ⟨h7, heq, hend⟩
    obtain ⟨t, ht, hreader, hres, -⟩ := exists_exec_brGetbit prob hr hv
    obtain ⟨-, hvalue, hdone⟩ : (t.reader ⟨rid.toNat, hr⟩).onlyOnes := hreader ▸ afterBit_onlyOnes h2 hp hones
    exact ⟨t, ht, hres.trans (bitWord_eq_one_iff.2 (bit_of_onlyOnes h2 hp hones)), hvalue, hdone⟩

end Sys2Proof.Machine
end

section
/-! The doubling reader decodes the same bits as the window reader (spec/40_boolreader.md R114): a relation between the
two that every renormalization turn and every decode keeps. -/

namespace Sys2Proof.Machine

open Sys2Proof.Claims

variable {bs : Nat → Byte} {start bound p prob : Nat} {r : Reader} {d : Doubling}

/-! ### The doubling reader, turn by turn -/

/-- One renormalization turn of the doubling reader. -/
def doublingTurn (span : Nat → Nat) (d : Doubling) : Doubling :=
  if d.turns = 7 then { value := 2 * d.value + span d.pos, range := 2 * d.range, turns := 0, pos := d.pos + 1 }
  else { d with value := 2 * d.value, range := 2 * d.range, turns := d.turns + 1 }

theorem doubling_turn_succ (span : Nat → Nat) (k : Nat) (d : Doubling) :
    Doubling.turn span (k + 1) d = if d.range < 128 then Doubling.turn span k (doublingTurn span d) else d := rfl

theorem doublingTurn_of_seven {span : Nat → Nat} (h : d.turns = 7) :
    doublingTurn span d =
      { value := 2 * d.value + span d.pos, range := 2 * d.range, turns := 0, pos := d.pos + 1 } := if_pos h

theorem doublingTurn_of_ne_seven {span : Nat → Nat} (h : d.turns ≠ 7) :
    doublingTurn span d = { d with value := 2 * d.value, range := 2 * d.range, turns := d.turns + 1 } := if_neg h

theorem spanByte_lt (bs : Nat → Byte) (start bound k : Nat) : spanByte bs start bound k < 256 := by
  unfold spanByte
  split
  · exact (bs (start + k)).isLt
  · omega

/-! ### The fetches of a span (R107) -/

/-- The reader has taken `p` bytes from the span, or all of them where it has fewer. -/
def Reader.hasTaken (r : Reader) (start bound p : Nat) : Prop :=
  r.bound.toNat = bound ∧ r.cursor.toNat = min (start + p) (max start bound)

theorem Reader.hasTaken.fetchByte (h : r.hasTaken start bound p) :
    (r.fetchByte bs).toNat = spanByte bs start bound p := by
  obtain ⟨hbound, hcursor⟩ := h
  unfold Reader.fetchByte spanByte
  by_cases hin : start + p < bound
  · rw [if_pos (by omega), if_pos hin, show r.cursor.toNat = start + p by omega]
  · rw [if_neg (by omega), if_neg hin]
    rfl

theorem Reader.hasTaken.fetch {r' : Reader} (h : r.hasTaken start bound p) (hbound : r'.bound = r.bound)
    (hcursor : r'.cursor = r.fetchCursor) : r'.hasTaken start bound (p + 1) := by
  obtain ⟨hb, hc⟩ := h
  unfold Reader.hasTaken
  rw [hbound, hcursor, fetchCursor_toNat]
  split <;> omega

theorem Reader.hasTaken.of_same {r' : Reader} (h : r.hasTaken start bound p) (hbound : r'.bound = r.bound)
    (hcursor : r'.cursor = r.cursor) : r'.hasTaken start bound p := by
  unfold Reader.hasTaken
  rw [hbound, hcursor]
  exact h

/-! ### The relation -/

/-- The bits of the doubling reader's `value` below those of the window reader's: it is a byte ahead while the window
reader has none at hand. -/
def lookahead (bs : Nat → Byte) (start bound p bits : Nat) : Nat := if bits = 0 then spanByte bs start bound p else 0

/-- `d` is the doubling reader of the window reader `r`, which has taken `p` bytes: the window stands at bit 8 in `d`,
and `d` fetches a byte as `r` spends the last bit of the one before. -/
structure Tracks (bs : Nat → Byte) (start bound p : Nat) (r : Reader) (d : Doubling) : Prop where
  below : r.below
  taken : r.hasTaken start bound p
  range : d.range = r.range.toNat
  turns : d.turns = (8 - r.bitsLeft.toNat) % 8
  pos : d.pos = if r.bitsLeft.toNat = 0 then p + 1 else p
  value : d.value = r.value.toNat * 2 ^ (8 - r.bitsLeft.toNat) + lookahead bs start bound p r.bitsLeft.toNat

/-- A turn that fetches in the window reader: the doubling reader has the byte already. -/
theorem Tracks.turn_of_empty (h : Tracks bs start bound p r d) (hrange : r.range.toNat < 128)
    (hb : r.bitsLeft.toNat = 0) :
    Tracks bs start bound (p + 1) (r.renormTurn bs) (doublingTurn (spanByte bs start bound) d) := by
  obtain ⟨hbelow, htaken, hdrange, hturns, hpos, hvalue⟩ := h
  obtain ⟨hv, hbits, hcursor⟩ := renormTurn_of_empty (bs := bs) hb
  have hspan := spanByte_lt bs start bound p
  have hlt := hbelow.value_lt
  rw [hb] at hturns hpos hvalue
  rw [doublingTurn_of_ne_seven (by omega)]
  refine ⟨renormTurn_below hrange hbelow, htaken.fetch (renormTurn_bound bs r) hcursor, ?_, ?_, ?_, ?_⟩
  · rw [renormTurn_range hrange, hdrange]
  · rw [hbits, hturns]
  · rw [hbits, hpos]
    rfl
  · rw [hbits, hv, htaken.fetchByte]
    show 2 * d.value = _
    rw [hvalue, lookahead, lookahead, if_pos rfl, if_neg (by omega)]
    omega

/-- A turn on the last bit at hand: the doubling reader fetches. -/
theorem Tracks.turn_of_last (h : Tracks bs start bound p r d) (hrange : r.range.toNat < 128)
    (hb : r.bitsLeft.toNat = 1) :
    Tracks bs start bound p (r.renormTurn bs) (doublingTurn (spanByte bs start bound) d) := by
  obtain ⟨hbelow, htaken, hdrange, hturns, hpos, hvalue⟩ := h
  obtain ⟨hv, hbits, hcursor⟩ := renormTurn_of_bits (bs := bs) hb.ge
  rw [hb] at hturns hpos hvalue hbits
  rw [doublingTurn_of_seven hturns]
  refine ⟨renormTurn_below hrange hbelow, htaken.of_same (renormTurn_bound bs r) hcursor, ?_, ?_, ?_, ?_⟩
  · rw [renormTurn_range hrange, hdrange]
  · rw [hbits]
  · rw [hbits, hpos]
    rfl
  · rw [hbits, hv]
    show 2 * d.value + spanByte bs start bound d.pos = _
    rw [hvalue, hpos, lookahead, lookahead, if_neg (by omega), if_neg (by omega), if_pos rfl]
    omega

/-- A turn with more bits at hand: neither reader fetches. -/
theorem Tracks.turn_of_more (h : Tracks bs start bound p r d) (hrange : r.range.toNat < 128)
    (hb : 2 ≤ r.bitsLeft.toNat) :
    Tracks bs start bound p (r.renormTurn bs) (doublingTurn (spanByte bs start bound) d) := by
  obtain ⟨hbelow, htaken, hdrange, hturns, hpos, hvalue⟩ := h
  obtain ⟨hv, hbits, hcursor⟩ := renormTurn_of_bits (bs := bs) (by omega : 1 ≤ r.bitsLeft.toNat)
  have h7 := hbelow.1
  rw [doublingTurn_of_ne_seven (by omega)]
  refine ⟨renormTurn_below hrange hbelow, htaken.of_same (renormTurn_bound bs r) hcursor, ?_, ?_, ?_, ?_⟩
  · rw [renormTurn_range hrange, hdrange]
  · rw [hbits]
    show d.turns + 1 = _
    omega
  · rw [hbits, if_neg (by omega)]
    show d.pos = p
    rw [hpos, if_neg (by omega)]
  · rw [hbits, hv]
    show 2 * d.value = _
    rw [hvalue, lookahead, lookahead, if_neg (by omega), if_neg (by omega), Nat.add_zero, Nat.add_zero,
      show 8 - (r.bitsLeft.toNat - 1) = 8 - r.bitsLeft.toNat + 1 by omega]
    ring

theorem Tracks.turn (h : Tracks bs start bound p r d) (hrange : r.range.toNat < 128) :
    ∃ q, Tracks bs start bound q (r.renormTurn bs) (doublingTurn (spanByte bs start bound) d) := by
  obtain hb | hb | hb : r.bitsLeft.toNat = 0 ∨ r.bitsLeft.toNat = 1 ∨ 2 ≤ r.bitsLeft.toNat := by omega
  · exact ⟨_, h.turn_of_empty hrange hb⟩
  · exact ⟨_, h.turn_of_last hrange hb⟩
  · exact ⟨_, h.turn_of_more hrange hb⟩

/-- The two readers renormalize in step: they have the same `range`, so they stop together. -/
theorem Tracks.turns_of_fuel (k : Nat) (h : Tracks bs start bound p r d) :
    ∃ q, Tracks bs start bound q (r.renormTurns bs k) (Doubling.turn (spanByte bs start bound) k d) := by
  induction k generalizing p r d with
  | zero => exact ⟨p, h⟩
  | succ k ih =>
    rw [doubling_turn_succ, h.range, Reader.renormTurns]
    split
    · next hrange =>
      obtain ⟨q, hq⟩ := h.turn hrange
      exact ih hq
    · exact ⟨p, h⟩

/-! ### One decode -/

theorem mul_256_eq {b : Nat} (sp : Nat) (hb : b ≤ 7) : sp * 256 = sp * 2 ^ b * 2 ^ (8 - b) := by
  rw [Nat.mul_assoc, ← Nat.pow_add, show b + (8 - b) = 8 by omega]

/-- A number below `sp` parts of `2 ^ b` is below `sp` parts of 256 eight turns later, whatever comes in below it. -/
theorem lt_split_iff {v sp b e : Nat} (hb : b ≤ 7) (he : e < 2 ^ (8 - b)) :
    v * 2 ^ (8 - b) + e < sp * 256 ↔ v < sp * 2 ^ b := by
  rw [mul_256_eq sp hb]
  constructor
  · intro h
    exact Nat.lt_of_mul_lt_mul_right (Nat.lt_of_le_of_lt (Nat.le_add_right _ _) h)
  · intro h
    calc v * 2 ^ (8 - b) + e < (v + 1) * 2 ^ (8 - b) := by rw [Nat.succ_mul]; omega
      _ ≤ sp * 2 ^ b * 2 ^ (8 - b) := Nat.mul_le_mul_right _ h

theorem lookahead_lt (bs : Nat → Byte) (start bound p b : Nat) : lookahead bs start bound p b < 2 ^ (8 - b) := by
  unfold lookahead
  split
  · next hb => rw [hb]; exact spanByte_lt bs start bound p
  · exact Nat.pow_pos (by omega)

/-- The doubling reader compares at bit 8 what the window reader compares at `bits_left`. -/
theorem Tracks.value_lt_iff (h : Tracks bs start bound p r d) (sp : Nat) : d.value < sp * 256 ↔ ¬ sp ≤ r.window := by
  rw [h.value, lt_split_iff h.below.1 (lookahead_lt ..), le_window_iff, Nat.not_le]

/-- The branch leaves the two readers in step. -/
theorem Tracks.branch_zero (h : Tracks bs start bound p r d) (h2 : 2 ≤ r.range.toNat) (hp : prob ≤ 255)
    (hbit : ¬ split r.range.toNat prob ≤ r.window) :
    Tracks bs start bound p (r.branch prob) { d with range := split r.range.toNat prob } := by
  have hrange := branch_range h2 hp
  have hval := branch_value r prob
  rw [if_neg hbit] at hrange hval
  refine ⟨branch_below h2 hp h.below, h.taken.of_same (branch_bound r prob) (branch_cursor r prob), hrange.symm,
    ?_, ?_, ?_⟩
  · rw [branch_bitsLeft]; exact h.turns
  · rw [branch_bitsLeft]; exact h.pos
  · rw [branch_bitsLeft, hval]; exact h.value

theorem Tracks.branch_one (h : Tracks bs start bound p r d) (h2 : 2 ≤ r.range.toNat) (hp : prob ≤ 255)
    (hbit : split r.range.toNat prob ≤ r.window) :
    Tracks bs start bound p (r.branch prob)
      { d with
        range := d.range - split r.range.toNat prob
        value := d.value - split r.range.toNat prob * 256 } := by
  have hrange := branch_range h2 hp
  have hval := branch_value r prob
  rw [if_pos hbit] at hrange hval
  refine ⟨branch_below h2 hp h.below, h.taken.of_same (branch_bound r prob) (branch_cursor r prob), ?_, ?_, ?_, ?_⟩
  · rw [hrange]
    show d.range - _ = _
    rw [h.range]
  · rw [branch_bitsLeft]; exact h.turns
  · rw [branch_bitsLeft]; exact h.pos
  · rw [branch_bitsLeft, hval]
    show d.value - _ = _
    have hle := Nat.mul_le_mul_right (2 ^ (8 - r.bitsLeft.toNat)) (le_window_iff.1 hbit)
    rw [h.value, mul_256_eq _ h.below.1, Nat.sub_mul]
    omega

/-- One decode: the same bit, and readers in step after it. -/
theorem Tracks.bit (h : Tracks bs start bound p r d) (h2 : 2 ≤ r.range.toNat) (hp : prob ≤ 255) :
    (Doubling.bit (spanByte bs start bound) prob d).1 = (r.bit prob).toNat ∧
      ∃ q, Tracks bs start bound q (r.afterBit bs prob) (Doubling.bit (spanByte bs start bound) prob d).2 := by
  have hsplit : 1 + (d.range - 1) * prob / 256 = split r.range.toNat prob := by rw [h.range]; rfl
  have hiff := h.value_lt_iff (split r.range.toNat prob)
  simp only [Doubling.bit, hsplit]
  by_cases hbit : split r.range.toNat prob ≤ r.window
  · rw [if_neg (by rwa [hiff, not_not]), bit_eq_true_iff.2 hbit]
    exact ⟨rfl, (h.branch_one h2 hp hbit).turns_of_fuel 7⟩
  · rw [if_pos (hiff.2 hbit), Bool.eq_false_iff.2 (bit_eq_true_iff.not.2 hbit)]
    exact ⟨rfl, (h.branch_zero h2 hp hbit).turns_of_fuel 7⟩

theorem afterBit_range_ge (h2 : 2 ≤ r.range.toNat) (hp : prob ≤ 255) (h7 : r.bitsLeft.toNat ≤ 7) :
    128 ≤ (r.afterBit bs prob).range.toNat := by
  obtain ⟨k, -, -, hge, hrange, -⟩ := afterBit_fields (bs := bs) h2 hp h7
  rwa [hrange]

/-! ### A run (R114) -/

/-- `BR.START` opens the two readers in step where the first byte is not 0xFF. -/
theorem start_tracks {start : Word} (h : spanByte bs start.toNat r.bound.toNat 0 ≠ 255) :
    Tracks bs start.toNat r.bound.toNat 1 (r.start bs start)
      (Doubling.start (spanByte bs start.toNat r.bound.toNat)) := by
  have hopen : ({ r with cursor := start } : Reader).hasTaken start.toNat r.bound.toNat 0 := by
    refine ⟨rfl, ?_⟩
    show start.toNat = _
    omega
  have hbyte : start.toNat < r.bound.toNat → bs start.toNat ≠ 0xFF := fun hin he => by
    simp [spanByte, hin, he] at h
  have hbits : (r.start bs start).bitsLeft.toNat = 0 := rfl
  refine ⟨start_below hbyte, hopen.fetch rfl rfl, rfl, by rw [hbits]; rfl, by rw [hbits]; rfl, ?_⟩
  rw [hbits]
  show _ = ((({ r with cursor := start } : Reader).fetchByte bs).setWidth 32).toNat * 2 ^ 8 + _
  rw [BitVec.toNat_setWidth, hopen.fetchByte]
  have hlt := spanByte_lt bs start.toNat r.bound.toNat 0
  rw [Nat.mod_eq_of_lt (by omega)]
  rfl

/-- From readers in step, `BR.GETBIT` answers the bits and passes through the ranges of the doubling reader. -/
theorem getbitRun_eq {rid : BitVec 4} (hr : rid.toNat < 9) (probs : List Byte) {s : State}
    (hv : (s.reader ⟨rid.toNat, hr⟩).valid = true) (h2 : 2 ≤ (s.reader ⟨rid.toNat, hr⟩).range.toNat)
    (h : Tracks s.bsByte start bound p (s.reader ⟨rid.toNat, hr⟩) d) :
    getbitRun rid hr probs s = some (Doubling.run (spanByte s.bsByte start bound) probs d) := by
  induction probs generalizing s d p with
  | nil => rfl
  | cons prob probs ih =>
    have hp : prob.toNat ≤ 255 := by omega
    obtain ⟨hbit, q, hq⟩ := h.bit h2 hp
    have hrange := afterBit_range_ge (bs := s.bsByte) h2 hp h.below.1
    obtain ⟨t, ht, hreader, hres, hbs⟩ := exists_exec_brGetbit prob hr hv
    have hrun : getbitRun rid hr probs t = _ :=
      ih (by rw [hreader, afterBit_valid, hv]) (by rw [hreader]; omega) (by rw [hbs, hreader]; exact hq)
    have hlast : (t.readers[rid.toNat]).range.toNat =
        (Doubling.bit (spanByte s.bsByte start bound) prob.toNat d).2.range :=
      (congrArg (·.range.toNat) hreader).trans hq.range.symm
    simp only [getbitRun, ht, hrun, hbs, hres, hlast, bitWord_toNat, Doubling.run, hbit, Option.map_some]

/-- Settles O30: `BR.START` opens the readers in step, and they stay so. -/
theorem doublingReaderDecodesTheSameBits : Obligations.DoublingReaderDecodesTheSameBits := by
  intro s rid start probs hr hstart hbyte
  obtain ⟨t, ht, hreader, hbs⟩ := exists_exec_brStart hr hstart
  refine ⟨t, ht, ?_⟩
  rw [← hbs] at hreader hbyte ⊢
  refine getbitRun_eq hr probs (p := 1) ?_ ?_ ?_
  · rw [hreader]; rfl
  · rw [hreader]; exact (by decide : 2 ≤ (255 : Byte).toNat)
  · rw [hreader]; exact start_tracks hbyte

end Sys2Proof.Machine
end

section
/-! No fault depends on data (spec/60_exceptions.md R246, R247; spec/40_boolreader.md R113): for each shared operation,
the cause it answers as a function of its operands, the sizes, `STRIDE` and the `valid` bits. -/

namespace Sys2Proof.Machine

variable {s t s' t' : State} {w : Command} {i : Instr}

/-- The cause in the response port, if it holds one (R76). -/
def State.causeAnswered (s : State) : Option Cause :=
  match s.resp with
  | some (.err c) => some c
  | _ => none

theorem State.causeAnswered_eq_some_iff {c : Cause} : s.causeAnswered = some c ↔ s.resp = some (.err c) := by
  unfold State.causeAnswered
  split
  · next c' h => simp [h]
  · next h => simpa using h c

@[simp] theorem State.causeAnswered_respond (s : State) (d : Word) : (s.respond d).causeAnswered = none := rfl

@[simp] theorem State.causeAnswered_answer (s : State) (v : Word) : (s.answer v).causeAnswered = none := rfl

@[simp] theorem State.causeAnswered_raise (c : Cause) (w : Command) (s : State) :
    (raise c w s).causeAnswered = some c :=
  State.causeAnswered_eq_some_iff.2 (raise_resp ..)

/-! ### The cause of each operation -/

theorem predictBlock_cause {n wd : Nat} {p : Predictor} {A : Int} (h : predictBlock n wd p A w s = .next t) :
    t.causeAnswered = if inSpace s.params.smSize (ipFootprint n wd A s.pitch) then none else some .addressRange := by
  rcases predictBlock_cases h with ⟨hfits, rfl⟩ | ⟨hfits, rfl⟩
  all_goals simp [hfits]

theorem transformCoeffs_cause {f : (Nat → Int) → Nat → Int} {src dst : Nat}
    (h : transformCoeffs f src dst w s = .next t) :
    t.causeAnswered =
      if src + 15 < s.params.cmWords ∧ dst + 240 < s.params.cmWords then none else some .addressRange := by
  rcases transformCoeffs_cases h with ⟨hfits, rfl⟩ | ⟨hfits, rfl⟩
  · rw [if_pos hfits, State.causeAnswered_respond]
  · rw [if_neg hfits, State.causeAnswered_raise]

theorem addResidual_cause {f : (Nat → Int) → Nat → Int} {src : Nat} {A : Int}
    (h : addResidual f src A w s = .next t) :
    t.causeAnswered =
      if src + 15 < s.params.cmWords ∧ blockAddr A s.pitch 3 3 < s.params.smSize then none else some .addressRange := by
  rcases addResidual_cases h with ⟨hfits, rfl⟩ | ⟨hfits, rfl⟩
  · rw [if_pos hfits, State.causeAnswered_respond]
  · rw [if_neg hfits, State.causeAnswered_raise]

/-- The range check comes before the look at `LFP.limit` (R194). -/
theorem filterEdge_cause {reach n : Nat} {line : LineFilter} {dir : Dir} {A : Int}
    (h : filterEdge reach n line dir A w s = .next t) :
    t.causeAnswered = if edgeInSpace reach n dir A s.pitch s.params.smSize then none else some .addressRange := by
  rcases filterEdge_cases h with ⟨hfits, -, rfl⟩ | ⟨hfits, -, rfl⟩ | ⟨hfits, rfl⟩
  all_goals simp [hfits]

theorem openReader_cause {rid : BitVec 4} {addr : Word} {f : Reader → Reader}
    (h : openReader rid addr w f s = .next t) :
    t.causeAnswered =
      if rid.toNat < 9 then if addr.toNat ≤ s.params.bsSize then none else some .addressRange
      else some .reservedField := by
  rcases openReader_cases h with ⟨hr, haddr, rfl⟩ | ⟨hr, rfl⟩ | ⟨hr, haddr, rfl⟩
  · rw [if_pos hr, if_pos haddr, State.causeAnswered_respond]
  · rw [if_neg (Nat.not_lt.2 hr), State.causeAnswered_raise]
  · rw [if_pos hr, if_neg (Nat.not_le.2 haddr), State.causeAnswered_raise]

theorem decodeWith_cause {rid : BitVec 4} {ok : Bool} {f : Reader → Word × Reader}
    (h : decodeWith rid ok w f s = .next t) :
    t.causeAnswered =
      if hr : rid.toNat < 9 then
        if ok then if (s.reader ⟨rid.toNat, hr⟩).valid then none else some .readerInvalid else some .reservedField
      else some .reservedField := by
  rcases decodeWith_cases h with ⟨hr, hok, hv, rfl⟩ | ⟨hbad, rfl⟩ | ⟨hr, hok, hv, rfl⟩
  · simp [hr, hok, hv]
  · rcases hbad with hr | hok
    · simp [Nat.not_lt.2 hr]
    · simp [hok]
  · simp [hr, hok, hv]

/-- Whether `SYS.WRC` has a register for a value depends on the number and the value only (R223). -/
theorem writeControlReg_isNone_congr (s s' : State) (n : Half) (v : Word) :
    (s'.writeControlReg n v).isNone = (s.writeControlReg n v).isNone := by
  unfold State.writeControlReg
  split
  · split <;> rfl
  · split <;> rfl
  · rfl

theorem execSysRdc_cause {n : Half} (h : execSysRdc n s = .next t) :
    t.causeAnswered = if (ControlReg.ofNumber n.toNat).isNone then some .controlRegister else none := by
  rcases execSysRdc_cases h with ⟨c, hc, rfl⟩ | ⟨hc, rfl⟩
  all_goals simp [hc]

theorem execSysWrc_cause {n : Half} {v : Word} (h : execSysWrc n v s = .next t) :
    t.causeAnswered = if (s.writeControlReg n v).isNone then some .controlRegister else none := by
  rcases execSysWrc_cases h with ⟨u, hu, rfl⟩ | ⟨hu, rfl⟩
  all_goals simp [hu]

theorem execMemLdb_cause {a : Word} (h : execMemLdb a s = .next t) :
    t.causeAnswered = if a.toNat < s.params.smSize then none else some .addressRange := by
  rcases execMemLdb_cases h with ⟨ha, rfl⟩ | ⟨ha, rfl⟩
  all_goals simp [ha]

theorem execMemStb_cause {v : Byte} {a : Word} (h : execMemStb v a s = .next t) :
    t.causeAnswered = if a.toNat < s.params.smSize then none else some .addressRange := by
  rcases execMemStb_cases h with ⟨ha, rfl⟩ | ⟨ha, rfl⟩
  all_goals simp [ha]

theorem execMemLdc_cause {k : Word} (h : execMemLdc k s = .next t) :
    t.causeAnswered = if k.toNat < s.params.cmWords then none else some .addressRange := by
  rcases execMemLdc_cases h with ⟨hk, rfl⟩ | ⟨hk, rfl⟩
  all_goals simp [hk]

theorem execMemStc_cause {v : Half} {k : Word} (h : execMemStc v k s = .next t) :
    t.causeAnswered = if k.toNat < s.params.cmWords then none else some .addressRange := by
  rcases execMemStc_cases h with ⟨hk, rfl⟩ | ⟨hk, rfl⟩
  all_goals simp [hk]

/-! ### Two states that differ in data only -/

/-- The sizes, `STRIDE` and the `valid` bits of two states agree: all that a fault may depend on. -/
structure SameChecks (s s' : State) : Prop where
  params : s'.params = s.params
  pitch : s'.pitch = s.pitch
  valid : ∀ r, (s'.reader r).valid = (s.reader r).valid

/-- Such states answer each command with one cause, or both with none. -/
theorem exec_cause_agree (hs : SameChecks s s') (h : exec i s = .next t) (h' : exec i s' = .next t') :
    t'.causeAnswered = t.causeAnswered := by
  obtain ⟨hparams, hpitch, hvalid⟩ := hs
  unfold exec at h h'
  cases i with
  | nop | sysReset | lfSetup level sharpness => cases h; cases h'; rfl
  | sysRdc n => rw [execSysRdc_cause h', execSysRdc_cause h]
  | sysWrc n v => rw [execSysWrc_cause h', execSysWrc_cause h, writeControlReg_isNone_congr s s']
  | memLdb addr => rw [execMemLdb_cause h', execMemLdb_cause h, hparams]
  | memStb v addr => rw [execMemStb_cause h', execMemStb_cause h, hparams]
  | memLdc idx => rw [execMemLdc_cause h', execMemLdc_cause h, hparams]
  | memStc v idx => rw [execMemStc_cause h', execMemStc_cause h, hparams]
  | brSetend rid bound | brStart rid start => rw [openReader_cause h', openReader_cause h, hparams]
  | brGetbit rid prob | brBool rid | brValue rid n | brSigned rid n =>
    simp only [decodeWith_cause h', decodeWith_cause h, hvalid]
  | xfIwht src dst => rw [transformCoeffs_cause h', transformCoeffs_cause h, hparams]
  | xfIdctadd src A => rw [addResidual_cause h', addResidual_cause h, hparams, hpitch]
  | ip4Dc A | ip4Tm A | ip4Ve A | ip4He A | ip4Ld A | ip4Rd A | ip4Vr A | ip4Vl A | ip4Hd A | ip4Hu A =>
    rw [predictBlock_cause h', predictBlock_cause h, hparams, hpitch]
  | ip16Dc notop noleft A | ip16V A | ip16H A | ip16Tm A =>
    rw [predictBlock_cause h', predictBlock_cause h, hparams, hpitch]
  | ip8Dc notop noleft A | ip8V A | ip8H A | ip8Tm A =>
    rw [predictBlock_cause h', predictBlock_cause h, hparams, hpitch]
  | lfSmb dir A | lfSin dir A | lfNmb dir n A | lfNin dir n A =>
    rw [filterEdge_cause h', filterEdge_cause h, hparams, hpitch]

/-- Settles O53: the cause answered is the same, command by command. -/
theorem noFaultDependsOnData : Obligations.NoFaultDependsOnData := by
  intro i s s' t t' hparams hstride hvalid h h' c
  have hagree := exec_cause_agree ⟨hparams, by rw [State.pitch, State.pitch, hstride], hvalid⟩ h h'
  rw [← State.causeAnswered_eq_some_iff, ← State.causeAnswered_eq_some_iff, hagree]

end Sys2Proof.Machine
end

section
/-! An intra prediction command (spec/41_intra_prediction.md R131, R132): the footprint check, the block left in SM, and
that a predictor whose values fit a sample is what the command writes. -/

namespace Sys2Proof.Machine

open Sys2Proof.Claims

/-! ### Values that fit a sample (R9, R10) -/

/-- A number that 8 bits hold unchanged. -/
def isSample (v : Int) : Prop := 0 ≤ v ∧ v ≤ 255

theorem isSample_sample (s : State) (a : Int) : isSample (s.sample a) := ⟨sample_nonneg s a, sample_le s a⟩

theorem toNat_ofInt_of_isSample {v : Int} (h : isSample v) : ((BitVec.ofInt 8 v).toNat : Int) = v :=
  toNat_ofInt_sample h.1 h.2

theorem clip255_eq_clamp (v : Int) : clip255 v = clamp v := by
  unfold clip255 clamp
  omega

theorem isSample_clip255 (v : Int) : isSample (clip255 v) := by
  unfold isSample clip255
  omega

theorem isSample_asr {v : Int} {k : Nat} (h0 : 0 ≤ v) (h1 : v < 256 * 2 ^ k) : isSample (asr v k) := by
  have hpos : (0 : Int) < 2 ^ k := by positivity
  have hlt : v / 2 ^ k < 256 := Int.ediv_lt_of_lt_mul hpos h1
  exact ⟨Int.ediv_nonneg h0 hpos.le, Int.le_of_lt_add_one hlt⟩

theorem avg2_eq_mean2 : avg2 = mean2 := rfl

theorem avg3_eq_mean3 : avg3 = mean3 := rfl

@[simp] theorem isSample_avg2 {a b : Int} (ha : isSample a) (hb : isSample b) : isSample (avg2 a b) := by
  unfold isSample at ha hb
  exact isSample_asr (by omega) (by omega)

@[simp] theorem isSample_avg3 {a b c : Int} (ha : isSample a) (hb : isSample b) (hc : isSample c) :
    isSample (avg3 a b c) := by
  unfold isSample at ha hb hc
  exact isSample_asr (by omega) (by omega)

/-- Beyond the end of the list stands 0, which fits too. -/
theorem isSample_getD {l : List Int} (h : ∀ v ∈ l, isSample v) (k : Nat) : isSample (l.getD k 0) := by
  rcases Nat.lt_or_ge k l.length with hk | hk
  · rw [List.getD_eq_getElem _ _ hk]
    exact h _ (List.getElem_mem hk)
  · rw [List.getD_eq_default _ _ hk]
    exact ⟨le_rfl, by decide⟩

theorem isSample_grid {rows : List (List Int)} (h : ∀ row ∈ rows, ∀ v ∈ row, isSample v) (x y : Nat) :
    isSample (grid rows x y) := by
  refine isSample_getD (fun v hv => ?_) x
  rcases Nat.lt_or_ge y rows.length with hy | hy
  · rw [List.getD_eq_getElem _ _ hy] at hv
    exact h _ (List.getElem_mem hy) v hv
  · rw [List.getD_eq_default _ _ hy] at hv
    exact absurd hv List.not_mem_nil

theorem sumOf_succ (n : Nat) (f : Nat → Int) : sumOf (n + 1) f = sumOf n f + f n := by
  simp [sumOf, List.range_succ]

theorem sumOf_four (f : Nat → Int) : sumOf 4 f = f 0 + f 1 + f 2 + f 3 := by
  show f 0 + (f 1 + (f 2 + (f 3 + 0))) = f 0 + f 1 + f 2 + f 3
  ring

theorem sumOf_bounds {f : Nat → Int} (h : ∀ k, isSample (f k)) (n : Nat) : 0 ≤ sumOf n f ∧ sumOf n f ≤ 255 * n := by
  induction n with
  | zero => exact ⟨le_rfl, le_rfl⟩
  | succ n ih =>
    obtain ⟨h0, h255⟩ := h n
    rw [sumOf_succ]
    push_cast
    omega

/-! ### A block in SM (R61, R132) -/

section Block

variable {n A S : Nat} {f g : Nat → Nat → Int} {s : State}

theorem holdsBlock_writeSamples (hf : ∀ x y, isSample (f x y)) :
    holdsBlock n A S f s (s.writeSamples (blockWrites n A S f)).sm := by
  refine ⟨fun a ha => smByte_block_outside s n A S f a ha, fun x hx y hy hlast => ?_⟩
  have hbyte := smByte_block_inside s A S f hx hy hlast
  calc (((s.writeSamples (blockWrites n A S f)).smByte (A + y * S + x)).toNat : Int)
      = ((BitVec.ofInt 8 (f x y)).toNat : Int) := by rw [hbyte]
    _ = f x y := toNat_ofInt_of_isSample (hf x y)

/-- Only the positions inside the block count. -/
theorem holdsBlock_congr {m : Mem 8} (hfg : ∀ x < n, ∀ y < n, f x y = g x y) (h : holdsBlock n A S f s m) :
    holdsBlock n A S g s m := by
  obtain ⟨houtside, hinside⟩ := h
  exact ⟨houtside, fun x hx y hy hlast => (hinside x hx y hy hlast).trans (hfg x hx y hy)⟩

end Block

/-! ### An IP command (R131, R132) -/

section Command

variable {n wd : Nat} {p : Predictor} {mk : Word → Instr} {A : Word} {w : Command} {s : State}

theorem inSpace_ipFootprint_iff :
    inSpace s.params.smSize (ipFootprint n wd (addrOf A) s.pitch) = true ↔ predictionFits n wd A s := by
  rw [inSpace_iff]
  constructor
  · intro h
    exact ⟨fun k hk => h _ (mem_ipFootprint.2 (.inl ⟨k, by omega, rfl⟩)),
      fun y hy k hk => h _ (mem_ipFootprint.2 (.inr ⟨y, hy, k, by omega, rfl⟩))⟩
  · rintro ⟨hcontext, hblock⟩ a ha
    rcases mem_ipFootprint.1 ha with ⟨k, hk, rfl⟩ | ⟨y, hy, k, hk, rfl⟩
    · exact hcontext k (by omega)
    · exact hblock y hy k (by omega)

theorem predictBlock_of_fits (h : predictionFits n wd A s) :
    predictBlock n wd p (addrOf A) w s =
      .next ((s.writeSamples (blockWrites n A.toNat s.stride.toNat
        (p (s.corner (addrOf A)) (s.top (addrOf A)) (s.left (addrOf A))))).respond 0) :=
  if_pos (inSpace_ipFootprint_iff.2 h)

theorem predictBlock_of_not_fits (h : ¬ predictionFits n wd A s) :
    predictBlock n wd p (addrOf A) w s = .next (faulted s .addressRange w) := by
  rw [← raise_eq_faulted]
  exact if_neg fun hin => h (inSpace_ipFootprint_iff.1 hin)

/-- From samples the predictor makes samples, so that storing its values in 8 bits loses nothing. -/
def Predictor.bounded (p : Predictor) : Prop :=
  ∀ X T L, isSample X → (∀ x, isSample (T x)) → (∀ y, isSample (L y)) → ∀ x y, isSample (p X T L x y)

/-- An IP command does what the formula `P` says when its engine's predictor is bounded and is `P` on the block. -/
theorem predicts_of_bounded {P : Predictor} (hp : p.bounded)
    (hexec : ∀ A s, exec (mk A) s = predictBlock n wd p (addrOf A) (encode (mk A)) s)
    (hP : ∀ X T L, ∀ x < n, ∀ y < n, p X T L x y = P X T L x y) : predicts n wd mk P := by
  refine fun s A => ⟨fun hfits => ?_, fun hfits => ?_⟩
  · refine ⟨_, (hexec A s).trans (predictBlock_of_fits hfits), ?_⟩
    refine holdsBlock_congr (hP _ _ _) (holdsBlock_writeSamples (hp _ _ _ ?_ ?_ ?_))
    · exact isSample_sample s _
    · exact fun _ => isSample_sample s _
    · exact fun _ => isSample_sample s _
  · exact (hexec A s).trans (predictBlock_of_not_fits hfits)

end Command

end Sys2Proof.Machine
end

section
/-! The predictors of intra prediction mode by mode (spec/41_intra_prediction.md R135 to R153): each makes samples from
samples and is the formula of its rule. -/

namespace Sys2Proof.Machine

open Sys2Proof.Claims

/-! ### TM (R136, R149, R153) -/

theorem predTm_bounded : Predictor.bounded predTm := fun _ _ _ _ _ _ _ _ => isSample_clip255 _

theorem predTm_eq (X : Int) (T L : Nat → Int) (x y : Nat) : predTm X T L x y = clamp (T x + L y - X) :=
  clip255_eq_clamp _

/-- Settles O35: the three sizes share one predictor. -/
theorem ipTmIsTheGradient : Obligations.IpTmIsTheGradient :=
  ⟨predicts_of_bounded predTm_bounded (fun _ _ => rfl) fun X T L x _ y _ => predTm_eq X T L x y,
    predicts_of_bounded predTm_bounded (fun _ _ => rfl) fun X T L x _ y _ => predTm_eq X T L x y,
    predicts_of_bounded predTm_bounded (fun _ _ => rfl) fun X T L x _ y _ => predTm_eq X T L x y⟩

/-! ### DC of 16×16 and 8×8 blocks (R146, R150) -/

/-- A rounded average of `2^k` or `2^(k+1)` samples is a sample. -/
theorem predDc_bounded (k : Nat) (notop noleft : Bool) : Predictor.bounded (predDc k notop noleft) := by
  intro X T L _ hT hL x y
  obtain ⟨hT0, hT255⟩ := sumOf_bounds hT (2 ^ k)
  obtain ⟨hL0, hL255⟩ := sumOf_bounds hL (2 ^ k)
  have hn : 0 < 2 ^ k := Nat.two_pow_pos k
  have hcast : (2 : Int) ^ k = ((2 ^ k : Nat) : Int) := by push_cast; rfl
  cases notop <;> cases noleft
  case false.false =>
    refine isSample_asr (by omega) ?_
    rw [pow_succ, hcast]
    omega
  case true.false => exact isSample_asr (by omega) (by rw [hcast]; omega)
  case false.true => exact isSample_asr (by omega) (by rw [hcast]; omega)
  case true.true => exact (by decide : 0 ≤ (128 : Int) ∧ (128 : Int) ≤ 255)

/-- Settles O36: with `k = 4`, `2 ^ k` is 16, and each flag setting of `predDc` is its formula. -/
theorem ip16DcAveragesTheEdgesPresent : Obligations.Ip16DcAveragesTheEdgesPresent :=
  ⟨predicts_of_bounded (predDc_bounded 4 false false) (fun _ _ => rfl) fun _ _ _ _ _ _ _ => rfl,
    predicts_of_bounded (predDc_bounded 4 true false) (fun _ _ => rfl) fun _ _ _ _ _ _ _ => rfl,
    predicts_of_bounded (predDc_bounded 4 false true) (fun _ _ => rfl) fun _ _ _ _ _ _ _ => rfl,
    predicts_of_bounded (predDc_bounded 4 true true) (fun _ _ => rfl) fun _ _ _ _ _ _ _ => rfl⟩

/-- Settles O37: with `k = 3`, `2 ^ k` is 8, and each flag setting of `predDc` is its formula. -/
theorem ip8DcAveragesTheEdgesPresent : Obligations.Ip8DcAveragesTheEdgesPresent :=
  ⟨predicts_of_bounded (predDc_bounded 3 false false) (fun _ _ => rfl) fun _ _ _ _ _ _ _ => rfl,
    predicts_of_bounded (predDc_bounded 3 true false) (fun _ _ => rfl) fun _ _ _ _ _ _ _ => rfl,
    predicts_of_bounded (predDc_bounded 3 false true) (fun _ _ => rfl) fun _ _ _ _ _ _ _ => rfl,
    predicts_of_bounded (predDc_bounded 3 true true) (fun _ _ => rfl) fun _ _ _ _ _ _ _ => rfl⟩

/-! ### V and H of 16×16 and 8×8 blocks (R147, R148, R151, R152) -/

theorem predV_bounded : Predictor.bounded predV := fun _ _ _ _ hT _ x _ => hT x

theorem predH_bounded : Predictor.bounded predH := fun _ _ _ _ _ hL _ y => hL y

/-- Settles O38: a copied sample is a sample. -/
theorem ipVAndHCopyTheEdge : Obligations.IpVAndHCopyTheEdge :=
  ⟨predicts_of_bounded predV_bounded (fun _ _ => rfl) fun _ _ _ _ _ _ _ => rfl,
    predicts_of_bounded predH_bounded (fun _ _ => rfl) fun _ _ _ _ _ _ _ => rfl,
    predicts_of_bounded predV_bounded (fun _ _ => rfl) fun _ _ _ _ _ _ _ => rfl,
    predicts_of_bounded predH_bounded (fun _ _ => rfl) fun _ _ _ _ _ _ _ => rfl⟩

/-! ### DC, VE and HE of 4×4 blocks (R135, R137, R138) -/

/-- The 4×4 mode is the `N = 4` case of the average the larger sizes take with both edges present. -/
theorem predDc4_eq_predDc : predDc4 = predDc 2 false false := by
  funext X T L x y
  calc predDc4 X T L x y
      = asr (sumOf 4 T + sumOf 4 L + 4) 3 := by simp only [predDc4, sumOf_four, add_assoc]
    _ = predDc 2 false false X T L x y := rfl

theorem predDc4_bounded : Predictor.bounded predDc4 := predDc4_eq_predDc ▸ predDc_bounded 2 false false

theorem predVe4_bounded : Predictor.bounded predVe4 :=
  fun _ _ _ hX hT _ x _ => isSample_getD (by simp [hX, hT]) x

theorem predHe4_bounded : Predictor.bounded predHe4 :=
  fun _ _ _ hX _ hL _ y => isSample_getD (by simp [hX, hL]) y

/-- Column 0 takes the corner, the others three neighbours of the top row (R137). -/
theorem predVe4_eq (X : Int) (T L : Nat → Int) {x : Nat} (hx : x < 4) (y : Nat) :
    predVe4 X T L x y = if x = 0 then mean3 X (T 0) (T 1) else mean3 (T (x - 1)) (T x) (T (x + 1)) := by
  rw [predVe4, avg3_eq_mean3]
  interval_cases x
  all_goals rfl

/-- Row 0 takes the corner and row 3 the last sample twice, the others three neighbours of the left column (R138). -/
theorem predHe4_eq (X : Int) (T L : Nat → Int) (x : Nat) {y : Nat} (hy : y < 4) :
    predHe4 X T L x y =
      if y = 0 then mean3 X (L 0) (L 1) else if y = 3 then mean3 (L 2) (L 3) (L 3)
      else mean3 (L (y - 1)) (L y) (L (y + 1)) := by
  rw [predHe4, avg3_eq_mean3]
  interval_cases y
  all_goals rfl

/-- Settles O39: the average, and the two smoothed edges entry by entry. -/
theorem ip4DcVeHe : Obligations.Ip4DcVeHe :=
  ⟨predicts_of_bounded predDc4_bounded (fun _ _ => rfl) fun _ _ _ _ _ _ _ => rfl,
    predicts_of_bounded predVe4_bounded (fun _ _ => rfl) fun X T L _ hx y _ => predVe4_eq X T L hx y,
    predicts_of_bounded predHe4_bounded (fun _ _ => rfl) fun X T L x _ _ hy => predHe4_eq X T L x hy⟩

/-! ### LD and RD of 4×4 blocks (R139, R140) -/

theorem predLd4_bounded : Predictor.bounded predLd4 :=
  fun _ _ _ _ hT _ x y => isSample_getD (by simp [hT]) (x + y)

theorem predRd4_bounded : Predictor.bounded predRd4 :=
  fun _ _ _ hX hT hL x y => isSample_getD (by simp [hX, hT, hL]) (x + 3 - y)

/-- The seven diagonals `x + y`, the last with the end of the top-right row twice (R139). -/
theorem predLd4_eq (X : Int) (T L : Nat → Int) {x y : Nat} (hx : x < 4) (hy : y < 4) :
    predLd4 X T L x y =
      if x + y = 6 then mean3 (T 6) (T 7) (T 7) else mean3 (T (x + y)) (T (x + y + 1)) (T (x + y + 2)) := by
  have hd : x + y < 7 := by omega
  rw [predLd4, avg3_eq_mean3]
  generalize x + y = d at hd
  interval_cases d
  all_goals rfl

/-- The seven diagonals `x − y`: through the corner, above it along the top row, below it along the left column
(R140). -/
theorem predRd4_eq (X : Int) (T L : Nat → Int) {x y : Nat} (hx : x < 4) (hy : y < 4) :
    predRd4 X T L x y =
      if x = y then mean3 (T 0) X (L 0)
      else if x = y + 1 then mean3 (T 1) (T 0) X
      else if y + 1 < x then mean3 (T (x - y)) (T (x - y - 1)) (T (x - y - 2))
      else if y = x + 1 then mean3 X (L 0) (L 1)
      else mean3 (L (y - x - 2)) (L (y - x - 1)) (L (y - x)) := by
  rw [predRd4, avg3_eq_mean3]
  interval_cases x
  all_goals
    interval_cases y
    all_goals rfl

/-- Settles O40: diagonal by diagonal. -/
theorem ip4LdRdFollowTheDiagonals : Obligations.Ip4LdRdFollowTheDiagonals :=
  ⟨predicts_of_bounded predLd4_bounded (fun _ _ => rfl) fun X T L _ hx _ hy => predLd4_eq X T L hx hy,
    predicts_of_bounded predRd4_bounded (fun _ _ => rfl) fun X T L _ hx _ hy => predRd4_eq X T L hx hy⟩

/-! ### VR, VL, HD and HU of 4×4 blocks (R141 to R144) -/

theorem grid_eq_rows4 : grid = rows4 := rfl

theorem predVr4_bounded : Predictor.bounded predVr4 :=
  fun _ _ _ hX hT hL x y => isSample_grid (by simp [hX, hT, hL]) x y

theorem predVl4_bounded : Predictor.bounded predVl4 :=
  fun _ _ _ _ hT _ x y => isSample_grid (by simp [hT]) x y

theorem predHd4_bounded : Predictor.bounded predHd4 :=
  fun _ _ _ hX hT hL x y => isSample_grid (by simp [hX, hT, hL]) x y

theorem predHu4_bounded : Predictor.bounded predHu4 :=
  fun _ _ _ _ _ hL x y => isSample_grid (by simp [hL]) x y

/-- Settles O41: both list their sixteen predictors row by row. -/
theorem ip4VrVl : Obligations.Ip4VrVl :=
  ⟨predicts_of_bounded predVr4_bounded (fun _ _ => rfl) fun _ _ _ _ _ _ _ => by
      rw [predVr4, avg2_eq_mean2, avg3_eq_mean3, grid_eq_rows4],
    predicts_of_bounded predVl4_bounded (fun _ _ => rfl) fun _ _ _ _ _ _ _ => by
      rw [predVl4, avg2_eq_mean2, avg3_eq_mean3, grid_eq_rows4]⟩

/-- Settles O42: both list their sixteen predictors row by row. -/
theorem ip4HdHu : Obligations.Ip4HdHu :=
  ⟨predicts_of_bounded predHd4_bounded (fun _ _ => rfl) fun _ _ _ _ _ _ _ => by
      rw [predHd4, avg2_eq_mean2, avg3_eq_mean3, grid_eq_rows4],
    predicts_of_bounded predHu4_bounded (fun _ _ => rfl) fun _ _ _ _ _ _ _ => by
      rw [predHu4, avg2_eq_mean2, avg3_eq_mean3, grid_eq_rows4]⟩

end Sys2Proof.Machine
end

section
/-! The formulas of the inverse transforms (spec/42_inverse_transforms.md R170, R171, R173, R174): the output at column
`x`, row `y` of each as two passes of one four-point sum, the range of the first and both on a single coefficient. -/

namespace Sys2Proof.Machine

open Sys2Proof.Claims

variable {inp e e' : Nat → Int} {j x y : Nat}

/-- An index of a 4×4 block is a row and a column. -/
theorem forall_lt_sixteen_of_block {P : Nat → Prop} (h : ∀ x < 4, ∀ y < 4, P (4 * y + x)) : ∀ k < 16, P k := by
  intro k hk
  have hP := h (k % 4) (by omega) (k / 4) (by omega)
  rwa [Nat.div_add_mod] at hP

/-- In a 4×4 block the index of column `x`, row `y` gives the row and the column back. -/
theorem block_index (hx : x < 4) : (4 * y + x) / 4 = y ∧ (4 * y + x) % 4 = x := by omega

/-! ### The four-point Hadamard sum (R170) -/

/-- Sum `j` of R170 on four inputs: the one step that both passes of the transform repeat. -/
def hadamard4 (j : Nat) (e : Nat → Int) : Int := ((List.range 4).map fun u => whtSign j u * e u).sum

@[simp] theorem hadamard4_zero (e : Nat → Int) : hadamard4 0 e = e 0 + e 1 + e 2 + e 3 := by
  simp [hadamard4, whtSign, List.range_succ]; ring

@[simp] theorem hadamard4_one (e : Nat → Int) : hadamard4 1 e = e 0 + e 1 - e 2 - e 3 := by
  simp [hadamard4, whtSign, List.range_succ]; ring

@[simp] theorem hadamard4_two (e : Nat → Int) : hadamard4 2 e = e 0 - e 1 - e 2 + e 3 := by
  simp [hadamard4, whtSign, List.range_succ]; ring

@[simp] theorem hadamard4_three (e : Nat → Int) : hadamard4 3 e = e 0 - e 1 + e 2 - e 3 := by
  simp [hadamard4, whtSign, List.range_succ]; ring

/-- Only the four inputs count. -/
theorem hadamard4_congr (h : ∀ u < 4, e u = e' u) : hadamard4 j e = hadamard4 j e' := by
  unfold hadamard4
  congr 1
  exact List.map_congr_left fun u hu => by rw [h u (List.mem_range.1 hu)]

/-- Every sum takes its first input with a plus sign. -/
theorem hadamard4_of_tail_zero (hj : j < 4) (h : ∀ u, 1 ≤ u → u < 4 → e u = 0) : hadamard4 j e = e 0 := by
  interval_cases j
  all_goals simp [h]

/-- Sum 0 has four plus signs, the others two of each: where the lower bound is the larger in size, it decides below
and the spread decides above. -/
theorem hadamard4_bounds {lo hi : Int} (hj : j < 4) (hsize : hi ≤ -lo) (h : ∀ u < 4, lo ≤ e u ∧ e u ≤ hi) :
    4 * lo ≤ hadamard4 j e ∧ hadamard4 j e ≤ 2 * (hi - lo) := by
  have h0 := h 0 (by decide)
  have h1 := h 1 (by decide)
  have h2 := h 2 (by decide)
  have h3 := h 3 (by decide)
  interval_cases j
  · rw [hadamard4_zero]; omega
  · rw [hadamard4_one]; omega
  · rw [hadamard4_two]; omega
  · rw [hadamard4_three]; omega

/-! ### IWHT (R170, R171) -/

theorem iwhtColumns_eq_hadamard4 (inp : Nat → Int) (hx : x < 4) (hy : y < 4) :
    iwhtColumns inp (4 * y + x) = hadamard4 y fun u => inp (4 * u + x) := by
  obtain ⟨hrow, hcolumn⟩ := block_index (y := y) hx
  simp only [iwhtColumns, hrow, hcolumn]
  interval_cases y
  all_goals
    simp only [hadamard4_zero, hadamard4_one, hadamard4_two, hadamard4_three, Nat.mul_zero, Nat.zero_add, Nat.mul_one,
      Nat.reduceMul]
    ring

/-- The bias enters with the first term of the row, which every sum adds. -/
theorem iwht_eq_hadamard4 (inp : Nat → Int) (hx : x < 4) :
    iwht inp (4 * y + x) = (hadamard4 x (fun v => iwhtColumns inp (4 * y + v)) + 3) / 8 := by
  obtain ⟨hrow, hcolumn⟩ := block_index (y := y) hx
  simp only [iwht, hrow, hcolumn, asr]
  interval_cases x
  all_goals
    simp only [hadamard4_zero, hadamard4_one, hadamard4_two, hadamard4_three, Nat.add_zero]
    congr 1
    ring

/-- The signs of R171(b)'s sum are those of a column sum times those of a row sum. -/
theorem whtSum_eq_hadamard4 (inp : Nat → Int) (x y : Nat) :
    whtSum inp x y = hadamard4 x fun v => hadamard4 y fun u => inp (4 * u + v) := by
  simp only [whtSum, hadamard4, List.range_succ, List.range_zero, List.nil_append, List.cons_append, List.map_cons,
    List.map_nil, List.sum_cons, List.sum_nil]
  ring

/-- R171(b): the two passes of R170 are the 4×4 Hadamard sum. -/
theorem iwht_eq_whtSum (inp : Nat → Int) (hx : x < 4) (hy : y < 4) :
    iwht inp (4 * y + x) = (whtSum inp x y + 3) / 8 := by
  rw [iwht_eq_hadamard4 inp hx, whtSum_eq_hadamard4, hadamard4_congr fun v hv => iwhtColumns_eq_hadamard4 inp hv hy]

theorem whtSum_of_tail_zero (h : ∀ k, 1 ≤ k → k < 16 → inp k = 0) (hx : x < 4) (hy : y < 4) :
    whtSum inp x y = inp 0 := by
  have hcolumn : ∀ v < 4, hadamard4 y (fun u => inp (4 * u + v)) = inp v := fun v hv =>
    calc hadamard4 y (fun u => inp (4 * u + v))
        = inp (4 * 0 + v) := hadamard4_of_tail_zero hy fun u _ _ => h _ (by omega) (by omega)
      _ = inp v := by rw [Nat.mul_zero, Nat.zero_add]
  rw [whtSum_eq_hadamard4, hadamard4_congr hcolumn]
  exact hadamard4_of_tail_zero hx fun v _ _ => h v (by omega) (by omega)

/-- The range of the sum for 16-bit inputs: the column pass stays within -131072..131070. -/
theorem whtSum_bounds (h : ∀ k < 16, -32768 ≤ inp k ∧ inp k ≤ 32767) (hx : x < 4) (hy : y < 4) :
    -524288 ≤ whtSum inp x y ∧ whtSum inp x y ≤ 524284 := by
  have hcolumn (v : Nat) (hv : v < 4) : -131072 ≤ hadamard4 y (fun u => inp (4 * u + v)) ∧
      hadamard4 y (fun u => inp (4 * u + v)) ≤ 131070 :=
    hadamard4_bounds hy (by decide) fun u hu => h _ (by omega)
  rw [whtSum_eq_hadamard4]
  exact hadamard4_bounds hx (by decide) hcolumn

/-- V32's alternating inputs, at the ends of the 16-bit range with the signs of output 3: eight plus and eight minus. -/
def iwhtPeakInput (k : Nat) : Int := if k % 2 = 0 then 32767 else -32768

theorem iwht_peak : iwht iwhtPeakInput 3 = 65535 := by decide

/-- Output 0 adds all sixteen inputs, so the least input at every index gives the least output (V32). -/
theorem iwht_trough : iwht (fun _ => -32768) 0 = -65536 := by decide

/-- Settles O32: both claims for all inputs are facts about the Hadamard sum. -/
theorem iwhtBroadcastAndRange : Obligations.IwhtBroadcastAndRange := by
  refine ⟨fun inp h => forall_lt_sixteen_of_block fun x hx y hy => ?_,
    fun inp h => forall_lt_sixteen_of_block fun x hx y hy => ?_,
    ⟨iwhtPeakInput, by decide, 3, by decide, iwht_peak⟩,
    ⟨fun _ => -32768, by decide, 0, by decide, iwht_trough⟩⟩
  · rw [iwht_eq_whtSum inp hx hy, whtSum_of_tail_zero h hx hy]
  · have hsum := whtSum_bounds h hx hy
    rw [iwht_eq_whtSum inp hx hy]
    omega

/-! ### IDCT (R173, R174) -/

theorem mul1_eq_scaleUp : mul1 = scaleUp := rfl

theorem mul2_eq_scaleDown : mul2 = scaleDown := rfl

theorem idctButterfly_eq_idctPass (e0 e1 e2 e3 : Int) (hj : j < 4) :
    idctButterfly e0 e1 e2 e3 j = (idctPass e0 e1 e2 e3).getD j 0 := by
  simp only [idctButterfly, idctPass, mul1_eq_scaleUp, mul2_eq_scaleDown]
  interval_cases j
  all_goals rfl

/-- A butterfly whose other inputs are zero passes its first input to every output. -/
theorem idctButterfly_of_tail_zero (e0 : Int) (j : Nat) : idctButterfly e0 0 0 0 j = e0 := by
  have h1 : mul1 0 = 0 := by decide
  have h2 : mul2 0 = 0 := by decide
  unfold idctButterfly
  split
  all_goals simp [h1, h2]

theorem idctColumns_eq (inp : Nat → Int) (i : Nat) (hj : j < 4) :
    idctColumns inp (4 * i + j) = idctButterfly (inp i) (inp (4 + i)) (inp (8 + i)) (inp (12 + i)) j := by
  obtain ⟨hrow, hcolumn⟩ := block_index (y := i) hj
  simp only [idctColumns, hrow, hcolumn]

/-- Row `y` of the second pass, on row `y` of the four columns of the first. -/
theorem idct_eq_butterfly (inp : Nat → Int) (hx : x < 4) :
    idct inp (4 * y + x) = idctButterfly (idctColumns inp (4 * 0 + y) + 4) (idctColumns inp (4 * 1 + y))
      (idctColumns inp (4 * 2 + y)) (idctColumns inp (4 * 3 + y)) x / 8 := by
  obtain ⟨hrow, hcolumn⟩ := block_index (y := y) hx
  simp only [idct, hrow, hcolumn, asr]
  norm_num

theorem idct_eq_idctResidual (inp : Nat → Int) (hx : x < 4) (hy : y < 4) :
    idct inp (4 * y + x) = idctResidual inp x y := by
  simp only [idct_eq_butterfly inp hx, idctColumns_eq inp _ hy, idctButterfly_eq_idctPass _ _ _ _ hx,
    idctButterfly_eq_idctPass _ _ _ _ hy]
  rfl

theorem idct_of_tail_zero (h : ∀ k, 1 ≤ k → k < 16 → inp k = 0) (hx : x < 4) (hy : y < 4) :
    idct inp (4 * y + x) = (inp 0 + 4) / 8 := by
  have hcolumn (i : Nat) (hi : i < 4) : idctColumns inp (4 * i + y) = inp i := by
    rw [idctColumns_eq inp i hy, h (4 + i) (by omega) (by omega), h (8 + i) (by omega) (by omega),
      h (12 + i) (by omega) (by omega), idctButterfly_of_tail_zero]
  rw [idct_eq_butterfly inp hx, hcolumn 0 (by decide), hcolumn 1 (by decide), hcolumn 2 (by decide),
    hcolumn 3 (by decide), h 1 (by decide) (by decide), h 2 (by decide) (by decide), h 3 (by decide) (by decide),
    idctButterfly_of_tail_zero]

/-- Settles O34: a zero coefficient leaves `4 / 8 = 0`. -/
theorem idctOfOneCoefficientIsFlat : Obligations.IdctOfOneCoefficientIsFlat := by
  intro inp h
  have hflat : ∀ k < 16, idct inp k = (inp 0 + 4) / 8 :=
    forall_lt_sixteen_of_block fun x hx y hy => idct_of_tail_zero h hx hy
  refine ⟨hflat, fun hzero k hk => ?_⟩
  rw [hflat k hk, hzero]
  decide

end Sys2Proof.Machine
end

section
/-! The XF commands (spec/42_inverse_transforms.md R172, R175, R176): the range check, the sixteen elements left in CM
and the block left in SM. -/

namespace Sys2Proof.Machine

open Sys2Proof.Claims

variable {f : (Nat → Int) → Nat → Int} {src : Nat} {w : Command} {s : State}

/-! ### Sixteen elements in CM (R172) -/

/-- The elements after the writes depend on CM alone. -/
@[simp] theorem cmElem_cm_writeCoeffs (s : State) (ws : List (Nat × Int)) (j : Nat) :
    ({ s with cm := (s.writeCoeffs ws).cm } : State).cmElem j = (s.writeCoeffs ws).cmElem j :=
  State.cmElem_congr rfl rfl j

/-- The writes of a transform: sixteen elements, 16 apart, from `dst` on. -/
abbrev transformWrites (dst : Nat) (out : Nat → Int) : List (Nat × Int) :=
  (List.range 16).map fun k => (dst + 16 * k, out k)

theorem cmElem_transformWrites_outside (s : State) {dst j : Nat} (out : Nat → Int)
    (h : ∀ k < 16, j ≠ dst + 16 * k) : (s.writeCoeffs (transformWrites dst out)).cmElem j = s.cmElem j := by
  refine State.cmElem_writeCoeffs_of_forall_ne s _ j fun p hp => ?_
  obtain ⟨k, hk, rfl⟩ := List.mem_map.1 hp
  exact (h k (List.mem_range.1 hk)).symm

/-- No later write of a transform meets an earlier one. -/
theorem cmElem_transformWrites_inside (s : State) (dst : Nat) {k : Nat} (out : Nat → Int) (hk : k < 16) :
    (s.writeCoeffs (transformWrites dst out)).cmElem (dst + 16 * k) = BitVec.ofInt 16 (out k) := by
  obtain ⟨before, after, hsplit⟩ := List.append_of_mem (List.mem_range.2 hk)
  have hlater : ∀ k' ∈ after, k < k' := by
    have hsorted := List.pairwise_lt_range (n := 16)
    rw [hsplit] at hsorted
    exact (List.pairwise_cons.1 (List.pairwise_append.1 hsorted).2.1).1
  rw [transformWrites, hsplit, List.map_append, List.map_cons]
  refine State.cmElem_writeCoeffs_last s _ _ _ _ fun p hp => ?_
  obtain ⟨k', hk', rfl⟩ := List.mem_map.1 hp
  have := hlater k' hk'
  show dst + 16 * k' ≠ dst + 16 * k
  omega

theorem transformCoeffs_of_fits {dst : Nat} (h : src + 15 < s.params.cmWords ∧ dst + 240 < s.params.cmWords) :
    transformCoeffs f src dst w s = .next ((s.writeCoeffs (transformWrites dst (f (s.coeffs src)))).respond 0) :=
  if_pos h

theorem transformCoeffs_of_not_fits {dst : Nat}
    (h : ¬ (src + 15 < s.params.cmWords ∧ dst + 240 < s.params.cmWords)) :
    transformCoeffs f src dst w s = .next (faulted s .addressRange w) := by
  rw [← raise_eq_faulted]
  exact if_neg h

/-- Settles O31: each element written is its Hadamard sum. -/
theorem xfIwhtStoresTheHadamardSums : Obligations.XfIwhtStoresTheHadamardSums := by
  refine fun s src dst => ⟨fun hfits => ?_, fun hout => transformCoeffs_of_not_fits (by omega)⟩
  refine ⟨(s.writeCoeffs (transformWrites dst.toNat (iwht (s.coeffs src.toNat)))).cm, transformCoeffs_of_fits hfits,
    fun x hx y hy => ?_, fun j hj => ?_⟩
  · have hsum : iwht (s.coeffs src.toNat) (4 * y + x) =
        (whtSum (fun k => (s.cmElem (src.toNat + k)).toInt) x y + 3) / 8 := iwht_eq_whtSum _ hx hy
    rw [cmElem_cm_writeCoeffs, cmElem_transformWrites_inside s _ _ (by omega), hsum]
  · rw [cmElem_cm_writeCoeffs, cmElem_transformWrites_outside s _ hj]

/-! ### A residual added to a block (R175, R176) -/

theorem blockAddr_natCast (A S x y : Nat) : blockAddr A S x y = ((A + y * S + x : Nat) : Int) := by
  push_cast
  rfl

/-- The samples of R175: the old sample plus the residual, clamped. -/
def reconstructed (f : (Nat → Int) → Nat → Int) (src : Nat) (A S : Int) (s : State) (x y : Nat) : Int :=
  clip255 (s.sample (blockAddr A S x y) + f (s.coeffs src) (4 * y + x))

theorem reconstructed_idct {x y : Nat} (src A S : Nat) (s : State) (hx : x < 4) (hy : y < 4) :
    reconstructed idct src A S s x y =
      clamp (smAt s ((A + y * S + x : Nat) : Int) + idctResidual (s.coeffs src) x y) := by
  rw [reconstructed, clip255_eq_clamp, blockAddr_natCast, idct_eq_idctResidual _ hx hy]
  rfl

/-- The last sample of the block is the one the range check looks at (R176). -/
theorem residualFits_iff (src : Nat) (A : Word) (s : State) :
    (src + 15 < s.params.cmWords ∧ blockAddr (addrOf A) s.pitch 3 3 < s.params.smSize) ↔
      src + 15 < s.params.cmWords ∧ A.toNat + 3 * s.stride.toNat + 3 < s.params.smSize := by
  rw [addrOf, State.pitch, blockAddr_natCast, Nat.cast_lt]

theorem addResidual_of_fits {A : Word}
    (h : src + 15 < s.params.cmWords ∧ A.toNat + 3 * s.stride.toNat + 3 < s.params.smSize) :
    addResidual f src (addrOf A) w s = .next ((s.writeSamples
      (blockWrites 4 A.toNat s.stride.toNat (reconstructed f src A.toNat s.stride.toNat s))).respond 0) :=
  if_pos ((residualFits_iff src A s).2 h)

theorem addResidual_of_not_fits {A : Word}
    (h : ¬ (src + 15 < s.params.cmWords ∧ A.toNat + 3 * s.stride.toNat + 3 < s.params.smSize)) :
    addResidual f src (addrOf A) w s = .next (faulted s .addressRange w) := by
  rw [← raise_eq_faulted]
  exact if_neg fun hin => h ((residualFits_iff src A s).1 hin)

/-- Settles O33: a clamped sum fits a sample, so the block holds what was computed. -/
theorem xfIdctaddAddsTheResidual : Obligations.XfIdctaddAddsTheResidual := by
  refine fun s src A => ⟨fun hfits => ?_, fun hout => addResidual_of_not_fits (by omega)⟩
  refine ⟨_, addResidual_of_fits hfits, ?_⟩
  exact holdsBlock_congr (fun x hx y hy => reconstructed_idct src.toNat A.toNat s.stride.toNat s hx hy)
    (holdsBlock_writeSamples fun x y => isSample_clip255 _)

end Sys2Proof.Machine
end

section
/-! The loop filter at one position (spec/43_loop_filter.md R195 to R204): the tests and kernels are those of the rules,
and what each kernel writes. -/

namespace Sys2Proof.Machine

open Sys2Proof.Claims

/-! ### Tests (R195, R196) -/

@[simp] theorem absInt_eq_abs (v : Int) : absInt v = |v| := by
  rw [absInt, abs_eq_max_neg]
  omega

theorem sclamp_eq_clampTo {lo hi : Int} (v : Int) (h : lo ≤ hi) : sclamp v lo hi = clampTo lo hi v := by
  unfold sclamp clampTo
  omega

theorem simpleOk_iff {E p1 p0 q0 q1 : Int} : simpleOk E p1 p0 q0 q1 = true ↔ passesSimple E p1 p0 q0 q1 := by
  simp [simpleOk, passesSimple, asr]

theorem normalOkTaps_iff {E I : Int} {t : Int → Int} : normalOkTaps E I t = true ↔ passesNormal E I t := by
  simp [normalOkTaps, normalOk, passesNormal, simpleOk_iff]

theorem highEdgeVariance_iff {H : Int} {t : Int → Int} :
    highEdgeVariance H (t (-2)) (t (-1)) (t 0) (t 1) = true ↔ highVariance H t := by
  simp [highEdgeVariance, highVariance]

/-! ### Kernels (R197 to R199) -/

theorem filt2_eq_kernel2 (t : Int → Int) : filt2 (t (-2)) (t (-1)) (t 0) (t 1) = kernel2 t := by
  simp [filt2, kernel2, asr, sclamp_eq_clampTo, clip255_eq_clamp]

theorem filt4_eq_kernel4 (t : Int → Int) : filt4 (t (-2)) (t (-1)) (t 0) (t 1) = kernel4 t := by
  simp [filt4, kernel4, asr, sclamp_eq_clampTo, clip255_eq_clamp]

theorem filt6_eq_kernel6 (t : Int → Int) :
    filt6 (t (-3)) (t (-2)) (t (-1)) (t 0) (t 1) (t 2) = kernel6 t := by
  simp [filt6, kernel6, asr, sclamp_eq_clampTo, clip255_eq_clamp]

/-- Writes of one position that can all be read back: no tap twice, and each value fits a sample. -/
structure ReadableWrites (writes : List (Int × Int)) : Prop where
  distinct : writes.Pairwise fun p q => p.1 ≠ q.1
  sample : ∀ p ∈ writes, isSample p.2

theorem isSample_clamp (v : Int) : isSample (clamp v) := clip255_eq_clamp v ▸ isSample_clip255 v

theorem readableWrites_nil : ReadableWrites [] := ⟨.nil, by simp⟩

theorem readableWrites_kernel2 (t : Int → Int) : ReadableWrites (kernel2 t) :=
  ⟨by simp [kernel2], by simp [kernel2, isSample_clamp]⟩

theorem readableWrites_kernel4 (t : Int → Int) : ReadableWrites (kernel4 t) :=
  ⟨by simp [kernel4], by simp [kernel4, isSample_clamp]⟩

theorem readableWrites_kernel6 (t : Int → Int) : ReadableWrites (kernel6 t) :=
  ⟨by simp [kernel6], by simp [kernel6, isSample_clamp]⟩

/-! ### Kernels on a flat line (R200(a)) -/

/-- Each tap written gets the value it holds. -/
def restatesTaps (t : Int → Int) (writes : List (Int × Int)) : Prop := ∀ p ∈ writes, p.2 = t p.1

/-- The taps `lo..hi` hold one value. -/
def flatTaps (lo hi : Int) (t : Int → Int) : Prop := ∀ j k, lo ≤ j → j ≤ hi → lo ≤ k → k ≤ hi → t j = t k

/-- Where the taps `lo..hi` are flat, every tap written gets the value it holds. -/
def keepsFlatLines (lo hi : Int) (line : LineFilter) : Prop :=
  ∀ t, (∀ j, isSample (t j)) → flatTaps lo hi t → restatesTaps t (line t)

theorem clamp_of_isSample {v : Int} (h : isSample v) : clamp v = v := by
  unfold isSample at h
  unfold clamp
  omega

theorem keepsFlatLines.mono {lo hi lo' hi' : Int} {line : LineFilter} (h : keepsFlatLines lo hi line) (hlo : lo' ≤ lo)
    (hhi : hi ≤ hi') : keepsFlatLines lo' hi' line := fun t hsample hflat => h t hsample fun j k hj hj' hk hk' =>
  hflat j k (hlo.trans hj) (hj'.trans hhi) (hlo.trans hk) (hk'.trans hhi)

theorem restatesTaps_nil (t : Int → Int) : restatesTaps t [] := by simp [restatesTaps]

/-- With no step across the edge the correction is 0. -/
theorem kernel2_keepsFlatLines : keepsFlatLines (-2) 1 kernel2 := by
  intro t hsample hflat
  simp [restatesTaps, kernel2, hflat (-2) 0, hflat (-1) 0, hflat 1 0, clampTo, clamp_of_isSample (hsample 0)]

theorem kernel4_keepsFlatLines : keepsFlatLines (-2) 1 kernel4 := by
  intro t hsample hflat
  simp [restatesTaps, kernel4, hflat (-2) 0, hflat (-1) 0, hflat 1 0, clampTo, clamp_of_isSample (hsample 0)]

theorem kernel6_keepsFlatLines : keepsFlatLines (-3) 2 kernel6 := by
  intro t hsample hflat
  simp [restatesTaps, kernel6, hflat (-3) 0, hflat (-2) 0, hflat (-1) 0, hflat 1 0, hflat 2 0, clampTo,
    clamp_of_isSample (hsample 0)]

/-! ### The line filters (R201 to R204) -/

section Line

variable {E I H : Int} {t : Int → Int} {writes : List (Int × Int)} {smooth : (Int → Int) → List (Int × Int)}

theorem simpleWrites_simpleLine (E : Int) (t : Int → Int) : simpleWrites E t (simpleLine E t) := by
  rw [simpleLine, filt2_eq_kernel2]
  exact ⟨fun h => if_pos (simpleOk_iff.2 h), fun h => if_neg fun hok => h (simpleOk_iff.1 hok)⟩

/-- The shape of both normal filters. -/
theorem normalWrites_ite (smooth : (Int → Int) → List (Int × Int)) (E I H : Int) (t : Int → Int) :
    normalWrites smooth E I H t (if normalOkTaps E I t then
      if highEdgeVariance H (t (-2)) (t (-1)) (t 0) (t 1) then kernel2 t else smooth t else []) := by
  refine ⟨fun ⟨hok, hhev⟩ => ?_, fun ⟨hok, hhev⟩ => ?_, fun hok => ?_⟩
  · rw [if_pos (normalOkTaps_iff.2 hok), if_pos (highEdgeVariance_iff.2 hhev)]
  · rw [if_pos (normalOkTaps_iff.2 hok), if_neg fun h => hhev (highEdgeVariance_iff.1 h)]
  · exact if_neg fun h => hok (normalOkTaps_iff.1 h)

theorem normalWrites_normalMbLine (E I H : Int) (t : Int → Int) :
    normalWrites kernel6 E I H t (normalMbLine E I H t) := by
  rw [normalMbLine, filt2_eq_kernel2, filt6_eq_kernel6]
  exact normalWrites_ite kernel6 E I H t

theorem normalWrites_normalInnerLine (E I H : Int) (t : Int → Int) :
    normalWrites kernel4 E I H t (normalInnerLine E I H t) := by
  rw [normalInnerLine, filt2_eq_kernel2, filt4_eq_kernel4]
  exact normalWrites_ite kernel4 E I H t

theorem simpleWrites_cases (h : simpleWrites E t writes) : writes = kernel2 t ∨ writes = [] := by
  obtain ⟨hpass, hfail⟩ := h
  exact (em _).imp hpass hfail

theorem normalWrites_cases (h : normalWrites smooth E I H t writes) :
    writes = kernel2 t ∨ writes = smooth t ∨ writes = [] := by
  obtain ⟨hsharp, hsmooth, hfail⟩ := h
  by_cases hok : passesNormal E I t
  · exact (em (highVariance H t)).imp (fun hhev => hsharp ⟨hok, hhev⟩) fun hhev => .inl (hsmooth ⟨hok, hhev⟩)
  · exact .inr (.inr (hfail hok))

theorem readableWrites_of_simpleWrites (h : simpleWrites E t writes) : ReadableWrites writes := by
  rcases simpleWrites_cases h with rfl | rfl
  · exact readableWrites_kernel2 t
  · exact readableWrites_nil

theorem readableWrites_of_normalWrites (hsmooth : ReadableWrites (smooth t)) (h : normalWrites smooth E I H t writes) :
    ReadableWrites writes := by
  rcases normalWrites_cases h with rfl | rfl | rfl
  · exact readableWrites_kernel2 t
  · exact hsmooth
  · exact readableWrites_nil

theorem simpleLine_keepsFlatLines (E : Int) : keepsFlatLines (-2) 1 (simpleLine E) := by
  intro t hsample hflat
  rcases simpleWrites_cases (simpleWrites_simpleLine E t) with h | h
  · exact h ▸ kernel2_keepsFlatLines t hsample hflat
  · exact h ▸ restatesTaps_nil t

/-- A normal filter keeps the flat lines that its smooth kernel keeps. -/
theorem keepsFlatLines_of_normalWrites {line : LineFilter} (hline : ∀ t, normalWrites smooth E I H t (line t))
    (hsmooth : keepsFlatLines (-4) 3 smooth) : keepsFlatLines (-4) 3 line := by
  intro t hsample hflat
  rcases normalWrites_cases (hline t) with h | h | h
  · exact h ▸ kernel2_keepsFlatLines.mono (by decide) (by decide) t hsample hflat
  · exact h ▸ hsmooth t hsample hflat
  · exact h ▸ restatesTaps_nil t

theorem normalMbLine_keepsFlatLines (E I H : Int) : keepsFlatLines (-4) 3 (normalMbLine E I H) :=
  keepsFlatLines_of_normalWrites (normalWrites_normalMbLine E I H) (kernel6_keepsFlatLines.mono (by decide) (by decide))

theorem normalInnerLine_keepsFlatLines (E I H : Int) : keepsFlatLines (-4) 3 (normalInnerLine E I H) :=
  keepsFlatLines_of_normalWrites (normalWrites_normalInnerLine E I H)
    (kernel4_keepsFlatLines.mono (by decide) (by decide))

end Line

end Sys2Proof.Machine
end

section
/-! The edge commands (spec/43_loop_filter.md R193, R194, R200): the range check, one position as writes to its taps,
and what every command that filters an edge by a given line filter does. -/

namespace Sys2Proof.Machine

open Sys2Proof.Claims

variable {reach n k : Nat} {line : LineFilter} {dir : Dir} {A : Word} {s t : State}

/-! ### Geometry (R193, R194) -/

theorem tapAddr_eq_tapAt (dir : Dir) (A : Word) (s : State) (k : Nat) (j : Int) :
    tapAddr dir (edgeBase dir (addrOf A) s.pitch k) s.pitch j = tapAt dir A.toNat s.stride.toNat k j := by
  cases dir <;> simp [tapAddr, edgeBase, tapAt, tapStep, walkStep, addrOf, State.pitch]

theorem edgeInSpace_iff (hn : 0 < n) :
    edgeInSpace reach n dir (addrOf A) s.pitch s.params.smSize = true ↔ edgeFits reach n dir A s := by
  have hlast : ((n - 1 : Nat) : Int) = (n : Int) - 1 := by omega
  cases dir <;> simp [edgeInSpace, edgeFits, tapAt, tapStep, walkStep, addrOf, State.pitch, hlast, sub_eq_add_neg]

theorem writesWithin.mono {lo hi lo' hi' : Int} (h : writesWithin line lo hi) (hlo : lo' ≤ lo) (hhi : hi ≤ hi') :
    writesWithin line lo' hi' := fun tap p hp => (h tap p hp).imp hlo.trans fun hp => hp.trans hhi

/-- An edge that fits has the taps that the range check counts on either side, at every position. -/
theorem tapAt_nonneg (hfits : edgeFits reach n dir A s) (hk : k < n) {j : Int} (hlo : -reach ≤ j) (hhi : j ≤ reach - 1) :
    0 ≤ tapAt dir A.toNat s.stride.toNat k j := by
  rw [← tapAddr_eq_tapAt]
  exact (tapAddr_inside (pitch_nonneg s) ((edgeInSpace_iff (by omega)).2 hfits) hk hlo (by omega)).1

theorem tapAt_injective (hstride : s.stride ≠ 0) (dir : Dir) (A : Word) (k : Nat) :
    Function.Injective (tapAt dir A.toNat s.stride.toNat k) := by
  have hpitch : 0 < s.pitch := by
    rw [State.pitch, Int.natCast_pos]
    exact Nat.pos_of_ne_zero fun h => hstride (BitVec.eq_of_toNat_eq h)
  intro j j' h
  rw [← tapAddr_eq_tapAt, ← tapAddr_eq_tapAt] at h
  exact tapAddr_injective hpitch h

/-! ### One position (R61) -/

/-- The taps of position `k`. -/
def State.taps (s : State) (dir : Dir) (A : Word) (k : Nat) : Int → Int :=
  fun j => smAt s (tapAt dir A.toNat s.stride.toNat k j)

theorem isSample_taps (s : State) (dir : Dir) (A : Word) (k : Nat) (j : Int) : isSample (s.taps dir A k j) :=
  isSample_sample s _

/-- Position `k` as writes to the addresses of its taps. -/
theorem filterPosition_eq (s : State) (line : LineFilter) (dir : Dir) (A : Word) (k : Nat) :
    s.filterPosition line dir (addrOf A) k =
      s.writeSamples ((line (s.taps dir A k)).map fun p => (tapAt dir A.toNat s.stride.toNat k p.1, p.2)) := by
  simp only [State.filterPosition, tapAddr_eq_tapAt]
  rfl

/-- A sample that is none of the taps written keeps its value. -/
theorem smByte_filterPosition_outside (hfits : edgeFits reach n dir A s) (hk : k < n)
    (hline : writesWithin line (-reach) (reach - 1)) {x : Nat}
    (hx : ∀ p ∈ line (s.taps dir A k), (x : Int) ≠ tapAt dir A.toNat s.stride.toNat k p.1) :
    (s.filterPosition line dir (addrOf A) k).smByte x = s.smByte x := by
  rw [filterPosition_eq]
  refine State.smByte_writeSamples_of_forall_ne s _ x fun q hq => ?_
  obtain ⟨p, hp, rfl⟩ := List.mem_map.1 hq
  obtain ⟨hlo, hhi⟩ := hline _ p hp
  have hnonneg := tapAt_nonneg hfits hk hlo hhi
  have hne := hx p hp
  show (tapAt dir A.toNat s.stride.toNat k p.1).toNat ≠ x
  omega

/-- A tap written holds its new value: the taps of a position have different addresses. -/
theorem smAt_filterPosition_tap (hstride : s.stride ≠ 0) (hfits : edgeFits reach n dir A s) (hk : k < n)
    (hline : writesWithin line (-reach) (reach - 1)) (hwrites : ReadableWrites (line (s.taps dir A k)))
    {p : Int × Int} (hp : p ∈ line (s.taps dir A k)) :
    smAt (s.filterPosition line dir (addrOf A) k) (tapAt dir A.toNat s.stride.toNat k p.1) = p.2 := by
  have hnonneg : ∀ q ∈ line (s.taps dir A k), 0 ≤ tapAt dir A.toNat s.stride.toNat k q.1 := fun q hq =>
    tapAt_nonneg hfits hk (hline _ q hq).1 (hline _ q hq).2
  have hdistinct : ((line (s.taps dir A k)).map fun q => (tapAt dir A.toNat s.stride.toNat k q.1, q.2)).Pairwise
      fun x y => x.1.toNat ≠ y.1.toNat :=
    List.pairwise_map.2 (hwrites.distinct.imp_of_mem fun {q r} hq hr hne heq =>
      hne (tapAt_injective hstride dir A k (by
        rw [← Int.toNat_of_nonneg (hnonneg q hq), heq, Int.toNat_of_nonneg (hnonneg r hr)])))
  have hmem := List.mem_map_of_mem (f := fun q : Int × Int => (tapAt dir A.toNat s.stride.toNat k q.1, q.2)) hp
  rw [filterPosition_eq, smAt, smByte_writeSamples_mem s hmem hdistinct]
  exact toNat_ofInt_of_isSample (hwrites.sample p hp)

theorem linesWritten_filterPosition (hstride : s.stride ≠ 0) (hfits : edgeFits reach n dir A s) (hk : k < n)
    (hline : writesWithin line (-reach) (reach - 1)) (hwrites : ReadableWrites (line (s.taps dir A k))) :
    linesWritten s (s.filterPosition line dir (addrOf A) k) (tapAt dir A.toNat s.stride.toNat k)
      (line (s.taps dir A k)) :=
  ⟨⟨_, rfl⟩, fun _ hp => smAt_filterPosition_tap hstride hfits hk hline hwrites hp,
    fun _ hx => smByte_filterPosition_outside hfits hk hline hx⟩

/-- Writes of the values that the samples hold already change nothing. -/
theorem smByte_writeSamples_of_same {ws : List (Int × Int)} (h : ∀ p ∈ ws, p.2 = s.sample p.1) (a : Nat) :
    (s.writeSamples ws).smByte a = s.smByte a := by
  induction ws generalizing s with
  | nil => rfl
  | cons p ws ih =>
    have hsame : ∀ b, (s.setSm p.1.toNat (BitVec.ofInt 8 p.2)).smByte b = s.smByte b := fun b => by
      by_cases hb : b = p.1.toNat
      · rw [hb, State.smByte_setSm_self, h p List.mem_cons_self, State.sample, BitVec.ofInt_natCast,
          BitVec.ofNat_toNat, BitVec.setWidth_eq]
      · exact State.smByte_setSm_ne s _ hb
    calc ((s.setSm p.1.toNat (BitVec.ofInt 8 p.2)).writeSamples ws).smByte a
        = (s.setSm p.1.toNat (BitVec.ofInt 8 p.2)).smByte a :=
          ih fun q hq => by rw [State.sample, hsame]; exact h q (List.mem_cons_of_mem p hq)
      _ = s.smByte a := hsame a

theorem smByte_filterPosition_of_restatesTaps (h : restatesTaps (s.taps dir A k) (line (s.taps dir A k))) (a : Nat) :
    (s.filterPosition line dir (addrOf A) k).smByte a = s.smByte a := by
  rw [filterPosition_eq]
  refine smByte_writeSamples_of_same (fun q hq => ?_) a
  obtain ⟨p, hp, rfl⟩ := List.mem_map.1 hq
  exact h p hp

/-! ### A command -/

section Command

variable {i : Instr} {w : Command}

theorem filterEdge_of_not_fits (hn : 0 < n) (h : ¬ edgeFits reach n dir A s) :
    filterEdge reach n line dir (addrOf A) w s = .next (faulted s .addressRange w) := by
  rw [← raise_eq_faulted]
  exact if_neg fun hin => h ((edgeInSpace_iff hn).1 hin)

theorem filterEdge_of_limit_zero (hn : 0 < n) (hlimit : s.lfp.limit = 0) (h : edgeFits reach n dir A s) :
    filterEdge reach n line dir (addrOf A) w s = .next { s with resp := some (.ok 0) } :=
  (if_pos ((edgeInSpace_iff hn).2 h)).trans (if_pos hlimit)

theorem filterEdge_of_limit_ne_zero (hn : 0 < n) (hlimit : s.lfp.limit ≠ 0) (h : edgeFits reach n dir A s) :
    filterEdge reach n line dir (addrOf A) w s = .next ((s.filterPositions line dir (addrOf A) n).respond 0) :=
  (if_pos ((edgeInSpace_iff hn).2 h)).trans (if_neg hlimit)

theorem filterPositions_sm (s : State) (line : LineFilter) (dir : Dir) (A : Int) (n : Nat) :
    ∃ m, s.filterPositions line dir A n = { s with sm := m } := ⟨_, filterPositions_eq s line dir A n⟩

/-- The states between the positions are those `filterPositions` passes through. -/
theorem filtersEdge_of_line {spec : (Int → Int) → List (Int × Int) → Prop}
    (hexec : exec i s = filterEdge reach n line dir (addrOf A) w s) (hspec : ∀ tap, spec tap (line tap))
    (hwrites : ∀ tap, ReadableWrites (line tap)) (hline : writesWithin line (-reach) (reach - 1)) (hn : 0 < n) :
    filtersEdge reach n i dir A s spec := by
  intro hstride hfits hlimit
  refine ⟨s.filterPositions line dir (addrOf A), filterPositions_zero line dir _,
    hexec.trans (filterEdge_of_limit_ne_zero hn hlimit hfits), fun k hk => ?_⟩
  rw [filterPositions_succ]
  obtain ⟨m, hm⟩ := filterPositions_sm s line dir (addrOf A) k
  rw [hm]
  exact ⟨_, hspec _, linesWritten_filterPosition (s := { s with sm := m }) hstride hfits hk hline (hwrites _)⟩

theorem onlyTapsChange_of_line {lo hi : Int} (hexec : exec i s = filterEdge reach n line dir (addrOf A) w s)
    (hline : writesWithin line lo hi) (hlo : -reach ≤ lo) (hhi : hi ≤ reach - 1) (hn : 0 < n)
    (hresp : t.resp = some (.ok 0)) (h : exec i s = .next t) : onlyTapsChange lo hi n dir A s t := by
  rw [hexec] at h
  rcases filterEdge_cases h with ⟨-, -, rfl⟩ | ⟨hin, -, rfl⟩ | ⟨-, rfl⟩
  · exact ⟨⟨s.sm, rfl⟩, fun _ _ => rfl⟩
  · have hfits := (edgeInSpace_iff hn).1 hin
    obtain ⟨m, hm⟩ := filterPositions_sm s line dir (addrOf A) n
    refine ⟨⟨m, by rw [hm]; rfl⟩, fun x hx => ?_⟩
    have hall := filterPositions_induction (s := s) (line := line) (dir := dir) (A := addrOf A) (n := n)
      (P := fun u => (∃ m, u = { s with sm := m }) ∧ u.smByte x = s.smByte x) ⟨⟨s.sm, rfl⟩, rfl⟩ ?_
    · exact hall.2
    · rintro k hk _ ⟨⟨m, rfl⟩, hsame⟩
      refine ⟨⟨_, rfl⟩, Eq.trans ?_ hsame⟩
      refine smByte_filterPosition_outside (s := { s with sm := m }) hfits hk (hline.mono hlo hhi) fun p hp => ?_
      exact hx k hk p.1 (hline _ p hp).1 (hline _ p hp).2
  · simp at hresp

/-- A flat edge stays flat position by position, since none of them changes a sample. -/
theorem leavesSamples_of_line {lo hi : Int} (hexec : exec i s = filterEdge reach n line dir (addrOf A) w s)
    (hline : keepsFlatLines lo hi line) (hn : 0 < n) (hfits : edgeFits reach n dir A s)
    (hflat : flatEdge lo hi n dir A s) : leavesSamples i s := by
  by_cases hlimit : s.lfp.limit = 0
  · exact ⟨s.sm, hexec.trans (filterEdge_of_limit_zero hn hlimit hfits), fun _ => rfl⟩
  · have hall := filterPositions_induction (s := s) (line := line) (dir := dir) (A := addrOf A) (n := n)
      (P := fun u => (∃ m, u = { s with sm := m }) ∧ ∀ a, u.smByte a = s.smByte a) ⟨⟨s.sm, rfl⟩, fun _ => rfl⟩ ?_
    · obtain ⟨⟨m, hm⟩, hsame⟩ := hall
      rw [hm] at hsame
      exact ⟨m, by rw [hexec, filterEdge_of_limit_ne_zero hn hlimit hfits, hm]; rfl, hsame⟩
    · rintro k hk _ ⟨⟨m, rfl⟩, hsame⟩
      refine ⟨⟨_, rfl⟩, fun a => Eq.trans ?_ (hsame a)⟩
      refine smByte_filterPosition_of_restatesTaps (hline _ (isSample_taps _ dir A k) ?_) a
      have htaps : State.taps { s with sm := m } dir A k = s.taps dir A k := by
        funext j
        rw [State.taps, State.taps, smAt, hsame]
        rfl
      rw [htaps]
      exact hflat k hk

end Command

end Sys2Proof.Machine
end

section
/-! The LF commands (spec/43_loop_filter.md R191, R194, R200 to R204). -/

namespace Sys2Proof.Machine

open Sys2Proof.Claims

/-! ### `LF.SETUP` (R191) -/

theorem interiorLevel_eq (level sharpness : Nat) :
    interiorLevel level sharpness =
      let shifted := if sharpness = 0 then level else if sharpness ≤ 4 then level >>> 1 else level >>> 2
      max 1 (if sharpness = 0 then shifted else min (9 - sharpness) shifted) := by
  obtain rfl | ⟨hpos, h4⟩ | h4 : sharpness = 0 ∨ (0 < sharpness ∧ sharpness ≤ 4) ∨ 4 < sharpness := by omega
  · simp only [interiorLevel, gt_iff_lt, lt_irrefl, false_and, if_false, if_true]
    split_ifs <;> omega
  · simp only [interiorLevel, hpos, h4, hpos.ne', h4.not_gt, Nat.shiftRight_eq_div_pow, true_and, if_false, if_true]
    split_ifs <;> omega
  · simp only [interiorLevel, h4, h4.not_ge, Nat.ne_of_gt (Nat.zero_lt_of_lt h4), Nat.zero_lt_of_lt h4,
      Nat.shiftRight_eq_div_pow, true_and, if_false, if_true]
    split_ifs <;> omega

theorem interiorLevel_le {level : Nat} (sharpness : Nat) (h : level ≠ 0) : interiorLevel level sharpness ≤ level := by
  simp only [interiorLevel_eq, Nat.shiftRight_eq_div_pow]
  split_ifs <;> omega

/-- Settles O43: no field's value exceeds its bits. -/
theorem lfSetupComputesLfp : Obligations.LfSetupComputesLfp := by
  refine fun s level sharpness => ⟨fun hzero => ?_, fun hpos => ?_⟩
  · show Host.Outcome.next ((s.setLfp (Lfp.setup level.toNat sharpness.toNat)).respond 0) = _
    rw [Lfp.setup, if_pos hzero]
    rfl
  · have hlevel := level.isLt
    have hinterior := interiorLevel_le sharpness.toNat hpos
    refine ⟨Lfp.setup level.toNat sharpness.toNat, rfl, ?_⟩
    rw [Lfp.setup, if_neg hpos, ← interiorLevel_eq]
    refine ⟨?_, ?_, ?_⟩
    · exact Nat.mod_eq_of_lt (by omega)
    · exact Nat.mod_eq_of_lt (by omega)
    · exact Nat.mod_eq_of_lt (by rw [hevLevel]; split_ifs <;> omega)

/-! ### Each edge command is `filterEdge` with its line filter (R201 to R204) -/

theorem positions_pos (n : EdgeLength) : 0 < positions n := by cases n <;> decide

theorem exec_lfSmb (dir : Dir) (A : Word) (s : State) :
    exec (.lfSmb dir A) s = filterEdge 2 16 (simpleLine s.lfp.mbLimit) dir (addrOf A) (encode (.lfSmb dir A)) s := rfl

theorem exec_lfSin (dir : Dir) (A : Word) (s : State) :
    exec (.lfSin dir A) s =
      filterEdge 2 16 (simpleLine s.lfp.innerLimit) dir (addrOf A) (encode (.lfSin dir A)) s := rfl

theorem exec_lfNmb (dir : Dir) (n : EdgeLength) (A : Word) (s : State) :
    exec (.lfNmb dir n A) s = filterEdge 4 (positions n)
      (normalMbLine s.lfp.mbLimit s.lfp.interior s.lfp.hevThreshold) dir (addrOf A) (encode (.lfNmb dir n A)) s := by
  cases n <;> rfl

theorem exec_lfNin (dir : Dir) (n : EdgeLength) (A : Word) (s : State) :
    exec (.lfNin dir n A) s = filterEdge 4 (positions n)
      (normalInnerLine s.lfp.innerLimit s.lfp.interior s.lfp.hevThreshold) dir (addrOf A)
      (encode (.lfNin dir n A)) s := by
  cases n <;> rfl

/-- Settles O44: the shared operation checks the span before it looks at `LFP.limit`. -/
theorem edgeRangeIsCheckedFirst : Obligations.EdgeRangeIsCheckedFirst := by
  refine fun s dir n A => ⟨fun hout => ⟨?_, ?_⟩, fun hout => ⟨?_, ?_⟩, fun hoff hfits => ⟨?_, ?_⟩,
    fun hoff hfits => ⟨?_, ?_⟩⟩
  · exact filterEdge_of_not_fits (by decide) hout
  · exact filterEdge_of_not_fits (by decide) hout
  · exact (exec_lfNmb dir n A s).trans (filterEdge_of_not_fits (positions_pos n) hout)
  · exact (exec_lfNin dir n A s).trans (filterEdge_of_not_fits (positions_pos n) hout)
  · exact filterEdge_of_limit_zero (by decide) hoff hfits
  · exact filterEdge_of_limit_zero (by decide) hoff hfits
  · exact (exec_lfNmb dir n A s).trans (filterEdge_of_limit_zero (positions_pos n) hoff hfits)
  · exact (exec_lfNin dir n A s).trans (filterEdge_of_limit_zero (positions_pos n) hoff hfits)

theorem filtersEdge_of_simpleLine {i : Instr} {s : State} {dir : Dir} {A : Word} {w : Command} (E : Int)
    (hexec : exec i s = filterEdge 2 16 (simpleLine E) dir (addrOf A) w s) :
    filtersEdge 2 16 i dir A s (simpleWrites E) :=
  filtersEdge_of_line hexec (simpleWrites_simpleLine E)
    (fun tap => readableWrites_of_simpleWrites (simpleWrites_simpleLine E tap))
    ((simpleLine_within E).mono (by decide) (by decide)) (by decide)

/-- Settles O45: both commands run the simple filter, each with its limit. -/
theorem simpleFilterOnBothEdges : Obligations.SimpleFilterOnBothEdges := fun s dir A =>
  ⟨filtersEdge_of_simpleLine s.lfp.mbLimit (exec_lfSmb dir A s),
    filtersEdge_of_simpleLine s.lfp.innerLimit (exec_lfSin dir A s)⟩

/-- Settles O46: the line filter is the normal filter with the six-tap kernel. -/
theorem normalFilterOnMacroblockEdges : Obligations.NormalFilterOnMacroblockEdges := fun s dir n A =>
  have hline := normalWrites_normalMbLine s.lfp.mbLimit s.lfp.interior s.lfp.hevThreshold
  filtersEdge_of_line (exec_lfNmb dir n A s) hline
    (fun tap => readableWrites_of_normalWrites (readableWrites_kernel6 tap) (hline tap))
    ((normalMbLine_within _ _ _).mono (by decide) (by decide)) (positions_pos n)

/-- Settles O47: the line filter is the normal filter with the four-tap kernel. -/
theorem normalFilterOnInnerEdges : Obligations.NormalFilterOnInnerEdges := fun s dir n A =>
  have hline := normalWrites_normalInnerLine s.lfp.innerLimit s.lfp.interior s.lfp.hevThreshold
  filtersEdge_of_line (exec_lfNin dir n A s) hline
    (fun tap => readableWrites_of_normalWrites (readableWrites_kernel4 tap) (hline tap))
    ((normalInnerLine_within _ _ _).mono (by decide) (by decide)) (positions_pos n)

/-- Settles O48: what a command may change is what its line filter may write. -/
theorem edgeCommandsStayNearTheEdge : Obligations.EdgeCommandsStayNearTheEdge := by
  refine fun s t dir n A hresp => ⟨fun h => ?_, fun h => ?_, fun h => ?_⟩
  · rcases h with h | h
    · exact onlyTapsChange_of_line (exec_lfSmb dir A s) (simpleLine_within _) (by decide) (by decide) (by decide) hresp h
    · exact onlyTapsChange_of_line (exec_lfSin dir A s) (simpleLine_within _) (by decide) (by decide) (by decide) hresp h
  · exact onlyTapsChange_of_line (exec_lfNin dir n A s) (normalInnerLine_within _ _ _) (by decide) (by decide)
      (positions_pos n) hresp h
  · exact onlyTapsChange_of_line (exec_lfNmb dir n A s) (normalMbLine_within _ _ _) (by decide) (by decide)
      (positions_pos n) hresp h

/-- Settles O49: on a flat line each kernel restates the taps it writes. -/
theorem flatLinesAreUnchanged : Obligations.FlatLinesAreUnchanged := by
  refine fun s dir n A => ⟨fun hfits hflat => ⟨?_, ?_⟩, fun hfits hflat => ⟨?_, ?_⟩⟩
  · exact leavesSamples_of_line (exec_lfSmb dir A s) (simpleLine_keepsFlatLines _) (by decide) hfits hflat
  · exact leavesSamples_of_line (exec_lfSin dir A s) (simpleLine_keepsFlatLines _) (by decide) hfits hflat
  · exact leavesSamples_of_line (exec_lfNmb dir n A s) (normalMbLine_keepsFlatLines _ _ _) (positions_pos n) hfits hflat
  · exact leavesSamples_of_line (exec_lfNin dir n A s) (normalInnerLine_keepsFlatLines _ _ _) (positions_pos n) hfits
      hflat

end Sys2Proof.Machine
end

section
/-! The words of the FE commands (spec/44_system_and_memory.md R220 to R227; spec/30_encoding.md R72): which of the
fields the decoder wants zero, as one mask of the word. -/

namespace Sys2Proof

open Claims

/-- What the decoder checks of an FE word without operands (R72). -/
def bareWord (w : Command) : Bool := fieldA w == 0 && fieldB w == 0 && fieldC w == 0 && fieldImm w == 0

/-- What the decoder checks of an FE word that holds an operand in `c` only (R72). -/
def halfWord (w : Command) : Bool := fieldA w == 0 && fieldB w == 0 && fieldImm w == 0

/-- What the decoder checks of an FE word that holds an operand in `imm` only (R72). -/
def immWord (w : Command) : Bool := fieldA w == 0 && fieldB w == 0 && fieldC w == 0

/-- What the decoder checks of an FE word that holds a byte in `c` and an operand in `imm` (R72). -/
def byteImmWord (w : Command) : Bool := fieldA w == 0 && fieldB w == 0 && (fieldC w).toNat < 256

/-- What the decoder checks of an FE word that holds operands in `c` and in `imm` (R72). -/
def halfImmWord (w : Command) : Bool := fieldA w == 0 && fieldB w == 0

theorem bareWord_iff (w : Command) :
    bareWord w = true ↔ w &&& BitVec.ofNat 64 0x00FFFFFFFFFFFFFF = 0 := by
  rw [and_ofNat_eq_zero_iff_fields]
  simp [bareWord, and_assoc]

theorem halfWord_iff (w : Command) :
    halfWord w = true ↔ w &&& BitVec.ofNat 64 0x00FF0000FFFFFFFF = 0 := by
  rw [and_ofNat_eq_zero_iff_fields]
  simp [halfWord, and_assoc]

theorem immWord_iff (w : Command) :
    immWord w = true ↔ w &&& BitVec.ofNat 64 0x00FFFFFF00000000 = 0 := by
  rw [and_ofNat_eq_zero_iff_fields]
  simp [immWord, and_assoc]

theorem byteImmWord_iff (w : Command) :
    byteImmWord w = true ↔ w &&& BitVec.ofNat 64 0x00FFFF0000000000 = 0 := by
  rw [and_ofNat_eq_zero_iff_fields]
  simp [byteImmWord, and_assoc]

theorem halfImmWord_iff (w : Command) :
    halfImmWord w = true ↔ w &&& BitVec.ofNat 64 0x00FF000000000000 = 0 := by
  rw [and_ofNat_eq_zero_iff_fields]
  simp [halfImmWord]

/-- `encodedAs_of_decode` for words whose fields may have any value their bits can. -/
theorem encodedAs_anyFields {op zeros : Nat} {mk : BitVec 4 → Half → Word → Instr} (good : Command → Bool)
    (harm : ∀ w, (fieldOp w).toNat = op →
      decode w = unlessReserved (good w) (mk (fieldA w) (fieldC w) (fieldImm w)))
    (hgood : ∀ w, good w = true ↔ w &&& BitVec.ofNat 64 zeros = 0) : encodedAs op zeros anyFields mk :=
  encodedAs_of_decode good harm fun w => (hgood w).trans (and_iff_left rfl).symm

/-- The two ways of taking a byte from `c` (R72). -/
theorem ofNat_byte (c : Half) : BitVec.ofNat 8 c.toNat = c.extractLsb' 0 8 := by
  rw [BitVec.ofNat_toNat, BitVec.setWidth_eq_extractLsb' (by decide)]

/-- The words of `NOP` (R220). -/
theorem words_nop : encodedAs 0x00 0x00FFFFFFFFFFFFFF anyFields (fun _ _ _ => .nop) :=
  encodedAs_anyFields bareWord (fun w hop => by simp only [decode, hop]; rfl) bareWord_iff

/-- The words of `SYS.RESET` (R221). -/
theorem words_sysReset : encodedAs 0x01 0x00FFFFFFFFFFFFFF anyFields (fun _ _ _ => .sysReset) :=
  encodedAs_anyFields bareWord (fun w hop => by simp only [decode, hop]; rfl) bareWord_iff

/-- The words of `SYS.RDC` (R222). -/
theorem words_sysRdc : encodedAs 0x02 0x00FF0000FFFFFFFF anyFields (fun _ c _ => .sysRdc c) :=
  encodedAs_anyFields halfWord (fun w hop => by simp only [decode, hop]; rfl) halfWord_iff

/-- The words of `SYS.WRC` (R223). -/
theorem words_sysWrc : encodedAs 0x03 0x00FF000000000000 anyFields (fun _ c imm => .sysWrc c imm) :=
  encodedAs_anyFields halfImmWord (fun w hop => by simp only [decode, hop]; rfl) halfImmWord_iff

/-- The words of `MEM.LDB` (R224). -/
theorem words_memLdb : encodedAs 0x08 0x00FFFFFF00000000 anyFields (fun _ _ imm => .memLdb imm) :=
  encodedAs_anyFields immWord (fun w hop => by simp only [decode, hop]; rfl) immWord_iff

/-- The words of `MEM.STB` (R225). -/
theorem words_memStb :
    encodedAs 0x09 0x00FFFF0000000000 anyFields (fun _ c imm => .memStb (BitVec.ofNat 8 c.toNat) imm) :=
  encodedAs_anyFields byteImmWord (fun w hop => by simp only [decode, hop, ofNat_byte]; rfl) byteImmWord_iff

/-- The words of `MEM.LDC` (R226). -/
theorem words_memLdc : encodedAs 0x0A 0x00FFFFFF00000000 anyFields (fun _ _ imm => .memLdc imm) :=
  encodedAs_anyFields immWord (fun w hop => by simp only [decode, hop]; rfl) immWord_iff

/-- The words of `MEM.STC` (R227). -/
theorem words_memStc : encodedAs 0x0B 0x00FF000000000000 anyFields (fun _ c imm => .memStc c imm) :=
  encodedAs_anyFields halfImmWord (fun w hop => by simp only [decode, hop]; rfl) halfImmWord_iff

end Sys2Proof
end

section
/-! What an FE command does (spec/44_system_and_memory.md R220 to R227): its next state where it is accepted and the
fault it raises where it is not, once for each command; and the register map of spec/10_state.md R27 by numbers. -/

namespace Sys2Proof.Machine

open Sys2Proof.Claims

variable {s : State} {n : Half} {v : Word}

/-! ### `NOP` and `SYS.RESET` (R220, R221) -/

theorem exec_nop (s : State) : exec .nop s = .next (s.respond 0) := rfl

theorem exec_sysReset (s : State) : exec .sysReset s = .next (s.resetRegisters.respond 0) := rfl

/-- A fault sets `STATUS.err`; of the other effects, only that of `SYS.RESET` writes it (R221, R244). -/
theorem CommandEffect.err_stays {t : State} {i : Instr} (h : CommandEffect s i t) (hreset : i ≠ .sysReset)
    (herr : s.err = true) : t.err = true := by
  cases h with
  | fault c => exact raise_err ..
  | reset => exact absurd rfl hreset
  | _ => exact herr

/-- What the reset of the registers and the response `{OK, 0}` leave of a state: its memories and the model's own
fields. -/
theorem respond_resetRegisters_congr {t : State} (hbs : t.bs = s.bs) (hcm : t.cm = s.cm) (hsm : t.sm = s.sm)
    (hepoch : t.epoch = s.epoch) (hparams : t.params = s.params) (hinbox : t.inbox = s.inbox) :
    t.resetRegisters.respond 0 = s.resetRegisters.respond 0 := by
  simp only [State.respond, State.resetRegisters, hbs, hcm, hsm, hepoch, hparams, hinbox]

/-- Settles O11: the words, and the next state. -/
theorem nopChangesNothing : Obligations.NopChangesNothing := ⟨words_nop, exec_nop⟩

/-- Settles O12: the next state field by field, and the effects that keep `STATUS.err`. -/
theorem sysResetResetsTheRegistersOnly : Obligations.SysResetResetsTheRegistersOnly := by
  refine ⟨words_sysReset, fun s => ?_, fun i s t hreset h => (exec_effect h).err_stays hreset⟩
  exact ⟨_, exec_sysReset s, registersReset_resetRegisters s, rfl, rfl, rfl, rfl, rfl, rfl, rfl⟩

/-- Settles O13: both states have one next state, as far as it depends on them. -/
theorem sysResetForgetsTheRegisters : Obligations.SysResetForgetsTheRegisters := by
  intro s t hbs hcm hsm hepoch hparams hinbox
  refine ⟨_, exec_sysReset s, ?_⟩
  rw [exec_sysReset, respond_resetRegisters_congr hbs hcm hsm hepoch hparams hinbox]

/-! ### `SYS.RDC` (R222) -/

theorem exec_sysRdc {c : ControlReg} (h : ControlReg.ofNumber n.toNat = some c) :
    exec (.sysRdc n) s = .next (s.answer (s.controlReg c)) := by
  simp only [exec, execSysRdc, h]

theorem raises_sysRdc (h : ControlReg.ofNumber n.toNat = none) : raises (.sysRdc n) .controlRegister s := by
  simp only [raises, exec, execSysRdc, h, raised, raise_eq_faulted]

/-- A number of the map answers the value of the register it names. -/
theorem rdcGives_of_ofNumber {k value : Nat} {c : ControlReg} (hk : k < 2 ^ 16) (hc : ControlReg.ofNumber k = some c)
    (hvalue : (s.controlReg c).toNat = value) : rdcGives s k value := by
  have hnumber : ControlReg.ofNumber (BitVec.ofNat 16 k).toNat = some c := by
    rwa [BitVec.toNat_ofNat, Nat.mod_eq_of_lt hk]
  have hword : BitVec.ofNat 32 value = s.controlReg c := by
    rw [← hvalue, BitVec.ofNat_toNat, BitVec.setWidth_eq]
  rw [rdcGives, hword]
  exact exec_sysRdc hnumber

/-- The number at offset `k` of context `r` answers that field of the context. -/
theorem rdcGives_reader {k value : Nat} {f : ReaderField} (r : Fin 9) (hk : k < 8)
    (hf : ReaderField.ofOffset k = some f) (hvalue : ((s.reader r).field f).toNat = value) :
    rdcGives s (0x10 + 8 * r + k) value :=
  rdcGives_of_ofNumber (c := .reader r f) (by omega) (by rw [ControlReg.ofNumber_reader r k hk, hf]; rfl) hvalue

/-- A bit reads as 0 or 1. -/
theorem toNat_setWidth_ofBool (b : Bool) : ((BitVec.ofBool b).setWidth 32).toNat = if b then 1 else 0 := by
  cases b <;> rfl

theorem rdcGives_status (s : State) : rdcGives s 0x00 (if s.err then 1 else 0) :=
  rdcGives_of_ofNumber (c := .status) (by decide) rfl (toNat_setWidth_ofBool s.err)

theorem rdcGives_cause (s : State) : rdcGives s 0x01 s.cause.toNat :=
  rdcGives_of_ofNumber (c := .cause) (by decide) rfl (BitVec.toNat_setWidth_of_le (by decide))

theorem rdcGives_einfoLo (s : State) : rdcGives s 0x02 (s.einfo.toNat % 2 ^ 32) :=
  rdcGives_of_ofNumber (c := .einfoLo) (by decide) rfl (BitVec.extractLsb'_toNat ..)

theorem rdcGives_einfoHi (s : State) : rdcGives s 0x03 (s.einfo.toNat / 2 ^ 32) := by
  refine rdcGives_of_ofNumber (c := .einfoHi) (by decide) rfl ?_
  have hlt := s.einfo.isLt
  rw [State.controlReg, BitVec.extractLsb'_toNat, Nat.shiftRight_eq_div_pow]
  omega

theorem rdcGives_res (s : State) : rdcGives s 0x04 s.res.toNat :=
  rdcGives_of_ofNumber (c := .res) (by decide) rfl rfl

theorem rdcGives_stride (s : State) : rdcGives s 0x05 s.stride.toNat :=
  rdcGives_of_ofNumber (c := .stride) (by decide) rfl (BitVec.toNat_setWidth_of_le (by decide))

theorem rdcGives_lfp (s : State) :
    rdcGives s 0x06 (s.lfp.limit.toNat + 2 ^ 8 * s.lfp.inner.toNat + 2 ^ 16 * s.lfp.hev.toNat) :=
  rdcGives_of_ofNumber (c := .lfp) (by decide) rfl (Lfp.word_toNat s.lfp)

/-- The six numbers of a context (R27). -/
theorem rdcGives_readerFields (s : State) (r : Fin 9) :
    rdcGives s (0x10 + 8 * r) (s.reader r).value.toNat ∧ rdcGives s (0x10 + 8 * r + 1) (s.reader r).range.toNat ∧
      rdcGives s (0x10 + 8 * r + 2) (s.reader r).bitsLeft.toNat ∧
      rdcGives s (0x10 + 8 * r + 3) (s.reader r).cursor.toNat ∧
      rdcGives s (0x10 + 8 * r + 4) (s.reader r).bound.toNat ∧
      rdcGives s (0x10 + 8 * r + 5) (if (s.reader r).valid then 1 else 0) := by
  refine ⟨?value, ?range, ?bitsLeft, ?cursor, ?bound, ?valid⟩
  case value => exact rdcGives_reader (k := 0) (f := .value) r (by decide) rfl rfl
  case range => exact rdcGives_reader (f := .range) r (by decide) rfl (BitVec.toNat_setWidth_of_le (by decide))
  case bitsLeft => exact rdcGives_reader (f := .bitsLeft) r (by decide) rfl (BitVec.toNat_setWidth_of_le (by decide))
  case cursor => exact rdcGives_reader (f := .cursor) r (by decide) rfl rfl
  case bound => exact rdcGives_reader (f := .bound) r (by decide) rfl rfl
  case valid => exact rdcGives_reader (f := .valid) r (by decide) rfl (toNat_setWidth_ofBool _)

/-- Settles O14: the words, each number of the map, and the numbers outside it. -/
theorem sysRdcReadsTheRegisterMap : Obligations.SysRdcReadsTheRegisterMap :=
  ⟨words_sysRdc, fun s =>
    ⟨rdcGives_status s, rdcGives_cause s, rdcGives_einfoLo s, rdcGives_einfoHi s, rdcGives_res s, rdcGives_stride s,
      rdcGives_lfp s, rdcGives_readerFields s, fun _ hn => raises_sysRdc (ControlReg.ofNumber_eq_none hn)⟩⟩

/-! ### `SYS.WRC` (R223) -/

theorem writeControlReg_stride (h : 1 ≤ v.toNat ∧ v.toNat ≤ 65535) :
    s.writeControlReg 5 v = some (s.setStride (v.setWidth 16)) := if_pos h

theorem writeControlReg_stride_eq_none (h : v.toNat = 0 ∨ 65535 < v.toNat) : s.writeControlReg 5 v = none :=
  if_neg (by omega)

theorem writeControlReg_lfp (h : v &&& ~~~0x00033FFF#32 = 0) :
    s.writeControlReg 6 v = some (s.setLfp (Lfp.ofWord v)) := if_pos h

theorem writeControlReg_lfp_eq_none (h : v &&& ~~~0x00033FFF#32 ≠ 0) : s.writeControlReg 6 v = none := if_neg h

theorem exec_sysWrc {t : State} (h : s.writeControlReg n v = some t) :
    exec (.sysWrc n v) s = .next (t.respond 0) := by
  simp only [exec, execSysWrc, h]

theorem raises_sysWrc (h : s.writeControlReg n v = none) : raises (.sysWrc n v) .controlRegister s := by
  simp only [raises, exec, execSysWrc, h, raised, raise_eq_faulted]

/-- The fields that `LFP` takes from a word, by their places in it (R26). -/
theorem Lfp.ofWord_eq (v : Word) :
    Lfp.ofWord v =
      { limit := BitVec.ofNat 8 v.toNat, inner := BitVec.ofNat 6 (v.toNat / 2 ^ 8)
        hev := BitVec.ofNat 2 (v.toNat / 2 ^ 16) } := by
  simp only [Lfp.ofWord, BitVec.extractLsb', Nat.shiftRight_eq_div_pow, pow_zero, Nat.div_one]

/-- A word with no bit outside 0x00033FFF is the sum of the three fields, each in its place (R26). -/
theorem toNat_eq_lfp_fields (h : v &&& ~~~0x00033FFF#32 = 0) :
    v.toNat = v.toNat % 2 ^ 8 + 2 ^ 8 * (v.toNat / 2 ^ 8 % 2 ^ 6) + 2 ^ 16 * (v.toNat / 2 ^ 16 % 2 ^ 2) := by
  have hfields := Lfp.word_toNat (Lfp.ofWord v)
  rwa [Lfp.word_ofWord v h, Lfp.ofWord_eq, BitVec.toNat_ofNat, BitVec.toNat_ofNat, BitVec.toNat_ofNat] at hfields

/-- Settles O15: the words, the two registers that can be written, and every other number. -/
theorem sysWrcWritesStrideAndLfp : Obligations.SysWrcWritesStrideAndLfp := by
  refine ⟨words_sysWrc, fun s v => ⟨fun hv => ?_, fun hv => ⟨?_, toNat_eq_lfp_fields hv⟩, ?_, ?_, ?_⟩⟩
  · rw [exec_sysWrc (writeControlReg_stride hv), BitVec.ofNat_toNat]
    rfl
  · rw [exec_sysWrc (writeControlReg_lfp hv), ← Lfp.ofWord_eq]
    rfl
  · exact fun hv => raises_sysWrc (writeControlReg_stride_eq_none hv)
  · exact fun hv => raises_sysWrc (writeControlReg_lfp_eq_none hv)
  · exact fun n h5 h6 => raises_sysWrc (writeControlReg_eq_none s v h5 h6)

/-! ### `MEM.LDB` and `MEM.STB` (R224, R225) -/

theorem exec_memLdb {addr : Word} (h : addr.toNat < s.params.smSize) :
    exec (.memLdb addr) s = .next (s.answer ((s.smByte addr.toNat).setWidth 32)) := if_pos h

theorem exec_memStb {addr : Word} (v : Byte) (h : addr.toNat < s.params.smSize) :
    exec (.memStb v addr) s = .next ((s.setSm addr.toNat v).respond 0) := if_pos h

theorem raises_memLdb {addr : Word} (h : s.params.smSize ≤ addr.toNat) : raises (.memLdb addr) .addressRange s := by
  simp only [raises, exec, execMemLdb, if_neg (Nat.not_lt.2 h), raised, raise_eq_faulted]

theorem raises_memStb {addr : Word} (v : Byte) (h : s.params.smSize ≤ addr.toNat) :
    raises (.memStb v addr) .addressRange s := by
  simp only [raises, exec, execMemStb, if_neg (Nat.not_lt.2 h), raised, raise_eq_faulted]

/-- Settles O16: the words, and each command on an address inside SM and on one outside. -/
theorem samplesAreLoadedAndStored : Obligations.SamplesAreLoadedAndStored := by
  refine ⟨words_memLdb, words_memStb, fun s addr => ⟨fun h => ⟨?_, fun v => ?_⟩, fun h => ?_⟩⟩
  · rw [exec_memLdb h, BitVec.ofNat_toNat]
    rfl
  · exact ⟨_, exec_memStb v h, State.smByte_setSm_self s addr.toNat v, fun a ha => State.smByte_setSm_ne s v ha⟩
  · exact ⟨raises_memLdb h, fun v => raises_memStb v h⟩

/-! ### `MEM.LDC` and `MEM.STC` (R226, R227) -/

theorem exec_memLdc {idx : Word} (h : idx.toNat < s.params.cmWords) :
    exec (.memLdc idx) s = .next (s.answer ((s.cmElem idx.toNat).signExtend 32)) := if_pos h

theorem exec_memStc {idx : Word} (v : Half) (h : idx.toNat < s.params.cmWords) :
    exec (.memStc v idx) s = .next ((s.setCm idx.toNat v).respond 0) := if_pos h

theorem raises_memLdc {idx : Word} (h : s.params.cmWords ≤ idx.toNat) : raises (.memLdc idx) .addressRange s := by
  simp only [raises, exec, execMemLdc, if_neg (Nat.not_lt.2 h), raised, raise_eq_faulted]

theorem raises_memStc {idx : Word} (v : Half) (h : s.params.cmWords ≤ idx.toNat) :
    raises (.memStc v idx) .addressRange s := by
  simp only [raises, exec, execMemStc, if_neg (Nat.not_lt.2 h), raised, raise_eq_faulted]

/-- Settles O17: the words, and each command on an index inside CM and on one outside. -/
theorem coefficientsAreLoadedAndStored : Obligations.CoefficientsAreLoadedAndStored := by
  refine ⟨words_memLdc, words_memStc, fun s idx => ⟨fun h => ⟨exec_memLdc h, fun v => ?_⟩, fun h => ?_⟩⟩
  · exact ⟨_, exec_memStc v h, State.cmElem_setCm_self s idx.toNat v, fun k hk => State.cmElem_setCm_ne s v hk⟩
  · exact ⟨raises_memLdc h, fun v => raises_memStc v h⟩

end Sys2Proof.Machine
end

section
/-! The fault record and the causes (spec/60_exceptions.md R243, R244, R246): what a command word that answers `ERR`
leaves of the state, the record while `STATUS.err` is 1, and the causes of each command. -/

namespace Sys2Proof.Machine

open Sys2Proof.Claims

variable {s t t' : State} {w : Command} {i : Instr} {c : Cause}

/-! ### A fault (R243) -/

/-- A fault answers its own cause. -/
theorem eq_of_raise_resp {d : Cause} (h : (raise d w s).resp = some (.err c)) : d = c := by
  simpa using h

/-- Only a fault answers `ERR`. -/
theorem CommandEffect.eq_raise (h : CommandEffect s i t) (hresp : t.resp = some (.err c)) : t = raise c (encode i) s := by
  cases h with
  | fault d => rw [eq_of_raise_resp hresp]
  | _ => cases hresp

/-- A word that decodes is the word of its command, so a fault raises the word taken, decoded or not. -/
theorem runCommand_eq_raise (h : runCommand w s = .next t) (hresp : t.resp = some (.err c)) : t = raise c w s := by
  cases hd : decode w with
  | error e =>
    rw [runCommand_of_decode_error hd, raised_eq_next] at h
    subst h
    rw [eq_of_raise_resp hresp]
  | ok i =>
    rw [runCommand_of_decode_ok hd] at h
    obtain ⟨-, hword⟩ := word_of_decode hd
    rw [(exec_effect h).eq_raise hresp, hword]

/-- Settles O50: the fault is the `raise` of the word taken. -/
theorem faultingCommandChangesOnlyTheRecord : Obligations.FaultingCommandChangesOnlyTheRecord := by
  intro s t w rest c hin h hresp
  rw [step_of_command hin] at h
  rw [runCommand_eq_raise h hresp, raise_eq_faulted]

/-! ### The record (R244) -/

/-- The three registers of the fault record (R24). -/
def State.record (s : State) : Bool × Byte × Command := (s.err, s.cause, s.einfo)

theorem State.record_eq_iff {e : Bool} {k : Byte} {v : Command} :
    s.record = (e, k, v) ↔ s.err = e ∧ s.cause = k ∧ s.einfo = v := by
  simp [State.record]

/-- The first fault is recorded. -/
theorem record_raise_of_clear (c : Cause) (w : Command) (h : s.err = false) :
    (raise c w s).record = (true, c.code, w) := by
  simp [State.record, raise_cause, raise_einfo, h]

/-- A later fault is not. -/
theorem record_raise_of_set (c : Cause) (w : Command) (h : s.err = true) : (raise c w s).record = s.record := by
  simp [State.record, raise_cause, raise_einfo, h]

/-- With a fault recorded, only `SYS.RESET` writes the record. -/
theorem CommandEffect.record_stays (h : CommandEffect s i t) (hreset : i ≠ .sysReset) (herr : s.err = true) :
    t.record = s.record := by
  cases h with
  | fault c => exact record_raise_of_set c _ herr
  | reset => exact absurd rfl hreset
  | _ => rfl

theorem runCommand_record_stays (h : runCommand w s = .next t) (hreset : decode w ≠ .ok .sysReset)
    (herr : s.err = true) : t.record = s.record := by
  cases hd : decode w with
  | error e =>
    rw [runCommand_of_decode_error hd, raised_eq_next] at h
    exact h ▸ record_raise_of_set _ _ herr
  | ok i =>
    rw [runCommand_of_decode_ok hd] at h
    exact (exec_effect h).record_stays (fun hi => hreset (hi ▸ hd)) herr

theorem runCommand_records_first_fault (h : runCommand w s = .next t) (hresp : t.resp = some (.err c))
    (herr : s.err = false) : t.record = (true, c.code, w) := by
  rw [runCommand_eq_raise h hresp, record_raise_of_clear c w herr]

/-- `SYS.RESET` clears the record. -/
theorem runCommand_sysReset_record (h : runCommand w s = .next t) (hd : decode w = .ok .sysReset) :
    t.record = (false, 0, 0) := by
  rw [runCommand_of_decode_ok hd, exec_sysReset] at h
  cases h
  rfl

theorem code_toNat (c : Cause) : c.code.toNat = codeNumber c := by cases c <;> rfl

/-- The cause a command word answers does not depend on the contents of the state: a decode error has its own, and a
command's follows from the checks. -/
theorem runCommand_cause_agree {s' : State} (hs : SameChecks s s') (h : runCommand w s = .next t)
    (h' : runCommand w s' = .next t') : t'.causeAnswered = t.causeAnswered := by
  cases hd : decode w with
  | error e =>
    rw [runCommand_of_decode_error hd, raised_eq_next] at h h'
    rw [← h, ← h', State.causeAnswered_raise, State.causeAnswered_raise]
  | ok i =>
    rw [runCommand_of_decode_ok hd] at h h'
    exact exec_cause_agree hs h h'

/-- Settles O51: the sticky record, the first fault, the cause with the record cleared, and the two resets. -/
theorem faultRecordIsFirstFaultAndSticky : Obligations.FaultRecordIsFirstFaultAndSticky := by
  refine ⟨fun s t w rest hin h => ?_, fun s t rest hin h => ?_⟩
  · rw [step_of_command hin] at h
    refine ⟨fun herr hreset => ?_, fun herr c hresp => ?_, fun t' h' c => ?_, fun hd => ?_⟩
    · have hrecord := runCommand_record_stays h hreset herr
      exact State.record_eq_iff.1 (hrecord.trans (State.record_eq_iff.2 ⟨herr, rfl, rfl⟩))
    · obtain ⟨herr', hcause, heinfo⟩ := State.record_eq_iff.1 (runCommand_records_first_fault h hresp herr)
      exact ⟨herr', by rw [hcause, code_toNat], heinfo⟩
    · rw [step_of_command (s := { s with err := false, cause := 0, einfo := 0 }) hin] at h'
      have hsame : SameChecks { s with inbox := rest } { s with err := false, cause := 0, einfo := 0, inbox := rest } :=
        ⟨rfl, rfl, fun _ => rfl⟩
      have hagree := runCommand_cause_agree hsame h h'
      rw [← State.causeAnswered_eq_some_iff, ← State.causeAnswered_eq_some_iff, hagree]
    · exact State.record_eq_iff.1 (runCommand_sysReset_record h hd)
  · rw [step_of_hardReset hin] at h
    cases h
    exact ⟨rfl, rfl, rfl⟩

/-! ### The causes of a command (R246) -/

theorem mem_of_raise_cause {d : Cause} {l : List Cause} (hd : d ∈ l) (hc : (raise d w s).causeAnswered = some c) :
    c ∈ l := by
  rw [State.causeAnswered_raise] at hc
  cases hc
  exact hd

theorem openReader_causes {rid : BitVec 4} {addr : Word} {f : Reader → Reader}
    (h : openReader rid addr w f s = .next t) (hc : t.causeAnswered = some c) :
    c ∈ [Cause.reservedField, .addressRange] := by
  rcases openReader_cases h with ⟨hr, -, rfl⟩ | ⟨-, rfl⟩ | ⟨-, -, rfl⟩
  · cases hc
  · exact mem_of_raise_cause (by decide) hc
  · exact mem_of_raise_cause (by decide) hc

theorem decodeWith_causes {rid : BitVec 4} {ok : Bool} {f : Reader → Word × Reader}
    (h : decodeWith rid ok w f s = .next t) (hc : t.causeAnswered = some c) :
    c ∈ [Cause.reservedField, .readerInvalid] := by
  rcases decodeWith_cases h with ⟨hr, -, -, rfl⟩ | ⟨-, rfl⟩ | ⟨-, -, -, rfl⟩
  · cases hc
  · exact mem_of_raise_cause (by decide) hc
  · exact mem_of_raise_cause (by decide) hc

theorem execSysRdc_causes {n : Half} (h : execSysRdc n s = .next t) (hc : t.causeAnswered = some c) :
    c ∈ [Cause.reservedField, .controlRegister] := by
  rcases execSysRdc_cases h with ⟨r, -, rfl⟩ | ⟨-, rfl⟩
  · cases hc
  · exact mem_of_raise_cause (by decide) hc

theorem execSysWrc_causes {n : Half} {v : Word} (h : execSysWrc n v s = .next t) (hc : t.causeAnswered = some c) :
    c ∈ [Cause.reservedField, .controlRegister] := by
  rcases execSysWrc_cases h with ⟨u, -, rfl⟩ | ⟨-, rfl⟩
  · cases hc
  · exact mem_of_raise_cause (by decide) hc

/-- The commands whose one check is that of their footprint. -/
theorem mem_of_range_cause {p : Prop} [Decidable p] (h : t.causeAnswered = if p then none else some .addressRange)
    (hc : t.causeAnswered = some c) : c ∈ [Cause.reservedField, .addressRange] := by
  rw [h] at hc
  split at hc <;> cases hc
  decide

/-- The causes of each command, by the shared operation it calls. -/
theorem exec_causes (h : exec i s = .next t) (hc : t.causeAnswered = some c) : c ∈ mayRaise i := by
  unfold exec at h
  cases i with
  | nop | sysReset | lfSetup level sharpness => cases h; cases hc
  | sysRdc n => exact execSysRdc_causes h hc
  | sysWrc n v => exact execSysWrc_causes h hc
  | memLdb addr => exact mem_of_range_cause (execMemLdb_cause h) hc
  | memStb v addr => exact mem_of_range_cause (execMemStb_cause h) hc
  | memLdc idx => exact mem_of_range_cause (execMemLdc_cause h) hc
  | memStc v idx => exact mem_of_range_cause (execMemStc_cause h) hc
  | brSetend rid bound | brStart rid start => exact openReader_causes h hc
  | brGetbit rid prob | brBool rid | brValue rid n | brSigned rid n => exact decodeWith_causes h hc
  | xfIwht src dst => exact mem_of_range_cause (transformCoeffs_cause h) hc
  | xfIdctadd src A => exact mem_of_range_cause (addResidual_cause h) hc
  | ip4Dc A | ip4Tm A | ip4Ve A | ip4He A | ip4Ld A | ip4Rd A | ip4Vr A | ip4Vl A | ip4Hd A | ip4Hu A =>
    exact mem_of_range_cause (predictBlock_cause h) hc
  | ip16Dc notop noleft A | ip16V A | ip16H A | ip16Tm A => exact mem_of_range_cause (predictBlock_cause h) hc
  | ip8Dc notop noleft A | ip8V A | ip8H A | ip8Tm A => exact mem_of_range_cause (predictBlock_cause h) hc
  | lfSmb dir A | lfSin dir A | lfNmb dir n A | lfNin dir n A => exact mem_of_range_cause (filterEdge_cause h) hc

/-- Settles O52: an `ERR` response is a cause answered, and `exec_causes` says which. -/
theorem causesFollowTheCommandTable : Obligations.CausesFollowTheCommandTable := fun _ _ _ _ h hresp =>
  exec_causes h (State.causeAnswered_eq_some_iff.2 hresp)

end Sys2Proof.Machine
end
